-- ==== Sys2Proof/Word.lean ====
section
/-! DEFINITION. The value types of the model: bytes, instruction words, register indices and the word that
stores a machine word of either width (00_scope.md R3, R9; 30_encoding.md R70). -/

namespace Sys2Proof

/-- One byte of memory, of an image, or of the output stream. -/
abbrev Byte := BitVec 8

/-- The storage of one machine word. A machine word has `XLEN` bits (R9). Under `XLEN = 64` these are all
the bits, under `XLEN = 32` the low 32 (log 1). -/
abbrev Word := BitVec 64

/-- One instruction word, always 16 bits (R70, R83). -/
abbrev InstrWord := BitVec 16

/-- A register index, the 8-bit `uimm` of an instruction word (R24, R72): every index is in range. -/
abbrev RegIdx := BitVec 8

end Sys2Proof
end

