-- ==== Sys2Proof/Syntax.lean ====
section
/-! DEFINITION. The instructions, one constructor per row of spec/opcode_table.json, and the decoder's kinds
(30_encoding.md R73, R76). The operand fields are the raw fields of the word (R71). What they mean is
Machine/Operands.lean's table. -/

namespace Sys2Proof

/-- An instruction. Format I instructions carry `imm8` as a register index or an immediate byte where
R73 gives them an operand. The branches (format B) carry `off12`. The ignored `imm8` of `nop`, `sra`, `in` and
`out` (R82) is no operand and is dropped (log 15). -/
inductive Instr where
  | nop
  | inPort
  | add (r : RegIdx)
  | addi (imm : Byte)
  | sub (r : RegIdx)
  | subi (imm : Byte)
  | sra
  | load (r : RegIdx)
  | loadi (imm : Byte)
  | and (r : RegIdx)
  | andi (imm : Byte)
  | or (r : RegIdx)
  | ori (imm : Byte)
  | xor (r : RegIdx)
  | xori (imm : Byte)
  | loadh (imm : Byte)
  | loadh2 (imm : Byte)
  | loadh3 (imm : Byte)
  | loadh4 (imm : Byte)
  | loadh5 (imm : Byte)
  | loadh6 (imm : Byte)
  | loadh7 (imm : Byte)
  | store (r : RegIdx)
  | outPort
  | jal (r : RegIdx)
  | ldaddr (r : RegIdx)
  | ldind (imm : Byte)
  | ldindbu (imm : Byte)
  | stind (imm : Byte)
  | stindb (imm : Byte)
  | br (off : BitVec 12)
  | brz (off : BitVec 12)
  | brnz (off : BitVec 12)
  | brp (off : BitVec 12)
  | brn (off : BitVec 12)
  | scall (imm : Byte)
  deriving DecidableEq, Repr

/-- The result of decoding an opcode byte: a mnemonic of R78 or `unknown` (R76). -/
inductive Kind where
  | nop | inPort | add | addi | sub | subi | sra | load | loadi | and | andi | or | ori | xor | xori
  | loadh | loadh2 | loadh3 | loadh4 | loadh5 | loadh6 | loadh7 | store | outPort | jal | ldaddr
  | ldind | ldindbu | stind | stindb | br | brz | brnz | brp | brn | scall | unknown
  deriving DecidableEq, Repr

/-- The kind an instruction is of (R76). -/
def Instr.kind : Instr → Kind
  | .nop => .nop
  | .inPort => .inPort
  | .add _ => .add
  | .addi _ => .addi
  | .sub _ => .sub
  | .subi _ => .subi
  | .sra => .sra
  | .load _ => .load
  | .loadi _ => .loadi
  | .and _ => .and
  | .andi _ => .andi
  | .or _ => .or
  | .ori _ => .ori
  | .xor _ => .xor
  | .xori _ => .xori
  | .loadh _ => .loadh
  | .loadh2 _ => .loadh2
  | .loadh3 _ => .loadh3
  | .loadh4 _ => .loadh4
  | .loadh5 _ => .loadh5
  | .loadh6 _ => .loadh6
  | .loadh7 _ => .loadh7
  | .store _ => .store
  | .outPort => .outPort
  | .jal _ => .jal
  | .ldaddr _ => .ldaddr
  | .ldind _ => .ldind
  | .ldindbu _ => .ldindbu
  | .stind _ => .stind
  | .stindb _ => .stindb
  | .br _ => .br
  | .brz _ => .brz
  | .brnz _ => .brnz
  | .brp _ => .brp
  | .brn _ => .brn
  | .scall _ => .scall

/-- The kinds that the dense tier of the decoder holds, every mnemonic but the five branches
(R77, R78). -/
def Kind.denseKinds : List Kind :=
  [.nop, .inPort, .add, .addi, .sub, .subi, .sra, .load, .loadi, .and, .andi, .or, .ori, .xor, .xori]
    ++ [.loadh, .loadh2, .loadh3, .loadh4, .loadh5, .loadh6, .loadh7, .store, .outPort, .jal, .ldaddr]
    ++ [.ldind, .ldindbu, .stind, .stindb, .scall]

end Sys2Proof
end

