-- ==== Sys2Proof/Config.lean ====
section
/-! DEFINITION. The parameters of a machine (00_scope.md R6), fixed for its lifetime, as plain data: the
build's word width, the opcode map, and every choice the spec keeps as a parameter with its default.
The machine's state carries one `Config`. -/

namespace Sys2Proof

/-- `XLEN` (R3): "either 32-bit or 64-bit depending on build configuration". -/
inductive Xlen where
  | x32
  | x64
  deriving DecidableEq, Repr

/-- The number of bits of a machine word (R3, R9). -/
def Xlen.bits : Xlen → Nat
  | .x32 => 32
  | .x64 => 64

/-- `ILEN` (R6): bytes of an instruction word. -/
def instrBytes : Nat := 2

/-- `NREG` (R6): the number of general registers. -/
def registerCount : Nat := 256

/-- `TRACE_DEPTH` (R6, R36). -/
def traceDepth : Nat := 100

/-- `DECODE_DONTCARE` (R79, R80). -/
inductive DontCare where
  | exact
  | prefixMatch
  deriving DecidableEq, Repr

/-- `SRA_MODE` (R125). -/
inductive SraMode where
  | logical
  | arithmetic
  deriving DecidableEq, Repr

/-- The extension of a narrow value: `LOADI_EXT` (R127), `LOADH_FILL` (R134), `IND_LOAD_EXT` (R191). -/
inductive Ext where
  | sign
  | zero
  deriving DecidableEq, Repr

/-- `IND_WORD_BYTES` (R57), which matters only under `XLEN = 64`. -/
inductive IndWord where
  | four
  | eight
  deriving DecidableEq, Repr

/-- `JAL_ODD_TARGET` (R170). -/
inductive JalOdd where
  | fault
  | allow
  deriving DecidableEq, Repr

/-- `SCALL_OTHER` (R210). -/
inductive ScallOther where
  | fault
  | nop
  deriving DecidableEq, Repr

/-- `FETCH_WINDOW_UPPER` (R30). -/
inductive WindowUpper where
  | inclusive
  | exclusive
  deriving DecidableEq, Repr

/-- `UNINIT_POLICY` (R103). -/
inductive UninitPolicy where
  | fault
  | zero
  deriving DecidableEq, Repr

/-- The branch tier of the opcode map: the five values of the top 4 opcode bits that select a branch
(R77, R78). -/
structure BranchSelectors where
  br : BitVec 4
  brz : BitVec 4
  brnz : BitVec 4
  brp : BitVec 4
  brn : BitVec 4
  deriving DecidableEq, Repr

/-- One row of the dense tier (R78): the exact byte, and the prefix pattern as the mask of its tested bits
with their values. -/
structure OpcodeRow where
  kind : Kind
  byte : Byte
  patMask : Byte
  patValue : Byte
  deriving DecidableEq, Repr

/-- `OPCODE_MAP` with `LOADH_HI_OPCODES` (R6, R78): configuration, not a fact of the source. -/
structure OpcodeMap where
  branches : BranchSelectors
  dense : List OpcodeRow
  deriving DecidableEq, Repr

/-- All parameters of R6. -/
structure Config where
  xlen : Xlen
  opcodes : OpcodeMap
  dontCare : DontCare
  sraMode : SraMode
  loadiExt : Ext
  loadhFill : Ext
  indWord : IndWord
  indLoadExt : Ext
  jalOdd : JalOdd
  scallOther : ScallOther
  exitOnJalR0 : Bool
  windowUpper : WindowUpper
  uninit : UninitPolicy
  /-- `DEFAULT_SP`, OPEN (D17). -/
  defaultSp : Word
  /-- `ARGV_BASE`, OPEN (D18). -/
  argvBase : Word
  deriving DecidableEq, Repr

end Sys2Proof
end

