-- ==== Sys2Proof/Machine/Defaults.lean ====
section
/-! DEFINITION. The values and lookups of the parameters: the default opcode map (30_encoding.md R78), the spec's
defaults (00_scope.md R6), the parameters of the reset machine, and what a row of a map says. -/

namespace Sys2Proof

/-- The selectors of the default map (R78). UNVERIFIED, unsafe: the spec's rule, which
the spec itself takes from general knowledge (G3, log 9). -/
def BranchSelectors.default : BranchSelectors :=
  { br := 0x8, brz := 0x9, brnz := 0xA, brp := 0xB, brn := 0xC }

/-- The first rows of the default dense tier (R78). UNVERIFIED, unsafe: the spec's rule, from general knowledge
(G1, G2, log 9, log 11). -/
def OpcodeMap.defaultAluRows : List OpcodeRow :=
  [ ⟨.nop, 0x00, 0b11111000, 0b00000000⟩,
    ⟨.inPort, 0x05, 0b11111100, 0b00000100⟩,
    ⟨.add, 0x08, 0b11111101, 0b00001000⟩,
    ⟨.addi, 0x09, 0b11111101, 0b00001001⟩,
    ⟨.sub, 0x0C, 0b11111101, 0b00001100⟩,
    ⟨.subi, 0x0D, 0b11111101, 0b00001101⟩,
    ⟨.sra, 0x10, 0b11111000, 0b00010000⟩,
    ⟨.load, 0x20, 0b11111111, 0b00100000⟩,
    ⟨.loadi, 0x21, 0b11111111, 0b00100001⟩,
    ⟨.and, 0x22, 0b11111111, 0b00100010⟩,
    ⟨.andi, 0x23, 0b11111111, 0b00100011⟩,
    ⟨.or, 0x24, 0b11111111, 0b00100100⟩,
    ⟨.ori, 0x25, 0b11111111, 0b00100101⟩,
    ⟨.xor, 0x26, 0b11111111, 0b00100110⟩,
    ⟨.xori, 0x27, 0b11111111, 0b00100111⟩ ]

/-- The byte-lane rows of the default dense tier (R78). The bytes of `loadh4` to `loadh7` are
`LOADH_HI_OPCODES` (D7), extrapolated by the spec (G5, log 9). -/
def OpcodeMap.defaultLaneRows : List OpcodeRow :=
  [ ⟨.loadh, 0x29, 0b11111111, 0b00101001⟩,
    ⟨.loadh2, 0x2A, 0b11111111, 0b00101010⟩,
    ⟨.loadh3, 0x2B, 0b11111111, 0b00101011⟩,
    ⟨.loadh4, 0x2C, 0b11111111, 0b00101100⟩,
    ⟨.loadh5, 0x2D, 0b11111111, 0b00101101⟩,
    ⟨.loadh6, 0x2E, 0b11111111, 0b00101110⟩,
    ⟨.loadh7, 0x2F, 0b11111111, 0b00101111⟩ ]

/-- The other rows of the default dense tier (R78). -/
def OpcodeMap.defaultMoveRows : List OpcodeRow :=
  [ ⟨.store, 0x30, 0b11111000, 0b00110000⟩,
    ⟨.outPort, 0x39, 0b11111100, 0b00111000⟩,
    ⟨.jal, 0x40, 0b11111000, 0b01000000⟩,
    ⟨.ldaddr, 0x50, 0b11111000, 0b01010000⟩,
    ⟨.ldind, 0x60, 0b11111011, 0b01100000⟩,
    ⟨.ldindbu, 0x61, 0b11111011, 0b01100001⟩,
    ⟨.stind, 0x70, 0b11111011, 0b01110000⟩,
    ⟨.stindb, 0x71, 0b11111011, 0b01110001⟩,
    ⟨.scall, 0xFF, 0b11111111, 0b11111111⟩ ]

/-- The default `OPCODE_MAP` (R78). UNVERIFIED, unsafe (G1, G2, G3, G5, log 9, log 11). -/
def OpcodeMap.default : OpcodeMap :=
  { branches := BranchSelectors.default,
    dense := OpcodeMap.defaultAluRows ++ OpcodeMap.defaultLaneRows ++ OpcodeMap.defaultMoveRows }

/-- The parameters at the defaults of R6 for a build of the given width. The two OPEN parameters have no
default in the spec and are 0 here. DESIGN CHOICE, unsafe (log 5, log 6). -/
def Config.specDefault (x : Xlen) : Config :=
  { xlen := x,
    opcodes := OpcodeMap.default,
    dontCare := .exact,
    sraMode := .logical,
    loadiExt := .sign,
    loadhFill := .sign,
    indWord := .four,
    indLoadExt := .zero,
    jalOdd := .fault,
    scallOther := .fault,
    exitOnJalR0 := false,
    windowUpper := .inclusive,
    uninit := .fault,
    defaultSp := 0,
    argvBase := 0 }

/-- The parameters of the machine `State.reset` describes: the 64-bit build, in which every row of the
opcode table exists (log 2), whose registers can be read before they are written
(`UNINIT_POLICY = zero`, log 3). Everything else is the spec's default. DESIGN CHOICE, unsafe. -/
def Config.reset : Config :=
  { Config.specDefault .x64 with uninit := .zero }

/-- Whether a kind exists in a build (R78, column XLEN): `loadh4` to `loadh7` only when `XLEN = 64`, and
`unknown` is no instruction. -/
def Kind.existsAt (k : Kind) (x : Xlen) : Bool :=
  match k with
  | .loadh4 | .loadh5 | .loadh6 | .loadh7 => x == .x64
  | .unknown => false
  | .nop | .inPort | .add | .addi | .sub | .subi | .sra | .load | .loadi | .and | .andi | .or | .ori | .xor
  | .xori | .loadh | .loadh2 | .loadh3 | .store | .outPort | .jal | .ldaddr | .ldind | .ldindbu | .stind
  | .stindb | .br | .brz | .brnz | .brp | .brn | .scall => true

/-- The rows of the dense tier that a build of width `x` holds (R78: a byte of `loadh4` to `loadh7` is
`unknown` when `XLEN = 32`). -/
def OpcodeMap.rowsAt (m : OpcodeMap) (x : Xlen) : List OpcodeRow :=
  m.dense.filter (fun r => r.kind.existsAt x)

/-- Whether an opcode byte agrees with a row's prefix pattern in its tested bits (R80). -/
def OpcodeRow.patMatches (r : OpcodeRow) (op : Byte) : Bool :=
  op &&& r.patMask == r.patValue

/-- The number of bits a row's prefix pattern tests (R80). -/
def OpcodeRow.tested (r : OpcodeRow) : Nat :=
  (List.range 8).countP (fun i => r.patMask.getLsbD i)

/-- The five selectors as a list. -/
def BranchSelectors.all (b : BranchSelectors) : List (BitVec 4) :=
  [b.br, b.brz, b.brnz, b.brp, b.brn]

/-- The exact byte of a kind, where the map has one. -/
def OpcodeMap.byteOf (m : OpcodeMap) (x : Xlen) (k : Kind) : Option Byte :=
  ((m.rowsAt x).find? (fun r => r.kind == k)).map (·.byte)

end Sys2Proof
end

