-- ==== Sys2Proof/WellFormed.lean ====
section
/-! DEFINITION. Which instructions a build has, and what a replacement `OPCODE_MAP` must keep
(30_encoding.md R77, R78, R80). -/

namespace Sys2Proof

/-- An instruction is well formed for a configuration when its kind exists in that build (R78). Its fields
always fit the word: every 8-bit index, immediate and 12-bit displacement field is legal (R24, R82). -/
def Instr.wellFormed (c : Config) (i : Instr) : Bool :=
  i.kind.existsAt c.xlen

/-- The five branch selectors differ (R77). -/
def OpcodeMap.selectorsDistinct (m : OpcodeMap) : Bool :=
  decide m.branches.all.Nodup

/-- The dense tier holds one row for every kind of the build that is no branch, and no other row
(R78, C12). -/
def OpcodeMap.rowsComplete (m : OpcodeMap) (x : Xlen) : Bool :=
  decide ((m.rowsAt x).map (·.kind)).Nodup
    && (m.rowsAt x).all (fun r => Kind.denseKinds.contains r.kind)
    && Kind.denseKinds.all (fun k => !k.existsAt x || ((m.rowsAt x).map (·.kind)).contains k)

/-- The exact bytes differ: in particular register and immediate forms have distinct opcodes (R78). -/
def OpcodeMap.bytesDistinct (m : OpcodeMap) (x : Xlen) : Bool :=
  decide ((m.rowsAt x).map (·.byte)).Nodup

/-- No exact byte lies in the branch tier, which the top 4 bits alone select (R77, R81). -/
def OpcodeMap.bytesOutsideBranches (m : OpcodeMap) (x : Xlen) : Bool :=
  (m.rowsAt x).all (fun r => !m.branches.all.contains (r.byte.extractLsb' 4 4))

/-- Two bytes differ in exactly one of their four low bits. DEDUCED, safe: R78's "low-order opcode bit" (log 10). -/
def differInLowBit (a b : Byte) : Bool :=
  [0x01, 0x02, 0x04, 0x08].contains (a ^^^ b)

/-- `ldind` and `ldindbu`, and `stind` and `stindb`, differ in a low-order opcode bit (R78). -/
def OpcodeMap.indirectPairs (m : OpcodeMap) (x : Xlen) : Bool :=
  match m.byteOf x .ldind, m.byteOf x .ldindbu, m.byteOf x .stind, m.byteOf x .stindb with
  | some a, some b, some c, some d => differInLowBit a b && differInLowBit c d
  | _, _, _, _ => false

/-- Under the prefix policy every exact byte is its own kind's: it matches its own row's pattern, and any
other row it matches tests fewer bits (R80). -/
def OpcodeMap.prefixesAgree (m : OpcodeMap) (x : Xlen) : Bool :=
  (m.rowsAt x).all (fun r => r.patMatches r.byte
    && (m.rowsAt x).all (fun q => q.kind == r.kind || !q.patMatches r.byte || decide (q.tested < r.tested)))

/-- What any `OPCODE_MAP` must keep (R77, R78, R80). -/
def OpcodeMap.wellFormed (m : OpcodeMap) (x : Xlen) : Bool :=
  m.selectorsDistinct && m.rowsComplete x && m.bytesDistinct x && m.bytesOutsideBranches x
    && m.indirectPairs x && m.prefixesAgree x

/-- A configuration is well formed when its opcode map is, for its own width. Every other parameter has
only legal values. -/
def Config.wellFormed (c : Config) : Bool :=
  c.opcodes.wellFormed c.xlen

end Sys2Proof
end

