-- ==== Sys2Proof/Decode.lean ====
section
/-! DEFINITION. The decoder (30_encoding.md R70 to R83), total on any opcode byte and any bytes, and after
it the encoder, both written from the same opcode map. -/

namespace Sys2Proof

/-- Why bytes are no instruction. Both are safe: nothing is executed in their place. -/
inductive DecodeReject where
  /-- The opcode byte decodes to `unknown` (R77). Executing it is `Error(DecodeError)` (R215). -/
  | unknown (op : Byte)
  /-- Fewer than the two bytes of an instruction word (R70). A fetch never meets it (R52). -/
  | truncated
  deriving DecidableEq, Repr

/-- The opcode byte `word[15:8]` (R70). -/
def opcodeOf (w : InstrWord) : Byte := w.extractLsb' 8 8

/-- The immediate byte `word[7:0]` (R70). -/
def imm8Of (w : InstrWord) : Byte := w.extractLsb' 0 8

/-- The displacement field `word[11:0]` of format B (R71). -/
def off12Of (w : InstrWord) : BitVec 12 := w.extractLsb' 0 12

/-- The word of two bytes in fetch order, the first the low byte (R55, R70). -/
def wordOfBytes (lo hi : Byte) : InstrWord := hi ++ lo

/-- The branch tier: the kind that the top 4 opcode bits select, if they are one of the five selectors
(R77). -/
def OpcodeMap.branchKind (m : OpcodeMap) (sel : BitVec 4) : Option Kind :=
  if sel = m.branches.br then some .br
  else if sel = m.branches.brz then some .brz
  else if sel = m.branches.brnz then some .brnz
  else if sel = m.branches.brp then some .brp
  else if sel = m.branches.brn then some .brn
  else none

/-- The dense tier under the exact policy (R79). -/
def OpcodeMap.exactKind (m : OpcodeMap) (x : Xlen) (op : Byte) : Kind :=
  match (m.rowsAt x).find? (fun r => r.byte == op) with
  | some r => r.kind
  | none => .unknown

/-- The matching row with the most tested bits (R80). DESIGN CHOICE, safe: the earliest of equals (log 11). -/
def longestMatch (op : Byte) : List OpcodeRow → Option OpcodeRow
  | [] => none
  | r :: rest =>
    match longestMatch op rest with
    | none => if r.patMatches op then some r else none
    | some q => if r.patMatches op && decide (q.tested ≤ r.tested) then some r else some q

/-- The dense tier under the prefix policy (R80). -/
def OpcodeMap.prefixKind (m : OpcodeMap) (x : Xlen) (op : Byte) : Kind :=
  match longestMatch op (m.rowsAt x) with
  | some r => r.kind
  | none => .unknown

/-- `decode(op)` (R76, R77): the branch tier first, then the dense tier by the policy. -/
def decodeOpcode (c : Config) (op : Byte) : Kind :=
  match c.opcodes.branchKind (op.extractLsb' 4 4) with
  | some k => k
  | none =>
    match c.dontCare with
    | .exact => c.opcodes.exactKind c.xlen op
    | .prefixMatch => c.opcodes.prefixKind c.xlen op

/-- The instruction of a kind with the fields of its word (R71, R73), none for `unknown`. -/
def Kind.build (k : Kind) (w : InstrWord) : Option Instr :=
  match k with
  | .nop => some .nop
  | .inPort => some .inPort
  | .add => some (.add (imm8Of w))
  | .addi => some (.addi (imm8Of w))
  | .sub => some (.sub (imm8Of w))
  | .subi => some (.subi (imm8Of w))
  | .sra => some .sra
  | .load => some (.load (imm8Of w))
  | .loadi => some (.loadi (imm8Of w))
  | .and => some (.and (imm8Of w))
  | .andi => some (.andi (imm8Of w))
  | .or => some (.or (imm8Of w))
  | .ori => some (.ori (imm8Of w))
  | .xor => some (.xor (imm8Of w))
  | .xori => some (.xori (imm8Of w))
  | .loadh => some (.loadh (imm8Of w))
  | .loadh2 => some (.loadh2 (imm8Of w))
  | .loadh3 => some (.loadh3 (imm8Of w))
  | .loadh4 => some (.loadh4 (imm8Of w))
  | .loadh5 => some (.loadh5 (imm8Of w))
  | .loadh6 => some (.loadh6 (imm8Of w))
  | .loadh7 => some (.loadh7 (imm8Of w))
  | .store => some (.store (imm8Of w))
  | .outPort => some .outPort
  | .jal => some (.jal (imm8Of w))
  | .ldaddr => some (.ldaddr (imm8Of w))
  | .ldind => some (.ldind (imm8Of w))
  | .ldindbu => some (.ldindbu (imm8Of w))
  | .stind => some (.stind (imm8Of w))
  | .stindb => some (.stindb (imm8Of w))
  | .br => some (.br (off12Of w))
  | .brz => some (.brz (off12Of w))
  | .brnz => some (.brnz (off12Of w))
  | .brp => some (.brp (off12Of w))
  | .brn => some (.brn (off12Of w))
  | .scall => some (.scall (imm8Of w))
  | .unknown => none

/-- The instruction a word holds, or the opcode byte that is `unknown` (R76, R77, R81). -/
def decodeWord (c : Config) (w : InstrWord) : Except DecodeReject Instr :=
  match (decodeOpcode c (opcodeOf w)).build w with
  | some i => .ok i
  | none => .error (.unknown (opcodeOf w))

/-- The instruction at the head of a list of bytes, and the bytes after it (R70, R83). -/
def decode (c : Config) (bytes : List Byte) : Except DecodeReject (Instr × List Byte) :=
  match bytes with
  | lo :: hi :: rest =>
    match decodeWord c (wordOfBytes lo hi) with
    | .ok i => .ok (i, rest)
    | .error e => .error e
  | _ => .error .truncated

/-- The immediate byte an instruction is encoded with, 0 where R82 ignores it (log 15). -/
def Instr.imm8 : Instr → Byte
  | .nop | .inPort | .sra | .outPort => 0
  | .add r | .sub r | .load r | .and r | .or r | .xor r | .store r | .jal r | .ldaddr r => r
  | .addi i | .subi i | .loadi i | .andi i | .ori i | .xori i | .loadh i | .loadh2 i | .loadh3 i | .loadh4 i
  | .loadh5 i | .loadh6 i | .loadh7 i | .ldind i | .ldindbu i | .stind i | .stindb i | .scall i => i
  | .br off | .brz off | .brnz off | .brp off | .brn off => off.extractLsb' 0 8

/-- The displacement field of a branch (R71, R74). The other instructions have none. -/
def Instr.off12 : Instr → BitVec 12
  | .br off | .brz off | .brnz off | .brp off | .brn off => off
  | .nop | .inPort | .sra | .outPort | .add _ | .sub _ | .load _ | .and _ | .or _ | .xor _ | .store _ | .jal _
  | .ldaddr _ | .addi _ | .subi _ | .loadi _ | .andi _ | .ori _ | .xori _ | .loadh _ | .loadh2 _ | .loadh3 _
  | .loadh4 _ | .loadh5 _ | .loadh6 _ | .loadh7 _ | .ldind _ | .ldindbu _ | .stind _ | .stindb _
  | .scall _ => 0

/-- The selector of a branch kind (R78), none for the dense kinds. -/
def OpcodeMap.selectorOf (m : OpcodeMap) (k : Kind) : Option (BitVec 4) :=
  match k with
  | .br => some m.branches.br
  | .brz => some m.branches.brz
  | .brnz => some m.branches.brnz
  | .brp => some m.branches.brp
  | .brn => some m.branches.brn
  | .nop | .inPort | .add | .addi | .sub | .subi | .sra | .load | .loadi | .and | .andi | .or | .ori | .xor
  | .xori | .loadh | .loadh2 | .loadh3 | .loadh4 | .loadh5 | .loadh6 | .loadh7 | .store | .outPort | .jal
  | .ldaddr | .ldind | .ldindbu | .stind | .stindb | .scall | .unknown => none

/-- The word of an instruction (R71, R78), none where the map or the build has no opcode for it. -/
def encode (c : Config) (i : Instr) : Option InstrWord :=
  match c.opcodes.selectorOf i.kind with
  | some sel => some (sel ++ i.off12)
  | none =>
    match c.opcodes.byteOf c.xlen i.kind with
    | some b => some (b ++ i.imm8)
    | none => none

/-- The two bytes of a word in memory order, low byte first (R55). -/
def bytesOfWord (w : InstrWord) : List Byte := [w.extractLsb' 0 8, w.extractLsb' 8 8]

/-- The field that encodes a byte displacement, `off12 = (d >> 1) & 0xFFF` (R74). -/
def off12OfDisp (d : Int) : BitVec 12 := BitVec.ofInt 12 (d / 2)

/-- The instruction the decoder of the reset machine reads from an instruction's bits, bit 0 the least
significant bit of its word (the host's numbering). Bits above `nbits` are 0. -/
def decodeTableWord (nbits w : Nat) : Option Instr :=
  match decode Config.reset (bytesOfWord (BitVec.ofNat 16 (w % 2 ^ nbits))) with
  | .ok (i, _) => some i
  | .error _ => none

end Sys2Proof
end

