-- ==== Sys2Proof/Machine/Values.lean ====
section
/-! DEFINITION. Operations on values (00_scope.md R9): words modulo `2^XLEN`, extensions, signed
readings, shifts, and the byte-lane operation of 41_alu.md section 6. A word's storage has 64 bits, and under
`XLEN = 32` its value is the low 32 bits (log 1). -/

namespace Sys2Proof.Machine

/-- A word modulo `2^XLEN` (R9). -/
def wrap (x : Xlen) (v : Word) : Word :=
  match x with
  | .x32 => (v.setWidth 32).setWidth 64
  | .x64 => v

/-- `wrap(n)` of an integer (R9). -/
def wrapInt (x : Xlen) (n : Int) : Word := wrap x (BitVec.ofInt 64 n)

/-- `s(v)`, the signed reading (R9). -/
def signed (x : Xlen) (v : Word) : Int :=
  match x with
  | .x32 => (v.setWidth 32).toInt
  | .x64 => v.toInt

/-- `sext_8` (R9, R72). -/
def sext8 (x : Xlen) (imm : Byte) : Word := wrap x (imm.signExtend 64)

/-- `zext_8` (R9, R72). -/
def zext8 (imm : Byte) : Word := imm.setWidth 64

/-- The extension of an immediate byte that a parameter chooses. -/
def extend8 (x : Xlen) (e : Ext) (imm : Byte) : Word :=
  match e with
  | .sign => sext8 x imm
  | .zero => zext8 imm

/-- `sext_13(off12 ++ 0b0)`, the branch displacement (R74). -/
def sextDisp (x : Xlen) (off : BitVec 12) : Word := wrap x ((off ++ 0#1).signExtend 64)

/-- `>>u 1` (R9, R125). -/
def shiftRightLogical (x : Xlen) (v : Word) : Word := wrap x v >>> 1

/-- `>>s 1` (R9, R125). -/
def shiftRightArithmetic (x : Xlen) (v : Word) : Word :=
  match x with
  | .x32 => ((v.setWidth 32).sshiftRight 1).setWidth 64
  | .x64 => v.sshiftRight 1

/-- `LoadH(k)` of 41_alu.md section 6: lanes below `k` of `a` kept, the extended immediate from lane `k` up. -/
def loadLane (x : Xlen) (k : Nat) (fill a : Word) : Word :=
  wrap x ((fill <<< (8 * k)) ||| (a.extractLsb' 0 (8 * k)).setWidth 64)

/-- The bytes of an indirect word access (R57, R191, R193). -/
def indirectBytes (c : Config) : Nat :=
  match c.xlen with
  | .x32 => 4
  | .x64 =>
    match c.indWord with
    | .four => 4
    | .eight => 8

/-- The word that `ldind` forms from the bytes it reads (R191). -/
def widenIndirect (c : Config) (v : Nat) : Word :=
  match c.xlen with
  | .x32 => BitVec.ofNat 64 v
  | .x64 =>
    match c.indWord with
    | .four =>
      match c.indLoadExt with
      | .zero => (BitVec.ofNat 32 v).setWidth 64
      | .sign => (BitVec.ofNat 32 v).signExtend 64
    | .eight => BitVec.ofNat 64 v

end Sys2Proof.Machine
end

