-- ==== Sys2Proof/Machine/Operands.lean ====
section
/-! DEFINITION. The operand of each instruction (30_encoding.md R72 to R75), resolved once from its word's
fields and the configuration, and the effective address of the indirect forms. -/

namespace Sys2Proof.Machine

/-- "Operand = Register(index) | Immediate(value)", or none (R73). -/
inductive Operand where
  | none
  | register (i : RegIdx)
  | immediate (v : Word)
  deriving DecidableEq, Repr

/-- The operand table (R73). -/
def operandOf (c : Config) (i : Instr) : Operand :=
  match i with
  | .nop => .none
  | .sra => .none
  | .inPort => .none
  | .outPort => .none
  | .add r => .register r
  | .sub r => .register r
  | .load r => .register r
  | .and r => .register r
  | .or r => .register r
  | .xor r => .register r
  | .addi imm => .immediate (sext8 c.xlen imm)
  | .subi imm => .immediate (sext8 c.xlen imm)
  | .loadi imm => .immediate (extend8 c.xlen c.loadiExt imm)
  | .andi imm => .immediate (zext8 imm)
  | .ori imm => .immediate (zext8 imm)
  | .xori imm => .immediate (zext8 imm)
  | .loadh imm => .immediate (extend8 c.xlen c.loadhFill imm)
  | .loadh2 imm => .immediate (extend8 c.xlen c.loadhFill imm)
  | .loadh3 imm => .immediate (extend8 c.xlen c.loadhFill imm)
  | .loadh4 imm => .immediate (extend8 c.xlen c.loadhFill imm)
  | .loadh5 imm => .immediate (extend8 c.xlen c.loadhFill imm)
  | .loadh6 imm => .immediate (extend8 c.xlen c.loadhFill imm)
  | .loadh7 imm => .immediate (extend8 c.xlen c.loadhFill imm)
  | .store r => .register r
  | .jal r => .register r
  | .ldaddr r => .register r
  | .ldind imm => .immediate (wrap c.xlen (sext8 c.xlen imm <<< 2))
  | .stind imm => .immediate (wrap c.xlen (sext8 c.xlen imm <<< 2))
  | .ldindbu imm => .immediate (sext8 c.xlen imm)
  | .stindb imm => .immediate (sext8 c.xlen imm)
  | .scall imm => .immediate (zext8 imm)
  | .br off => .immediate (sextDisp c.xlen off)
  | .brz off => .immediate (sextDisp c.xlen off)
  | .brnz off => .immediate (sextDisp c.xlen off)
  | .brp off => .immediate (sextDisp c.xlen off)
  | .brn off => .immediate (sextDisp c.xlen off)

/-- The value of an immediate operand. An operand of another form has none, and 0 stands there. -/
def Operand.value : Operand → Word
  | .immediate v => v
  | .none => 0
  | .register _ => 0

/-- The indirect effective address: base plus offset modulo `2^XLEN` (R75, R191 to R194). -/
def effectiveAddress (x : Xlen) (base offset : Word) : Word := wrap x (base + offset)

end Sys2Proof.Machine
end

