-- ==== Sys2Proof/Machine/State.lean ====
section
/-! DEFINITION. The state of the machine as plain data (10_state.md), the ways a run ends
(48_run_loop.md R238, 60_exceptions.md R250), and the state after reset (10_state.md R38). -/

namespace Sys2Proof.Machine

/-- A location whose reads are checked (40_execution_model.md R103). -/
inductive Loc where
  | a
  | ar
  | x (i : RegIdx)
  deriving DecidableEq, Repr

/-- Which of the two unimplemented instructions was executed (R213, R214). -/
inductive IoInstr where
  | inPort
  | outPort
  deriving DecidableEq, Repr

/-- The fatal error kinds with the value recorded (R250). The `pc` recorded with each is the `pc` left in
the state (R253, log 26). -/
inductive Error where
  /-- The opcode byte decodes to `unknown` (R215). -/
  | decodeError (op : Byte)
  /-- `in` or `out` was executed (R213, R214). -/
  | unimplemented (which : IoInstr)
  /-- A `jal` target outside the window (R170). -/
  | outOfBoundsJump (target : Word)
  /-- An odd `jal` target under `JAL_ODD_TARGET = fault` (R170). -/
  | misalignedJump (target : Word)
  /-- A `scall` subfunction above 2 under `SCALL_OTHER = fault` (R210). -/
  | unknownSyscall (uimm : Byte)
  /-- A checked read of an unwritten location under `UNINIT_POLICY = fault` (R103). -/
  | uninitialisedRead (loc : Loc)
  deriving DecidableEq, Repr

/-- The result of a halted run (R238). -/
inductive RunResult where
  | systemCall
  | outOfBounds
  | returnToCaller
  | error (e : Error)
  deriving DecidableEq, Repr

/-- The run status (R21). -/
inductive Status where
  | running
  | halted (r : RunResult)
  deriving DecidableEq, Repr

/-- Why the model answers no next state. A closed list: no instruction's meaning raises any of them. -/
inductive Fault where
  /-- Raised by `step` on a halted state, which has no step (R237, R254). Safe: nothing follows it. -/
  | halted (r : RunResult)
  /-- Raised by the loader for a missing, unreadable or odd-length flat image (R251, R282). Safe: no state is
  built. -/
  | inputFileError
  deriving DecidableEq, Repr

/-- What the model gives no meaning to. A closed list. -/
inductive Refusal where
  /-- Raised by `exec` for an instruction without a meaning. Safe. No arm raises it. -/
  | notModelled (mnemonic : String)
  /-- Raised by the loader for regions that overlap (R283, D30). Safe: the spec gives such a launch no meaning. -/
  | overlappingRegions
  /-- Raised by the loader for an odd entry point (R285, D30). Safe: the spec gives such a launch no meaning. -/
  | oddEntryPoint
  deriving DecidableEq, Repr

/-- Memory as address and byte pairs in one canonical form: addresses strictly rising, no byte 0, since an
unlisted address reads as 0 (20_memory.md R52). -/
abbrev Memory := List Host.Cell

/-- The general registers as index and word pairs in the same canonical form, an unlisted register holding 0. -/
abbrev RegFile := List (Nat × Word)

/-- The machine's state: the architectural state of R20, memory, the model state of R21, and the
parameters of R6, which no step changes. -/
structure State where
  /-- The parameters of the build and of the host (R6). -/
  config : Config
  /-- `A`, the accumulator (R22). -/
  a : Word
  /-- `AR`, the address register (R23). -/
  ar : Word
  /-- `x[0]` to `x[255]` (R24). -/
  x : RegFile
  /-- `pc` (R27). -/
  pc : Word
  /-- `E`, the entry point (R29). -/
  entry : Word
  /-- `S`, the text size in bytes (R29). -/
  textSize : Nat
  /-- `N_exec`, a natural number (R35). -/
  nExec : Nat
  /-- `T`, most recent first (R36). -/
  trace : List Word
  /-- `W`, the written register indices, rising (R34). -/
  written : List RegIdx
  /-- The initialisation mark of `A` (R33). -/
  initA : Bool
  /-- The initialisation mark of `AR` (R33). -/
  initAr : Bool
  /-- The initialisation marks of `x[0..255]`, bit `i` for `x[i]` (R33). -/
  initX : BitVec 256
  /-- `OUT`, the bytes handed to the character sink, in order (R21, R212). -/
  out : List Byte
  /-- `status` (R21). -/
  status : Status
  /-- Memory (R50, R52). -/
  mem : Memory
  deriving DecidableEq, Repr

/-- The state construction and reset leave before anything is loaded (70_reset_and_hazards.md R280 step 1,
10_state.md R38): no register written, every mark clear, memory all zero, `W`, `T` and `OUT` empty.
The values of `a`, `ar` and `x` are DESIGN CHOICE, unsafe (log 4), `E` and `S` DEDUCED, unsafe (log 7). -/
def State.construct (c : Config) : State :=
  { config := c, a := 0, ar := 0, x := [], pc := 0, entry := 0, textSize := 0, nExec := 0, trace := [],
    written := [], initA := false, initAr := false, initX := 0, out := [], status := .running, mem := [] }

/-- The machine right after reset (R38): `x[1]` holds `DEFAULT_SP`, which is 0 here (log 5), marked and in
`W`, `pc` is `E`, and everything else is as construction leaves it. It is the launch state of the empty flat
image (R280, R282, log 7) of the machine `Config.reset` (log 2, log 3). -/
def State.reset : State :=
  { State.construct Config.reset with written := [1], initX := 2 }

end Sys2Proof.Machine
end

