-- ==== Sys2Proof/Machine/Sparse.lean ====
section
/-! DEFINITION. Sparse stores in canonical form, which hold memory (20_memory.md R52) and the general
registers (10_state.md R24): keys strictly rising, no entry equal to the zero an unlisted key reads as. -/

namespace Sys2Proof.Machine

/-- The value at a key, zero where none is listed. -/
def Sparse.get {w : Nat} (m : List (Nat × BitVec w)) (k : Nat) : BitVec w :=
  match m with
  | [] => 0
  | (j, v) :: rest => if j = k then v else Sparse.get rest k

/-- The store without a key. -/
def Sparse.erase {w : Nat} (m : List (Nat × BitVec w)) (k : Nat) : List (Nat × BitVec w) :=
  m.filter (fun e => e.1 != k)

/-- The store with an entry put before the first larger key. -/
def Sparse.insert {w : Nat} (m : List (Nat × BitVec w)) (k : Nat) (v : BitVec w) : List (Nat × BitVec w) :=
  match m with
  | [] => [(k, v)]
  | (j, u) :: rest => if k < j then (k, v) :: (j, u) :: rest else (j, u) :: Sparse.insert rest k v

/-- The store with a new value at a key. Writing zero removes the entry. -/
def Sparse.set {w : Nat} (m : List (Nat × BitVec w)) (k : Nat) (v : BitVec w) : List (Nat × BitVec w) :=
  if v = 0 then Sparse.erase m k else Sparse.insert (Sparse.erase m k) k v

/-- Keys strictly rising. -/
def Sparse.rising {w : Nat} (m : List (Nat × BitVec w)) : Bool :=
  match m with
  | [] => true
  | (j, _) :: rest => rest.all (fun e => decide (j < e.1)) && Sparse.rising rest

/-- The canonical form. -/
def Sparse.wf {w : Nat} (m : List (Nat × BitVec w)) : Bool :=
  Sparse.rising m && m.all (fun e => e.2 != 0)

/-- Memory's canonical form: addresses strictly rising and no listed byte 0. -/
def Memory.wf (m : Memory) : Bool := Sparse.wf m

/-- `mem[a]`, total: a byte never written reads 0 (R52). -/
def Memory.byte (m : Memory) (a : Nat) : Byte := Sparse.get m a

/-- `mem[a] <- b` (R54). -/
def Memory.setByte (m : Memory) (a : Nat) (b : Byte) : Memory := Sparse.set m a b

/-- A set of register indices with one more, unchanged where it is already there (R34, R141). -/
def addIndex (i : RegIdx) (w : List RegIdx) : List RegIdx :=
  if w.contains i then w else insertIndex i w
where
  /-- The list with an index put before the first larger one. -/
  insertIndex (i : RegIdx) : List RegIdx → List RegIdx
    | [] => [i]
    | j :: rest => if i.toNat < j.toNat then i :: j :: rest else j :: insertIndex i rest

/-- Indices strictly rising: the canonical form of a set. -/
def risingIndices (w : List RegIdx) : Bool :=
  match w with
  | [] => true
  | j :: rest => rest.all (fun i => decide (j.toNat < i.toNat)) && risingIndices rest

end Sys2Proof.Machine
end

