-- ==== Sys2Proof/Machine/Ops.lean ====
section
/-! DEFINITION. The named operations every meaning is written with: checked reads and writes
(40_execution_model.md R103, R104), memory (20_memory.md R53, R54), the program counter and the fetch window
(10_state.md R27, R30), the ends of a run (R253), and the parts of the cycle (48_run_loop.md R231 to R234). -/

namespace Sys2Proof.Machine

/-- What a meaning and a step answer. -/
abbrev Answer := Host.Outcome State Fault Refusal

/-- The initialisation mark of a location (R33). -/
def State.initialised (s : State) (l : Loc) : Bool :=
  match l with
  | .a => s.initA
  | .ar => s.initAr
  | .x i => s.initX.getLsbD i.toNat

/-- The word a location holds, of `XLEN` bits (R22, R23, R24). -/
def State.stored (s : State) (l : Loc) : Word :=
  match l with
  | .a => wrap s.config.xlen s.a
  | .ar => wrap s.config.xlen s.ar
  | .x i => wrap s.config.xlen (Sparse.get s.x i.toNat)

/-- The checked read (R103). -/
def State.read (s : State) (l : Loc) : Except Error Word :=
  if s.initialised l then .ok (s.stored l)
  else
    match s.config.uninit with
    | .fault => .error (.uninitialisedRead l)
    | .zero => .ok 0

/-- `A <- v` (R104). -/
def State.writeA (s : State) (v : Word) : State :=
  { s with a := wrap s.config.xlen v, initA := true }

/-- `AR <- v` (R104). -/
def State.writeAr (s : State) (v : Word) : State :=
  { s with ar := wrap s.config.xlen v, initAr := true }

/-- `x[i] <- v`, which also marks and enters `W` (R34, R104). -/
def State.writeX (s : State) (i : RegIdx) (v : Word) : State :=
  { s with
    x := Sparse.set s.x i.toNat (wrap s.config.xlen v),
    initX := s.initX ||| (1#256 <<< i.toNat),
    written := addIndex i s.written }

/-- `pc <- target` modulo `2^XLEN` (R27). -/
def State.setPc (s : State) (target : Word) : State :=
  { s with pc := wrap s.config.xlen target }

/-- The end of the run with a result (R236): nothing else changes. -/
def State.halt (s : State) (r : RunResult) : State :=
  { s with status := .halted r }

/-- Taking a fatal error, the one operation for all of them (R253): the run halts, nothing is saved or
written, no handler exists, `pc` stays at the instruction. There is no return from it (R254). -/
def State.raise (s : State) (e : Error) : Answer :=
  .next (s.halt (.error e))

/-- A checked read in pseudocode, `v <- read(loc)`: the instruction goes on with the value or raises the
error (R103, R102). -/
def State.withRead (s : State) (l : Loc) (k : Word → Answer) : Answer :=
  match s.read l with
  | .ok v => k v
  | .error e => s.raise e

/-- The default advance, `pc <- pc + 2`, `Continue` (R105). -/
def State.advance (s : State) : Answer :=
  .next (s.setPc (s.pc + 2))

/-- The value of a source operand: a checked read of a register, or the immediate (R73, R103). -/
def State.withSource (s : State) (op : Operand) (k : Word → Answer) : Answer :=
  match op with
  | .register i => s.withRead (.x i) k
  | .immediate v => k v
  | .none => k 0

/-- `A <- f(a, b)` for the accumulator and a source operand, read in that order, then the default advance
(R121 to R133). -/
def State.accumulate (s : State) (f : Word → Word → Word) (op : Operand) : Answer :=
  s.withRead .a fun a => s.withSource op fun b => (s.writeA (f a b)).advance

/-- `A <- b` for a source operand, then the default advance (R126, R127). -/
def State.loadA (s : State) (op : Operand) : Answer :=
  s.withSource op fun b => (s.writeA b).advance

/-- `LoadH(k)` (41_alu.md section 6), then the default advance. -/
def State.loadHigh (s : State) (k : Nat) (op : Operand) : Answer :=
  s.accumulate (fun a fill => loadLane s.config.xlen k fill a) op

/-- `pc <- pc + disp`, `Continue` (R171). -/
def State.branch (s : State) (op : Operand) : Answer :=
  .next (s.setPc (s.pc + op.value))

/-- A conditional branch on `A`: taken, or the default advance (R172 to R175). -/
def State.branchIf (s : State) (cond : Word → Bool) (op : Operand) : Answer :=
  s.withRead .a fun a => if cond a then s.branch op else s.advance

/-- The address `wrap(u(addr) + i)` of byte `i` of an access (R51, R53). -/
def byteAddress (x : Xlen) (addr : Word) (i : Nat) : Nat :=
  (wrap x (addr + BitVec.ofNat 64 i)).toNat

/-- `MemRead(addr, n)`: the little-endian unsigned value of `n` bytes (R53). -/
def State.memRead (s : State) (addr : Word) : Nat → Nat
  | 0 => 0
  | n + 1 => s.memRead addr n + (Memory.byte s.mem (byteAddress s.config.xlen addr n)).toNat * 2 ^ (8 * n)

/-- The memory after `MemWrite(addr, n, v)`, byte by byte from the low one (R54). -/
def storeBytes (x : Xlen) (m : Memory) (addr v : Word) : Nat → Memory
  | 0 => m
  | n + 1 => Memory.setByte (storeBytes x m addr v n) (byteAddress x addr n) (v.extractLsb' (8 * n) 8)

/-- `MemWrite(addr, n, v)` (R54). -/
def State.memWrite (s : State) (addr : Word) (n : Nat) (v : Word) : State :=
  { s with mem := storeBytes s.config.xlen s.mem addr v n }

/-- `emit(b)`: the byte is appended to `OUT` (R21, R212). -/
def State.emit (s : State) (b : Byte) : State :=
  { s with out := s.out ++ [b] }

/-- `InJalWindow(a)`, on mathematical integers, always inclusive (R30). -/
def State.inJalWindow (s : State) (a : Word) : Bool :=
  decide (s.entry.toNat ≤ a.toNat) && decide (a.toNat ≤ s.entry.toNat + s.textSize)

/-- `InFetchWindow(a)` (R30). -/
def State.inFetchWindow (s : State) (a : Word) : Bool :=
  match s.config.windowUpper with
  | .inclusive => decide (s.entry.toNat ≤ a.toNat) && decide (a.toNat ≤ s.entry.toNat + s.textSize)
  | .exclusive => decide (s.entry.toNat ≤ a.toNat) && decide (a.toNat < s.entry.toNat + s.textSize)

/-- Fetch, `MemRead(pc, 2)` (R231). -/
def State.fetch (s : State) : InstrWord :=
  BitVec.ofNat 16 (s.memRead s.pc instrBytes)

/-- Trace, `T <- first_100([pc] ++ T)` (R232). -/
def State.recordFetch (s : State) : State :=
  { s with trace := (s.pc :: s.trace).take traceDepth }

/-- Count, `N_exec <- N_exec + 1` (R234). -/
def State.count (s : State) : State :=
  { s with nExec := s.nExec + 1 }

/-- The cycle before decoding, in a state whose `pc` is in the window: trace, then count (R232, R234). -/
def State.beginCycle (s : State) : State := s.recordFetch.count

/-- The state with a window that holds `pc`: the same state where it already is in the window, else one
whose text region is the instruction at `pc` (log 8). -/
def State.openWindow (s : State) : State :=
  if s.inFetchWindow s.pc then s else { s with entry := s.pc, textSize := instrBytes }

end Sys2Proof.Machine
end

