-- ==== Sys2Proof/Machine/Alu.lean ====
section
/-! DEFINITION. The meanings of 41_alu.md but for the byte lanes: `nop`, add and subtract, the shift, the
loads into `A`, logic, and `store`. -/

namespace Sys2Proof.Machine

/-- `nop` (R120). -/
def execNop (s : State) : Answer := s.advance

/-- `add rN` (R121). -/
def execAdd (r : RegIdx) (s : State) : Answer :=
  s.accumulate (fun a b => a + b) (operandOf s.config (.add r))

/-- `addi I` (R122). -/
def execAddi (imm : Byte) (s : State) : Answer :=
  s.accumulate (fun a b => a + b) (operandOf s.config (.addi imm))

/-- `sub rN` (R123). -/
def execSub (r : RegIdx) (s : State) : Answer :=
  s.accumulate (fun a b => a - b) (operandOf s.config (.sub r))

/-- `subi I` (R124). -/
def execSubi (imm : Byte) (s : State) : Answer :=
  s.accumulate (fun a b => a - b) (operandOf s.config (.subi imm))

/-- `sra`, by `SRA_MODE` (R125, C3). -/
def execSra (s : State) : Answer :=
  s.withRead .a fun a =>
    match s.config.sraMode with
    | .logical => (s.writeA (shiftRightLogical s.config.xlen a)).advance
    | .arithmetic => (s.writeA (shiftRightArithmetic s.config.xlen a)).advance

/-- `load rN` (R126): `A` is not read. -/
def execLoad (r : RegIdx) (s : State) : Answer :=
  s.loadA (operandOf s.config (.load r))

/-- `loadi I` (R127). -/
def execLoadi (imm : Byte) (s : State) : Answer :=
  s.loadA (operandOf s.config (.loadi imm))

/-- `and rN` (R128). -/
def execAnd (r : RegIdx) (s : State) : Answer :=
  s.accumulate (fun a b => a &&& b) (operandOf s.config (.and r))

/-- `andi I` (R129). -/
def execAndi (imm : Byte) (s : State) : Answer :=
  s.accumulate (fun a b => a &&& b) (operandOf s.config (.andi imm))

/-- `or rN` (R130). -/
def execOr (r : RegIdx) (s : State) : Answer :=
  s.accumulate (fun a b => a ||| b) (operandOf s.config (.or r))

/-- `ori I` (R131). -/
def execOri (imm : Byte) (s : State) : Answer :=
  s.accumulate (fun a b => a ||| b) (operandOf s.config (.ori imm))

/-- `xor rN` (R132). -/
def execXor (r : RegIdx) (s : State) : Answer :=
  s.accumulate (fun a b => a ^^^ b) (operandOf s.config (.xor r))

/-- `xori I` (R133). -/
def execXori (imm : Byte) (s : State) : Answer :=
  s.accumulate (fun a b => a ^^^ b) (operandOf s.config (.xori imm))

/-- `store rN` (R141). -/
def execStore (r : RegIdx) (s : State) : Answer :=
  s.withRead .a fun a => (s.writeX r a).advance

end Sys2Proof.Machine
end

