-- ==== Sys2Proof/Machine/Flags.lean ====
section
/-! DEFINITION. The block has no flag register, condition codes or carry (10_state.md R31, 41_alu.md R142):
no instruction writes a flag. What stands in their place is here: the tests of `A` that the conditional
branches make (42_control.md R172 to R175). -/

namespace Sys2Proof.Machine

/-- The condition of `brz`, `a = 0` (R172). -/
def isZero (x : Xlen) (v : Word) : Bool := wrap x v == 0

/-- The condition of `brnz`, `a != 0` (R173). -/
def isNonZero (x : Xlen) (v : Word) : Bool := wrap x v != 0

/-- The condition of `brp`, `s(a) >= 0`, which includes zero (R174). -/
def isNonNegative (x : Xlen) (v : Word) : Bool := decide (0 ≤ signed x v)

/-- The condition of `brn`, `s(a) < 0` (R175). -/
def isNegative (x : Xlen) (v : Word) : Bool := decide (signed x v < 0)

end Sys2Proof.Machine
end

