-- ==== Sys2Proof/Machine/Control.lean ====
section
/-! DEFINITION. The meanings of 42_control.md: `jal` and the five branches. -/

namespace Sys2Proof.Machine

/-- `jal rN` (R170): the window check, then the odd-target check, then the writes, then the end of the run
if `EXIT_ON_JAL_R0` asks for it. -/
def execJal (r : RegIdx) (s : State) : Answer :=
  s.withRead .a fun t =>
    if !s.inJalWindow t then s.raise (.outOfBoundsJump t)
    else if t.getLsbD 0 && s.config.jalOdd == .fault then s.raise (.misalignedJump t)
    else if s.config.exitOnJalR0 && r == 0 then
      .next (((s.writeX r (s.pc + 2)).setPc t).halt .returnToCaller)
    else .next ((s.writeX r (s.pc + 2)).setPc t)

/-- `br D` (R171). -/
def execBr (off : BitVec 12) (s : State) : Answer :=
  s.branch (operandOf s.config (.br off))

/-- `brz D` (R172). -/
def execBrz (off : BitVec 12) (s : State) : Answer :=
  s.branchIf (isZero s.config.xlen) (operandOf s.config (.brz off))

/-- `brnz D` (R173). -/
def execBrnz (off : BitVec 12) (s : State) : Answer :=
  s.branchIf (isNonZero s.config.xlen) (operandOf s.config (.brnz off))

/-- `brp D` (R174). -/
def execBrp (off : BitVec 12) (s : State) : Answer :=
  s.branchIf (isNonNegative s.config.xlen) (operandOf s.config (.brp off))

/-- `brn D` (R175). -/
def execBrn (off : BitVec 12) (s : State) : Answer :=
  s.branchIf (isNegative s.config.xlen) (operandOf s.config (.brn off))

end Sys2Proof.Machine
end

