-- ==== Sys2Proof/Machine/Lanes.lean ====
section
/-! DEFINITION. The meanings of the byte-lane loads, `LoadH(k)` (41_alu.md section 6, R134 to R140). The
lanes 4 to 7 exist only when `XLEN = 64`: the decoder gives them in no other build (R78, log 16). -/

namespace Sys2Proof.Machine

/-- `loadh I`, lane 1 (R134). -/
def execLoadh (imm : Byte) (s : State) : Answer :=
  s.loadHigh 1 (operandOf s.config (.loadh imm))

/-- `loadh2 I`, lane 2 (R135). -/
def execLoadh2 (imm : Byte) (s : State) : Answer :=
  s.loadHigh 2 (operandOf s.config (.loadh2 imm))

/-- `loadh3 I`, lane 3 (R136). -/
def execLoadh3 (imm : Byte) (s : State) : Answer :=
  s.loadHigh 3 (operandOf s.config (.loadh3 imm))

/-- `loadh4 I`, lane 4 (R137). -/
def execLoadh4 (imm : Byte) (s : State) : Answer :=
  s.loadHigh 4 (operandOf s.config (.loadh4 imm))

/-- `loadh5 I`, lane 5 (R138). -/
def execLoadh5 (imm : Byte) (s : State) : Answer :=
  s.loadHigh 5 (operandOf s.config (.loadh5 imm))

/-- `loadh6 I`, lane 6 (R139). -/
def execLoadh6 (imm : Byte) (s : State) : Answer :=
  s.loadHigh 6 (operandOf s.config (.loadh6 imm))

/-- `loadh7 I`, lane 7 (R140). -/
def execLoadh7 (imm : Byte) (s : State) : Answer :=
  s.loadHigh 7 (operandOf s.config (.loadh7 imm))

end Sys2Proof.Machine
end

