-- ==== Sys2Proof/Machine/LoadStore.lean ====
section
/-! DEFINITION. The meanings of 43_loadstore.md: the address register and the indirect loads and stores. -/

namespace Sys2Proof.Machine

/-- `ldaddr rN` (R190), the only writer of `AR`. -/
def execLdaddr (r : RegIdx) (s : State) : Answer :=
  s.withRead (.x r) fun b => (s.writeAr b).advance

/-- `ldind I` (R191). -/
def execLdind (imm : Byte) (s : State) : Answer :=
  s.withRead .ar fun base =>
    (s.writeA (widenIndirect s.config
      (s.memRead (effectiveAddress s.config.xlen base (operandOf s.config (.ldind imm)).value)
        (indirectBytes s.config)))).advance

/-- `ldindbu I` (R192). -/
def execLdindbu (imm : Byte) (s : State) : Answer :=
  s.withRead .ar fun base =>
    (s.writeA (BitVec.ofNat 64
      (s.memRead (effectiveAddress s.config.xlen base (operandOf s.config (.ldindbu imm)).value) 1))).advance

/-- `stind I` (R193). -/
def execStind (imm : Byte) (s : State) : Answer :=
  s.withRead .a fun a => s.withRead .ar fun base =>
    (s.memWrite (effectiveAddress s.config.xlen base (operandOf s.config (.stind imm)).value)
      (indirectBytes s.config) a).advance

/-- `stindb I` (R194). -/
def execStindb (imm : Byte) (s : State) : Answer :=
  s.withRead .a fun a => s.withRead .ar fun base =>
    (s.memWrite (effectiveAddress s.config.xlen base (operandOf s.config (.stindb imm)).value) 1 a).advance

end Sys2Proof.Machine
end

