-- ==== Sys2Proof/Machine/System.lean ====
section
/-! DEFINITION. The meanings of 44_system.md: `scall`, the unimplemented `in` and `out`, and what
executing an undecodable opcode byte does. -/

namespace Sys2Proof.Machine

/-- The register `scall 1` writes (R210, R26). -/
def counterRegister : RegIdx := 4

/-- `scall I`, by its subfunction (R210, R211, R212). -/
def execScall (imm : Byte) (s : State) : Answer :=
  if imm = 0 then .next (s.halt .systemCall)
  else if imm = 1 then (s.writeX counterRegister (BitVec.ofNat 64 s.nExec)).advance
  else if imm = 2 then s.withRead .a fun a => (s.emit (a.extractLsb' 0 8)).advance
  else
    match s.config.scallOther with
    | .fault => s.raise (.unknownSyscall imm)
    | .nop => s.advance

/-- `out` (R213): fatal, and nothing is read or written. -/
def execOutPort (s : State) : Answer := s.raise (.unimplemented .outPort)

/-- `in` (R214): fatal, and nothing is read or written. -/
def execInPort (s : State) : Answer := s.raise (.unimplemented .inPort)

/-- Executing an opcode byte that decodes to `unknown` (R215). -/
def execUnknown (op : Byte) (s : State) : Answer := s.raise (.decodeError op)

end Sys2Proof.Machine
end

