-- ==== Sys2Proof/Machine/Dispatch.lean ====
section
/-! DEFINITION. One arm per instruction, each one direct call of its meaning (40_execution_model.md R100). -/

namespace Sys2Proof.Machine

/-- `execute` (R100) of a decoded instruction. -/
def exec (i : Instr) (s : State) : Host.Outcome State Fault Refusal :=
  match i with
  | .nop => Sys2Proof.Machine.execNop s
  | .inPort => Sys2Proof.Machine.execInPort s
  | .add r => Sys2Proof.Machine.execAdd r s
  | .addi imm => Sys2Proof.Machine.execAddi imm s
  | .sub r => Sys2Proof.Machine.execSub r s
  | .subi imm => Sys2Proof.Machine.execSubi imm s
  | .sra => Sys2Proof.Machine.execSra s
  | .load r => Sys2Proof.Machine.execLoad r s
  | .loadi imm => Sys2Proof.Machine.execLoadi imm s
  | .and r => Sys2Proof.Machine.execAnd r s
  | .andi imm => Sys2Proof.Machine.execAndi imm s
  | .or r => Sys2Proof.Machine.execOr r s
  | .ori imm => Sys2Proof.Machine.execOri imm s
  | .xor r => Sys2Proof.Machine.execXor r s
  | .xori imm => Sys2Proof.Machine.execXori imm s
  | .loadh imm => Sys2Proof.Machine.execLoadh imm s
  | .loadh2 imm => Sys2Proof.Machine.execLoadh2 imm s
  | .loadh3 imm => Sys2Proof.Machine.execLoadh3 imm s
  | .loadh4 imm => Sys2Proof.Machine.execLoadh4 imm s
  | .loadh5 imm => Sys2Proof.Machine.execLoadh5 imm s
  | .loadh6 imm => Sys2Proof.Machine.execLoadh6 imm s
  | .loadh7 imm => Sys2Proof.Machine.execLoadh7 imm s
  | .store r => Sys2Proof.Machine.execStore r s
  | .outPort => Sys2Proof.Machine.execOutPort s
  | .jal r => Sys2Proof.Machine.execJal r s
  | .ldaddr r => Sys2Proof.Machine.execLdaddr r s
  | .ldind imm => Sys2Proof.Machine.execLdind imm s
  | .ldindbu imm => Sys2Proof.Machine.execLdindbu imm s
  | .stind imm => Sys2Proof.Machine.execStind imm s
  | .stindb imm => Sys2Proof.Machine.execStindb imm s
  | .br off => Sys2Proof.Machine.execBr off s
  | .brz off => Sys2Proof.Machine.execBrz off s
  | .brnz off => Sys2Proof.Machine.execBrnz off s
  | .brp off => Sys2Proof.Machine.execBrp off s
  | .brn off => Sys2Proof.Machine.execBrn off s
  | .scall imm => Sys2Proof.Machine.execScall imm s

end Sys2Proof.Machine
end

