-- ==== Sys2Proof/Machine/Step.lean ====
section
/-! DEFINITION. One cycle of the run loop (48_run_loop.md R236), and the state whose next step runs a given
instruction word. -/

namespace Sys2Proof.Machine

/-- `step` (R236). A halted state has none (R237). -/
def step (s : State) : Host.Outcome State Fault Refusal :=
  match s.status with
  | .halted r => .fault (.halted r)
  | .running =>
    if s.inFetchWindow s.pc then
      match decodeWord s.config s.fetch with
      | .ok i => exec i s.beginCycle
      | .error _ => execUnknown (opcodeOf s.fetch) s.beginCycle
    else .next (s.recordFetch.halt .outOfBounds)

/-- The state whose next step fetches and runs the instruction whose bits are `w`: its two bytes at `pc`,
low byte first (R55), a window that holds `pc`, and a run that goes on. It stands for the load of a program
(log 8). -/
def State.withFetchWord (s : State) (nbits w : Nat) : State :=
  { (s.memWrite s.pc instrBytes (BitVec.ofNat 64 (w % 2 ^ nbits))).openWindow with status := .running }

end Sys2Proof.Machine
end

