-- ==== Sys2Proof/Machine/Launch.lean ====
section
/-! DEFINITION. What the host does to the block around a run (70_reset_and_hazards.md R280 to R289): loading an
image, the argument vector, the initial registers, the order of a launch, the optional reset, inspection. -/

namespace Sys2Proof.Machine

/-- Bytes placed at consecutive addresses, in order, without reordering (R55, R282). DESIGN CHOICE, unsafe: of more
than `2^XLEN` bytes, those past the last address go on at the first, and the later byte stays (log 28). -/
def placeBytes (x : Xlen) (m : Memory) (addr : Word) : List Byte → Memory
  | [] => m
  | b :: rest => placeBytes x (Memory.setByte m (byteAddress x addr 0) b) (addr + 1) rest

/-- Loading a flat image (R282): at address 0, `E = 0`, `S` its length. A missing or unreadable image, or one
of odd length, is `InputFileError` (R251). An image of more than `2^XLEN` bytes is loaded by wrapping: DESIGN CHOICE,
unsafe (log 28). -/
def State.loadFlat (s : State) (image : Option (List Byte)) : Answer :=
  match image with
  | none => .fault .inputFileError
  | some bytes =>
    if bytes.length % 2 = 1 then .fault .inputFileError
    else .next { s with mem := placeBytes s.config.xlen s.mem 0 bytes, entry := 0, textSize := bytes.length }

/-- One section as the ELF collaborator yields it (R283). -/
structure ElfRegion where
  address : Word
  bytes : List Byte
  deriving DecidableEq, Repr

/-- What the ELF collaborator yields: entry point, size of `.text`, and regions (R283). -/
structure ElfImage where
  entry : Word
  textSize : Nat
  regions : List ElfRegion
  deriving DecidableEq, Repr

/-- The regions that are placed: a section whose address is 0 is not (R283). -/
def ElfImage.placed (x : Xlen) (img : ElfImage) : List ElfRegion :=
  img.regions.filter (fun r => wrap x r.address != 0)

/-- The addresses of a region's bytes. -/
def ElfRegion.addresses (x : Xlen) (r : ElfRegion) : List Nat :=
  (List.range r.bytes.length).map (byteAddress x r.address)

/-- No address belongs to two placed bytes (R283, R285, log 17). -/
def ElfImage.disjoint (x : Xlen) (img : ElfImage) : Bool :=
  decide ((img.placed x).flatMap (ElfRegion.addresses x)).Nodup

/-- The placed regions in memory (R283). -/
def placeRegions (x : Xlen) (m : Memory) : List ElfRegion → Memory
  | [] => m
  | r :: rest => placeRegions x (placeBytes x m r.address r.bytes) rest

/-- Loading an ELF image (R283). A missing or unreadable image is `InputFileError` (R251). Overlapping
regions and an odd entry point have no meaning and are refused (R283, R285, D30). -/
def State.loadElf (s : State) (image : Option ElfImage) : Answer :=
  match image with
  | none => .fault .inputFileError
  | some img =>
    if !img.disjoint s.config.xlen then .refused .overlappingRegions
    else if img.entry.getLsbD 0 then .refused .oddEntryPoint
    else .next { s with
      mem := placeRegions s.config.xlen s.mem (img.placed s.config.xlen),
      entry := wrap s.config.xlen img.entry,
      textSize := img.textSize }

/-- `x[1] <- DEFAULT_SP` (R280 step 3, C8). -/
def State.setStackPointer (s : State) : State :=
  s.writeX 1 s.config.defaultSp

/-- The argument words, consecutive 4-byte words from an address up (R284). Written in order: of more words than the
address space holds the later ones stay. DESIGN CHOICE, unsafe (log 28). -/
def State.writeArguments (s : State) (addr : Word) : List Int → State
  | [] => s
  | n :: rest => (s.memWrite addr 4 (BitVec.ofInt 64 n)).writeArguments (addr + 4) rest

/-- The argument vector of ELF mode: the words, then `x[4]` the count and `x[5]` the base (R284). -/
def State.setArguments (s : State) (args : List Int) : State :=
  ((s.writeArguments s.config.argvBase args).writeX 4 (BitVec.ofNat 64 args.length)).writeX 5 s.config.argvBase

/-- The host's initial register mapping, entry by entry (R286). -/
def State.applyMapping (s : State) : List (RegIdx × Int) → State
  | [] => s
  | (i, n) :: rest => (s.writeX i (wrapInt s.config.xlen n)).applyMapping rest

/-- `pc <- E`, `status = Running` (R280 step 6, R281). -/
def State.startRun (s : State) : State :=
  { s.setPc s.entry with status := .running }

/-- Steps 3 to 6 of a launch (R280): the stack pointer, the argument vector where there is one, the host's
mapping, the start. -/
def State.finishLaunch (s : State) (args : Option (List Int)) (mapping : List (RegIdx × Int)) : State :=
  match args with
  | none => (s.setStackPointer.applyMapping mapping).startRun
  | some ns => ((s.setStackPointer.setArguments ns).applyMapping mapping).startRun

/-- The launch of a flat binary (R280, R282). -/
def launchFlat (c : Config) (image : Option (List Byte)) (mapping : List (RegIdx × Int)) : Answer :=
  match (State.construct c).loadFlat image with
  | .next s => .next (s.finishLaunch none mapping)
  | .fault r => .fault r
  | .refused r => .refused r

/-- The launch of an ELF image, with or without an argument vector (R280, R283, R284). -/
def launchElf (c : Config) (image : Option ElfImage) (args : Option (List Int))
    (mapping : List (RegIdx × Int)) : Answer :=
  match (State.construct c).loadElf image with
  | .next s => .next (s.finishLaunch args mapping)
  | .fault r => .fault r
  | .refused r => .refused r

/-- The state of R20 and R21 at its reset values, with memory, `E`, `S` and the parameters kept (R287, log 18). -/
def State.clearForReset (s : State) : State :=
  { State.construct s.config with mem := s.mem, entry := s.entry, textSize := s.textSize }

/-- The optional reset, followed by steps 3 to 6 of the launch (R287). -/
def State.optionalReset (s : State) (args : Option (List Int)) (mapping : List (RegIdx × Int)) : State :=
  s.clearForReset.finishLaunch args mapping

/-- What the host sees of the block (R37, R289). -/
structure Inspection where
  registers : List (RegIdx × Word)
  written : List RegIdx
  a : Word
  ar : Word
  pc : Word
  nExec : Nat
  mem : Memory
  trace : List Word
  status : Status
  deriving DecidableEq, Repr

/-- "State inspection surface" (R37, R289): all 256 registers, or only those in `W`. Nothing changes. -/
def State.inspect (s : State) (onlyWritten : Bool) : Inspection :=
  { registers := ((List.range registerCount).map (BitVec.ofNat 8)).filterMap (fun i =>
      if onlyWritten && !s.written.contains i then none else some (i, s.stored (.x i))),
    written := s.written, a := s.stored .a, ar := s.stored .ar, pc := s.pc, nExec := s.nExec,
    mem := s.mem, trace := s.trace, status := s.status }

end Sys2Proof.Machine
end

