-- ==== Sys2Proof/Safety.lean ====
section
/-! DEFINITION. What claims about runs use: the classes of run results (48_run_loop.md R238), the
well-formedness of a state, and safe runs. -/

namespace Sys2Proof.Machine

/-- A result of class fatal (R238, R250). -/
def RunResult.fatal : RunResult → Bool
  | .error _ => true
  | .systemCall => false
  | .outOfBounds => false
  | .returnToCaller => false

/-- The state has not ended with a fatal error (R252). -/
def State.notFatal (s : State) : Bool :=
  match s.status with
  | .running => true
  | .halted r => !r.fatal

/-- A word that fits the build's width (R9). -/
def fits (x : Xlen) (v : Word) : Prop := v.toNat < 2 ^ x.bits

/-- A well-formed state: what every state of a run is. -/
structure State.Wf (s : State) : Prop where
  /-- Memory is canonical (20_memory.md R52). -/
  mem_wf : Memory.wf s.mem = true
  /-- Every listed address is an `XLEN`-bit address (R51). -/
  mem_fits : ∀ e ∈ s.mem, e.1 < 2 ^ s.config.xlen.bits
  /-- The register file is canonical. -/
  x_wf : Sparse.wf s.x = true
  /-- There are 256 registers of `XLEN` bits (R24). -/
  x_fits : ∀ e ∈ s.x, e.1 < registerCount ∧ fits s.config.xlen e.2
  /-- `A` has `XLEN` bits (R22). -/
  a_fits : fits s.config.xlen s.a
  /-- `AR` has `XLEN` bits (R23). -/
  ar_fits : fits s.config.xlen s.ar
  /-- `pc` has `XLEN` bits (R27). -/
  pc_fits : fits s.config.xlen s.pc
  /-- `E` has `XLEN` bits (R29). -/
  entry_fits : fits s.config.xlen s.entry
  /-- `T` holds at most 100 values (R36). -/
  trace_bound : s.trace.length ≤ traceDepth
  /-- `T` holds `XLEN`-bit values (R36). -/
  trace_fits : ∀ v ∈ s.trace, fits s.config.xlen v
  /-- `W` is a set: its list rises (R34). -/
  written_rising : risingIndices s.written = true
  /-- A register is marked exactly when it is in `W`: both are set by every write and cleared only by
  reset (R33, R34, R104). -/
  marks_agree : ∀ i : RegIdx, s.initX.getLsbD i.toNat = s.written.contains i

/-- A run that takes `n` steps from `s` and is not at a fatal error there. -/
def RunsSafely (n : Nat) (s : State) : Prop :=
  ∃ t, Sys2Proof.core.run n s = .next t ∧ t.notFatal = true

end Sys2Proof.Machine
end

