-- ==== Sys2Proof/Certificates/Slice0/Obligations.lean ====
section
/-! DEFINITION. The statements for the provers. Results are said in numbers, bits and bytes, not in the
model's own operations. Each docstring names the rule of spec/ it formalises. Every opcode byte is R78's default
map, the spec's rule, which the spec itself takes from general knowledge (log 9). A rule that the spec marks as
derived or that rests on a log entry is said to in its docstring. -/

namespace Sys2Proof.Claims

open Sys2Proof Sys2Proof.Machine

/-! ## Vocabulary of the statements -/

/-- `2^XLEN` (R9). -/
def modulus (s : State) : Int := 2 ^ s.config.xlen.bits

/-- The two's-complement reading `s(v)` of an `XLEN`-bit word, in numbers (R9). -/
def sval (x : Xlen) (v : Word) : Int :=
  if v.toNat < 2 ^ (x.bits - 1) then (v.toNat : Int) else (v.toNat : Int) - 2 ^ x.bits

/-- An instruction answers a next state, and that state is as `P` says. -/
def Completes (o : Answer) (P : State → Prop) : Prop := ∃ t, o = .next t ∧ P t

/-- Instructions one after the other, each without the run loop's cycle. -/
def execAll : List Instr → State → Answer
  | [], s => .next s
  | i :: rest, s =>
    match exec i s with
    | .next t => execAll rest t
    | .fault r => .fault r
    | .refused r => .refused r

/-- The location was never written, and the policy is `fault` (R103). -/
def Unwritten (s : State) (l : Loc) : Prop := s.initialised l = false ∧ s.config.uninit = .fault

/-- The instruction ends the run with a fatal error and changes nothing else (R102, R253). -/
def EndsWith (i : Instr) (s : State) (e : Error) : Prop :=
  exec i s = .next { s with status := .halted (.error e) }

/-- A word of the default map decodes to an instruction, in every build that has it (R78, log 9). -/
def DecodesTo (w : InstrWord) (i : Instr) : Prop :=
  ∀ x : Xlen, i.wellFormed (Config.specDefault x) = true → decodeWord (Config.specDefault x) w = .ok i

/-- The parameters, `E`, `S`, `N_exec` and `T` are as before: no instruction writes them. -/
def CycleSame (s t : State) : Prop :=
  t.config = s.config ∧ t.entry = s.entry ∧ t.textSize = s.textSize ∧ t.nExec = s.nExec ∧ t.trace = s.trace

/-- `A` and its mark are as before. -/
def ASame (s t : State) : Prop := t.a = s.a ∧ t.initA = s.initA

/-- `AR` and its mark are as before. -/
def ArSame (s t : State) : Prop := t.ar = s.ar ∧ t.initAr = s.initAr

/-- Register `i`, its mark and its place in `W` are as before. -/
def RegSame (s t : State) (i : RegIdx) : Prop :=
  Sparse.get t.x i.toNat = Sparse.get s.x i.toNat ∧ t.initialised (.x i) = s.initialised (.x i)
    ∧ (i ∈ t.written ↔ i ∈ s.written)

/-- Every byte of memory reads as before. -/
def MemSame (s t : State) : Prop := ∀ addr, Memory.byte t.mem addr = Memory.byte s.mem addr

/-- `pc` is the address of the next instruction (R105). -/
def Advanced (s t : State) : Prop := (t.pc.toNat : Int) = (s.pc.toNat + 2) % modulus s

/-- Everything but `A` and `pc` is as before. -/
def AllButA (s t : State) : Prop :=
  CycleSame s t ∧ ArSame s t ∧ (∀ i, RegSame s t i) ∧ MemSame s t ∧ t.out = s.out ∧ t.status = s.status

/-- Everything but `pc` is as before. -/
def AllButPc (s t : State) : Prop := ASame s t ∧ AllButA s t

/-- Everything but `pc` and one register, its mark and its place in `W`, is as before. -/
def AllButX (r : RegIdx) (s t : State) : Prop :=
  CycleSame s t ∧ ASame s t ∧ ArSame s t ∧ (∀ i, i ≠ r → RegSame s t i) ∧ MemSame s t ∧ t.out = s.out
    ∧ t.status = s.status

/-- Everything but `pc` and memory is as before. -/
def AllButMem (s t : State) : Prop :=
  CycleSame s t ∧ ASame s t ∧ ArSame s t ∧ (∀ i, RegSame s t i) ∧ t.out = s.out ∧ t.status = s.status

/-- Register `r` holds the value `n`, is marked, and is in `W` (R104). -/
def Holds (t : State) (r : RegIdx) (n : Int) : Prop :=
  ((Sparse.get t.x r.toNat).toNat : Int) = n ∧ t.initialised (.x r) = true ∧ r ∈ t.written

/-- The whole rule of an accumulator instruction with a register operand (R121, R123, R128, R130, R132):
its word, its result, its frame and its errors. `res s a b v` says that `v` is the result. -/
def RegisterRule (op : Byte) (mk : RegIdx → Instr) (res : State → Word → Word → Word → Prop) : Prop :=
  ∀ r : RegIdx, DecodesTo (op ++ r) (mk r) ∧ ∀ s : State,
    (∀ a b, s.read .a = .ok a → s.read (.x r) = .ok b →
      Completes (exec (mk r) s) fun t => res s a b t.a ∧ t.initA = true ∧ Advanced s t ∧ AllButA s t) ∧
    (Unwritten s .a → EndsWith (mk r) s (.uninitialisedRead .a)) ∧
    (∀ a, s.read .a = .ok a → Unwritten s (.x r) → EndsWith (mk r) s (.uninitialisedRead (.x r)))

/-- The whole rule of an accumulator instruction with an immediate operand, in the states of the builds that have
it. -/
def ImmediateRuleIn (built : State → Prop) (op : Byte) (mk : Byte → Instr)
    (res : State → Word → Byte → Word → Prop) : Prop :=
  ∀ imm : Byte, DecodesTo (op ++ imm) (mk imm) ∧ ∀ s : State, built s →
    (∀ a, s.read .a = .ok a →
      Completes (exec (mk imm) s) fun t => res s a imm t.a ∧ t.initA = true ∧ Advanced s t ∧ AllButA s t) ∧
    (Unwritten s .a → EndsWith (mk imm) s (.uninitialisedRead .a))

/-- The rule of an immediate instruction that both builds have (R122, R124, R129, R131, R133 to R136). -/
def ImmediateRule (op : Byte) (mk : Byte → Instr) (res : State → Word → Byte → Word → Prop) : Prop :=
  ImmediateRuleIn (fun _ => True) op mk res

/-- The rule of an immediate instruction that only the 64-bit build has (R137 to R140). -/
def WideImmediateRule (op : Byte) (mk : Byte → Instr) (res : State → Word → Byte → Word → Prop) : Prop :=
  ImmediateRuleIn (fun s => s.config.xlen = .x64) op mk res

/-- The result of `LoadH(k)` bit by bit (41_alu.md section 6): the lanes below `k` kept, lane `k` the immediate,
above it bit 7 of the immediate or 0, and nothing above the width. -/
def LaneResult (k : Nat) (s : State) (a : Word) (imm : Byte) (v : Word) : Prop :=
  ∀ i : Nat, v.getLsbD i =
    if s.config.xlen.bits ≤ i then false
    else if i < 8 * k then a.getLsbD i
    else if i < 8 * k + 8 then imm.getLsbD (i - 8 * k)
    else (decide (s.config.loadhFill = .sign) && imm.getLsbD 7)

/-- The whole rule of a conditional branch (R172 to R175). -/
def BranchRule (sel : BitVec 4) (mk : BitVec 12 → Instr) (cond : State → Word → Prop) : Prop :=
  ∀ off : BitVec 12, DecodesTo (sel ++ off) (mk off) ∧ ∀ s : State,
    (∀ a, s.read .a = .ok a → cond s a →
      Completes (exec (mk off) s) fun t =>
        (t.pc.toNat : Int) = (s.pc.toNat + 2 * off.toInt) % modulus s ∧ AllButPc s t) ∧
    (∀ a, s.read .a = .ok a → ¬ cond s a →
      Completes (exec (mk off) s) fun t => Advanced s t ∧ AllButPc s t) ∧
    (Unwritten s .a → EndsWith (mk off) s (.uninitialisedRead .a))

/-- The bytes an indirect word access moves (R57). -/
def wordSpan (c : Config) : Nat := if c.xlen = .x64 ∧ c.indWord = .eight then 8 else 4

/-- The checked reads of an instruction in the order of its pseudocode (R22, R23, R25). -/
def readsOf : Instr → List Loc
  | .nop | .inPort | .outPort | .loadi _ | .br _ => []
  | .add r | .sub r | .and r | .or r | .xor r => [.a, .x r]
  | .addi _ | .subi _ | .sra | .andi _ | .ori _ | .xori _ => [.a]
  | .loadh _ | .loadh2 _ | .loadh3 _ | .loadh4 _ | .loadh5 _ | .loadh6 _ | .loadh7 _ => [.a]
  | .load r | .ldaddr r => [.x r]
  | .store _ | .jal _ | .brz _ | .brnz _ | .brp _ | .brn _ => [.a]
  | .ldind _ | .ldindbu _ => [.ar]
  | .stind _ | .stindb _ => [.a, .ar]
  | .scall imm => if imm = 2 then [.a] else []

/-- What makes an instruction end in an error of a kind, with the value recorded (R250). `DecodeError` has no
instruction: it is the error of an undecodable opcode byte (R215). -/
def CauseOf (i : Instr) (s : State) : Error → Prop
  | .decodeError _ => False
  | .unimplemented .inPort => i = .inPort
  | .unimplemented .outPort => i = .outPort
  | .outOfBoundsJump a => (∃ r, i = .jal r) ∧ s.read .a = .ok a ∧
      (a.toNat < s.entry.toNat ∨ s.entry.toNat + s.textSize < a.toNat)
  | .misalignedJump a => (∃ r, i = .jal r) ∧ s.read .a = .ok a ∧ s.entry.toNat ≤ a.toNat ∧
      a.toNat ≤ s.entry.toNat + s.textSize ∧ a.toNat % 2 = 1 ∧ s.config.jalOdd = .fault
  | .unknownSyscall uimm => i = .scall uimm ∧ 3 ≤ uimm.toNat ∧ s.config.scallOther = .fault
  | .uninitialisedRead l => l ∈ readsOf i ∧ Unwritten s l

/-- The instructions that write `A` (R22). -/
def writesA : Instr → Bool
  | .add _ | .addi _ | .sub _ | .subi _ | .sra | .load _ | .loadi _ | .and _ | .andi _ | .or _ | .ori _
  | .xor _ | .xori _ | .loadh _ | .loadh2 _ | .loadh3 _ | .loadh4 _ | .loadh5 _ | .loadh6 _ | .loadh7 _
  | .ldind _ | .ldindbu _ => true
  | .nop | .inPort | .outPort | .store _ | .jal _ | .ldaddr _ | .stind _ | .stindb _ | .br _ | .brz _
  | .brnz _ | .brp _ | .brn _ | .scall _ => false

/-- The register an instruction writes, if any (R25). -/
def writesX : Instr → Option RegIdx
  | .store r | .jal r => some r
  | .scall imm => if imm = 1 then some 4 else none
  | .add _ | .addi _ | .sub _ | .subi _ | .sra | .load _ | .loadi _ | .and _ | .andi _ | .or _ | .ori _
  | .xor _ | .xori _ | .loadh _ | .loadh2 _ | .loadh3 _ | .loadh4 _ | .loadh5 _ | .loadh6 _ | .loadh7 _
  | .ldind _ | .ldindbu _ | .nop | .inPort | .outPort | .ldaddr _ | .stind _ | .stindb _ | .br _ | .brz _
  | .brnz _ | .brp _ | .brn _ => none

/-- The `pc` values of the next `n` cycles, most recent first. -/
def fetches : Nat → State → List Word
  | 0, _ => []
  | n + 1, s =>
    match step s with
    | .next t => fetches n t ++ [s.pc]
    | .fault _ => []
    | .refused _ => []

/-- Two states agree on everything but `W`, `T` and `OUT`. -/
def AgreeButObserved (s t : State) : Prop :=
  t = { s with written := t.written, trace := t.trace, out := t.out }

/-- Two answers agree on everything but `W`, `T` and `OUT`. -/
def AnswersAgree : Answer → Answer → Prop
  | .next s, .next t => AgreeButObserved s t
  | .fault a, .fault b => a = b
  | .refused a, .refused b => a = b
  | .next _, .fault _ => False
  | .next _, .refused _ => False
  | .fault _, .next _ => False
  | .fault _, .refused _ => False
  | .refused _, .next _ => False
  | .refused _, .fault _ => False

/-- The kinds whose `imm8` is ignored (R82). -/
def ignoresImm8 : Instr → Bool
  | .nop | .sra | .inPort | .outPort => true
  | .add _ | .addi _ | .sub _ | .subi _ | .load _ | .loadi _ | .and _ | .andi _ | .or _ | .ori _ | .xor _
  | .xori _ | .loadh _ | .loadh2 _ | .loadh3 _ | .loadh4 _ | .loadh5 _ | .loadh6 _ | .loadh7 _ | .store _
  | .jal _ | .ldaddr _ | .ldind _ | .ldindbu _ | .stind _ | .stindb _ | .br _ | .brz _ | .brnz _ | .brp _
  | .brn _ | .scall _ => false

end Sys2Proof.Claims

open Sys2Proof Sys2Proof.Machine Sys2Proof.Claims

/-! ## Arithmetic, logic and the accumulator -/

/-- R121, with R142's wrap. -/
def Obligations.AddStoresSumModuloWidth : Prop :=
  RegisterRule 0x08 .add fun s a b v => (v.toNat : Int) = (a.toNat + b.toNat) % modulus s

/-- R122. -/
def Obligations.AddiAddsSignedImmediate : Prop :=
  ImmediateRule 0x09 .addi fun s a imm v => (v.toNat : Int) = (a.toNat + imm.toInt) % modulus s

/-- R123. -/
def Obligations.SubStoresDifferenceModuloWidth : Prop :=
  RegisterRule 0x0C .sub fun s a b v => (v.toNat : Int) = (a.toNat - b.toNat) % modulus s

/-- R124. -/
def Obligations.SubiSubtractsSignedImmediate : Prop :=
  ImmediateRule 0x0D .subi fun s a imm v => (v.toNat : Int) = (a.toNat - imm.toInt) % modulus s

/-- R125: under `logical` half the unsigned value, under `arithmetic` half the signed one, rounded down. -/
def Obligations.SraShiftsByOneInBothModes : Prop :=
  (∀ imm : Byte, DecodesTo (0x10#8 ++ imm) .sra) ∧ ∀ s : State,
    (∀ a, s.read .a = .ok a → s.config.sraMode = .logical →
      Completes (exec .sra s) fun t => (t.a.toNat : Int) = a.toNat / 2
        ∧ t.initA = true ∧ Advanced s t ∧ AllButA s t) ∧
    (∀ a, s.read .a = .ok a → s.config.sraMode = .arithmetic →
      Completes (exec .sra s) fun t => (t.a.toNat : Int) = sval s.config.xlen a / 2 % modulus s
        ∧ t.initA = true ∧ Advanced s t ∧ AllButA s t) ∧
    (Unwritten s .a → EndsWith .sra s (.uninitialisedRead .a))

/-- R126. -/
def Obligations.LoadCopiesRegister : Prop :=
  ∀ r : RegIdx, DecodesTo (0x20#8 ++ r) (.load r) ∧ ∀ s : State,
    (∀ b, s.read (.x r) = .ok b →
      Completes (exec (.load r) s) fun t => t.a = b ∧ t.initA = true ∧ Advanced s t ∧ AllButA s t) ∧
    (Unwritten s (.x r) → EndsWith (.load r) s (.uninitialisedRead (.x r)))

/-- R127: no read, so no error. -/
def Obligations.LoadiWritesExtendedImmediate : Prop :=
  ∀ imm : Byte, DecodesTo (0x21#8 ++ imm) (.loadi imm) ∧ ∀ s : State,
    (s.config.loadiExt = .sign →
      Completes (exec (.loadi imm) s) fun t => (t.a.toNat : Int) = imm.toInt % modulus s
        ∧ t.initA = true ∧ Advanced s t ∧ AllButA s t) ∧
    (s.config.loadiExt = .zero →
      Completes (exec (.loadi imm) s) fun t => t.a.toNat = imm.toNat
        ∧ t.initA = true ∧ Advanced s t ∧ AllButA s t)

/-- R128, R130, R132. -/
def Obligations.RegisterLogicIsBitwise : Prop :=
  RegisterRule 0x22 .and (fun _ a b v => ∀ i, v.getLsbD i = (a.getLsbD i && b.getLsbD i)) ∧
  RegisterRule 0x24 .or (fun _ a b v => ∀ i, v.getLsbD i = (a.getLsbD i || b.getLsbD i)) ∧
  RegisterRule 0x26 .xor (fun _ a b v => ∀ i, v.getLsbD i = (a.getLsbD i ^^ b.getLsbD i))

/-- R129, R131, R133: the immediate has no bit above bit 7. -/
def Obligations.ImmediateLogicZeroExtends : Prop :=
  ImmediateRule 0x23 .andi (fun _ a imm v => ∀ i, v.getLsbD i = (a.getLsbD i && imm.getLsbD i)) ∧
  ImmediateRule 0x25 .ori (fun _ a imm v => ∀ i, v.getLsbD i = (a.getLsbD i || imm.getLsbD i)) ∧
  ImmediateRule 0x27 .xori (fun _ a imm v => ∀ i, v.getLsbD i = (a.getLsbD i ^^ imm.getLsbD i))

/-- R134, R135, R136: the lanes of both builds. -/
def Obligations.LowLanesOverwriteFromTheirLaneUp : Prop :=
  ImmediateRule 0x29 .loadh (LaneResult 1) ∧
  ImmediateRule 0x2A .loadh2 (LaneResult 2) ∧
  ImmediateRule 0x2B .loadh3 (LaneResult 3)

/-- R137 to R140: the lanes of the 64-bit build, and the bytes 0x2C to 0x2F `unknown` when `XLEN = 32`. -/
def Obligations.HighLanesOverwriteFromTheirLaneUp : Prop :=
  (WideImmediateRule 0x2C .loadh4 (LaneResult 4) ∧ WideImmediateRule 0x2D .loadh5 (LaneResult 5) ∧
    WideImmediateRule 0x2E .loadh6 (LaneResult 6) ∧ WideImmediateRule 0x2F .loadh7 (LaneResult 7)) ∧
  ∀ op ∈ [0x2C#8, 0x2D#8, 0x2E#8, 0x2F#8], ∀ imm : Byte,
    decodeWord (Config.specDefault .x32) (op ++ imm) = .error (.unknown op)

/-- Derived from R121 to R124. R142's law: "For every word a and every operand value v: (a + v) - v = a", in both
operand forms. -/
def Obligations.AddThenSubRestoresAccumulator : Prop :=
  ∀ (s : State) (a : Word), s.read .a = .ok a →
    (∀ (r : RegIdx) (b : Word), s.read (.x r) = .ok b →
      Completes (execAll [.add r, .sub r] s) fun t => t.a = a) ∧
    (∀ imm : Byte, Completes (execAll [.addi imm, .subi imm] s) fun t => t.a = a)

/-- R143, which the spec derives from R127 and R134 to R140: constants built from bytes, lane by lane, under the
default extensions. -/
def Obligations.ConstantSynthesisByLanes : Prop :=
  ∀ (s : State) (b0 b1 b2 b3 b4 b5 b6 b7 : Byte),
    s.config.loadiExt = .sign → s.config.loadhFill = .sign →
    (s.config.xlen = .x32 →
      Completes (execAll [.loadi b0, .loadh b1, .loadh2 b2, .loadh3 b3] s) fun t =>
        t.a = (b3 ++ b2 ++ b1 ++ b0).setWidth 64) ∧
    (s.config.xlen = .x64 →
      Completes (execAll [.loadi b0, .loadh b1, .loadh2 b2, .loadh3 b3] s) fun t =>
        t.a = (b3 ++ b2 ++ b1 ++ b0).signExtend 64) ∧
    (s.config.xlen = .x64 →
      Completes (execAll [.loadi b0, .loadh b1, .loadh2 b2, .loadh3 b3, .loadh4 b4, .loadh5 b5, .loadh6 b6,
        .loadh7 b7] s) fun t => t.a = b7 ++ b6 ++ b5 ++ b4 ++ b3 ++ b2 ++ b1 ++ b0)

/-- R141. -/
def Obligations.StoreWritesRegisterAndMarks : Prop :=
  ∀ r : RegIdx, DecodesTo (0x30#8 ++ r) (.store r) ∧ ∀ s : State,
    (∀ a, s.read .a = .ok a →
      Completes (exec (.store r) s) fun t => Holds t r a.toNat ∧ (r ∈ s.written → t.written = s.written)
        ∧ Advanced s t ∧ AllButX r s t) ∧
    (Unwritten s .a → EndsWith (.store r) s (.uninitialisedRead .a))

/-- R120. -/
def Obligations.NopOnlyAdvances : Prop :=
  (∀ imm : Byte, DecodesTo (0x00#8 ++ imm) .nop) ∧
  ∀ s : State, Completes (exec .nop s) fun t => Advanced s t ∧ AllButPc s t

/-! ## Control transfer -/

/-- R170: the window check, then the odd-target check, then the link and the jump. -/
def Obligations.JalLinksAndJumpsInWindow : Prop :=
  ∀ r : RegIdx, DecodesTo (0x40#8 ++ r) (.jal r) ∧ ∀ s : State,
    (∀ a, s.read .a = .ok a → s.entry.toNat ≤ a.toNat → a.toNat ≤ s.entry.toNat + s.textSize →
      (a.toNat % 2 = 0 ∨ s.config.jalOdd = .allow) →
      Completes (exec (.jal r) s) fun t => t.pc = a ∧ Holds t r ((s.pc.toNat + 2) % modulus s)
        ∧ CycleSame s t ∧ ASame s t ∧ ArSame s t ∧ (∀ i, i ≠ r → RegSame s t i) ∧ MemSame s t ∧ t.out = s.out
        ∧ t.status = if s.config.exitOnJalR0 = true ∧ r = 0 then .halted .returnToCaller else s.status) ∧
    (∀ a, s.read .a = .ok a → (a.toNat < s.entry.toNat ∨ s.entry.toNat + s.textSize < a.toNat) →
      EndsWith (.jal r) s (.outOfBoundsJump a)) ∧
    (∀ a, s.read .a = .ok a → s.entry.toNat ≤ a.toNat → a.toNat ≤ s.entry.toNat + s.textSize →
      a.toNat % 2 = 1 → s.config.jalOdd = .fault → EndsWith (.jal r) s (.misalignedJump a)) ∧
    (Unwritten s .a → EndsWith (.jal r) s (.uninitialisedRead .a))

/-- R171. -/
def Obligations.BrAddsDisplacement : Prop :=
  ∀ off : BitVec 12, DecodesTo (0x8#4 ++ off) (.br off) ∧ ∀ s : State,
    Completes (exec (.br off) s) fun t =>
      (t.pc.toNat : Int) = (s.pc.toNat + 2 * off.toInt) % modulus s ∧ AllButPc s t

/-- R172, R173. -/
def Obligations.BrzAndBrnzTestForZero : Prop :=
  BranchRule 0x9 .brz (fun _ a => a = 0) ∧ BranchRule 0xA .brnz (fun _ a => a ≠ 0)

/-- R174, R175. -/
def Obligations.BrpAndBrnTestTheSign : Prop :=
  BranchRule 0xB .brp (fun s a => 0 ≤ sval s.config.xlen a) ∧
  BranchRule 0xC .brn (fun s a => sval s.config.xlen a < 0)

/-- R74, which the spec derives from R71 and fixes by D24: the displacement field, both ways: what a field means
(an even number from -4096 to 4094), and that an even displacement in range, encoded as R74 says, is the
displacement executed. -/
def Obligations.BranchDisplacementRoundTrip : Prop :=
  (∀ (c : Config) (off : BitVec 12), -4096 ≤ 2 * off.toInt ∧ 2 * off.toInt ≤ 4094 ∧
    ((operandOf c (.br off)).value.toNat : Int) = (2 * off.toInt) % 2 ^ c.xlen.bits) ∧
  (∀ (d : Int) (s : State), d % 2 = 0 → -4096 ≤ d → d ≤ 4094 →
    Completes (exec (.br (off12OfDisp d)) s) fun t => (t.pc.toNat : Int) = (s.pc.toNat + d) % modulus s)

/-! ## Address register, indirect access, memory -/

/-- R190. -/
def Obligations.LdaddrSetsAddressRegister : Prop :=
  ∀ r : RegIdx, DecodesTo (0x50#8 ++ r) (.ldaddr r) ∧ ∀ s : State,
    (∀ b, s.read (.x r) = .ok b →
      Completes (exec (.ldaddr r) s) fun t => t.ar = b ∧ t.initAr = true ∧ Advanced s t ∧ CycleSame s t
        ∧ ASame s t ∧ (∀ i, RegSame s t i) ∧ MemSame s t ∧ t.out = s.out ∧ t.status = s.status) ∧
    (Unwritten s (.x r) → EndsWith (.ldaddr r) s (.uninitialisedRead (.x r)))

/-- R75: base plus offset modulo `2^XLEN`, scaled by 4 for the word forms and by 1 for the byte forms,
whatever the width and `IND_WORD_BYTES`. -/
def Obligations.EffectiveAddressWraps : Prop :=
  ∀ (c : Config) (base : Word) (imm : Byte),
    (∀ i ∈ [Instr.ldind imm, Instr.stind imm],
      ((effectiveAddress c.xlen base (operandOf c i).value).toNat : Int)
        = (base.toNat + 4 * imm.toInt) % 2 ^ c.xlen.bits) ∧
    (∀ i ∈ [Instr.ldindbu imm, Instr.stindb imm],
      ((effectiveAddress c.xlen base (operandOf c i).value).toNat : Int)
        = (base.toNat + imm.toInt) % 2 ^ c.xlen.bits)

/-- R191: the bytes at the effective address become the low bytes of `A`, and the bytes above them are 0, or copies
of bit 31 under `XLEN = 64` with 4-byte words and `IND_LOAD_EXT = sign`. -/
def Obligations.LdindLoadsWord : Prop :=
  ∀ imm : Byte, DecodesTo (0x60#8 ++ imm) (.ldind imm) ∧ ∀ s : State,
    (∀ base, s.read .ar = .ok base →
      Completes (exec (.ldind imm) s) fun t =>
        (∀ j < wordSpan s.config, t.a.extractLsb' (8 * j) 8
          = Memory.byte s.mem ((base.toNat + 4 * imm.toInt + j) % modulus s).toNat) ∧
        (∀ j, wordSpan s.config ≤ j → j < 8 → t.a.extractLsb' (8 * j) 8
          = if s.config.xlen = .x64 ∧ s.config.indLoadExt = .sign ∧ t.a.getLsbD 31 = true then 0xFF else 0) ∧
        t.initA = true ∧ Advanced s t ∧ AllButA s t) ∧
    (Unwritten s .ar → EndsWith (.ldind imm) s (.uninitialisedRead .ar))

/-- R192. -/
def Obligations.LdindbuLoadsZeroExtendedByte : Prop :=
  ∀ imm : Byte, DecodesTo (0x61#8 ++ imm) (.ldindbu imm) ∧ ∀ s : State,
    (∀ base, s.read .ar = .ok base →
      Completes (exec (.ldindbu imm) s) fun t =>
        t.a.toNat = (Memory.byte s.mem ((base.toNat + imm.toInt) % modulus s).toNat).toNat ∧
        t.initA = true ∧ Advanced s t ∧ AllButA s t) ∧
    (Unwritten s .ar → EndsWith (.ldindbu imm) s (.uninitialisedRead .ar))

/-- R193: the low bytes of `A` at the address the meaning computes, which is the address of the rule, and
every other byte of memory as before. -/
def Obligations.StindStoresWord : Prop :=
  ∀ imm : Byte, DecodesTo (0x70#8 ++ imm) (.stind imm) ∧ ∀ s : State,
    (∀ a base, s.read .a = .ok a → s.read .ar = .ok base →
      Completes (exec (.stind imm) s) fun t =>
        (∀ j < wordSpan s.config,
          (byteAddress s.config.xlen
            (effectiveAddress s.config.xlen base (operandOf s.config (.stind imm)).value) j : Int)
            = (base.toNat + 4 * imm.toInt + j) % modulus s ∧
          Memory.byte t.mem (byteAddress s.config.xlen
            (effectiveAddress s.config.xlen base (operandOf s.config (.stind imm)).value) j)
            = a.extractLsb' (8 * j) 8) ∧
        (∀ addr, (∀ j < wordSpan s.config, addr ≠ byteAddress s.config.xlen
            (effectiveAddress s.config.xlen base (operandOf s.config (.stind imm)).value) j) →
          Memory.byte t.mem addr = Memory.byte s.mem addr) ∧
        Advanced s t ∧ AllButMem s t) ∧
    (Unwritten s .a → EndsWith (.stind imm) s (.uninitialisedRead .a)) ∧
    (∀ a, s.read .a = .ok a → Unwritten s .ar → EndsWith (.stind imm) s (.uninitialisedRead .ar))

/-- R194: the low byte of `A` at the address the meaning computes, which is the address of the rule, and
every other byte of memory as before. -/
def Obligations.StindbStoresByte : Prop :=
  ∀ imm : Byte, DecodesTo (0x71#8 ++ imm) (.stindb imm) ∧ ∀ s : State,
    (∀ a base, s.read .a = .ok a → s.read .ar = .ok base →
      Completes (exec (.stindb imm) s) fun t =>
        (byteAddress s.config.xlen
          (effectiveAddress s.config.xlen base (operandOf s.config (.stindb imm)).value) 0 : Int)
          = (base.toNat + imm.toInt) % modulus s ∧
        (∀ addr, Memory.byte t.mem addr =
          if addr = byteAddress s.config.xlen
            (effectiveAddress s.config.xlen base (operandOf s.config (.stindb imm)).value) 0
          then a.extractLsb' 0 8 else Memory.byte s.mem addr) ∧
        Advanced s t ∧ AllButMem s t) ∧
    (Unwritten s .a → EndsWith (.stindb imm) s (.uninitialisedRead .a)) ∧
    (∀ a, s.read .a = .ok a → Unwritten s .ar → EndsWith (.stindb imm) s (.uninitialisedRead .ar))

/-- R196, which the spec derives from R141, R190, R191, R193: the round trip through memory, the bytes it leaves,
and what the 64-bit build with 4-byte words gives. -/
def Obligations.IndirectRoundTrip : Prop :=
  ∀ (s : State) (r : RegIdx) (v : Word), s.read .a = .ok v →
    (s.config.xlen = .x32 →
      Completes (execAll [.store r, .ldaddr r, .stind 0, .ldind 0] s) fun t => t.a = v ∧
        ∀ j < 4, Memory.byte t.mem ((v.toNat + j) % 2 ^ 32) = v.extractLsb' (8 * j) 8) ∧
    (s.config.xlen = .x64 → s.config.indWord = .four → s.config.indLoadExt = .zero →
      Completes (execAll [.store r, .ldaddr r, .stind 0, .ldind 0] s) fun t =>
        t.a.toNat = v.toNat % 2 ^ 32 ∧ (t.a = v ↔ v.toNat < 2 ^ 32))

/-- R53: the little-endian sum. -/
def Obligations.MemReadIsLittleEndianSum : Prop :=
  ∀ (s : State) (addr : Word) (n : Nat), n ∈ [1, 2, 4, 8] →
    s.memRead addr n = ((List.range n).map fun i =>
      (Memory.byte s.mem ((addr.toNat + i) % 2 ^ s.config.xlen.bits)).toNat * 2 ^ (8 * i)).sum

/-- R54: the bytes written, and no other byte or piece of state. -/
def Obligations.MemWriteSetsItsBytesOnly : Prop :=
  ∀ (s : State) (addr : Word) (n : Nat) (v : Word), n ∈ [1, 2, 4, 8] →
    (∀ i < n, Memory.byte (s.memWrite addr n v).mem ((addr.toNat + i) % 2 ^ s.config.xlen.bits)
      = v.extractLsb' (8 * i) 8) ∧
    (∀ b, (∀ i < n, b ≠ (addr.toNat + i) % 2 ^ s.config.xlen.bits) →
      Memory.byte (s.memWrite addr n v).mem b = Memory.byte s.mem b) ∧
    { s.memWrite addr n v with mem := s.mem } = s

/-- R59, which the spec derives from R53, R54, R55: accesses of different widths compose byte by byte. -/
def Obligations.MixedWidthAccessesCompose : Prop :=
  ∀ (s : State) (a v : Word) (b : Byte),
    (s.memWrite a 4 v).memRead a 1 = v.toNat % 2 ^ 8 ∧
    (s.memWrite a 4 v).memRead (a + 3) 1 = v.toNat / 2 ^ 24 % 2 ^ 8 ∧
    (s.memWrite (a + 1) 1 (b.setWidth 64)).memRead a 4
      = s.memRead a 4 % 2 ^ 8 + b.toNat * 2 ^ 8 + s.memRead a 4 / 2 ^ 16 * 2 ^ 16

/-- R64, which the spec derives from R50, R58, R62: a store is seen by a later fetch at its address, with nothing in
between. -/
def Obligations.StoreIsSeenByFetch : Prop :=
  ∀ (s : State) (imm : Byte) (a base : Word), s.read .a = .ok a → s.read .ar = .ok base →
    Completes (exec (.stind imm) s) fun t =>
      (t.setPc (effectiveAddress s.config.xlen base (operandOf s.config (.stind imm)).value)).fetch
        = a.extractLsb' 0 16

/-! ## System -/

/-- R210: every subfunction. -/
def Obligations.ScallDispatchesOnImmediate : Prop :=
  (∀ imm : Byte, DecodesTo (0xFF#8 ++ imm) (.scall imm)) ∧ ∀ s : State,
    exec (.scall 0) s = .next { s with status := .halted .systemCall } ∧
    (Completes (exec (.scall 1) s) fun t =>
      Holds t 4 ((s.nExec : Int) % modulus s) ∧ Advanced s t ∧ AllButX 4 s t) ∧
    (∀ a, s.read .a = .ok a → Completes (exec (.scall 2) s) fun t =>
      t.out = s.out ++ [BitVec.ofNat 8 a.toNat] ∧ Advanced s t ∧ AllButPc { s with out := t.out } t) ∧
    (Unwritten s .a → EndsWith (.scall 2) s (.uninitialisedRead .a)) ∧
    (∀ imm : Byte, 3 ≤ imm.toNat → s.config.scallOther = .fault →
      EndsWith (.scall imm) s (.unknownSyscall imm)) ∧
    (∀ imm : Byte, 3 ≤ imm.toNat → s.config.scallOther = .nop →
      Completes (exec (.scall imm) s) fun t => Advanced s t ∧ AllButPc s t)

/-- R213, R214. -/
def Obligations.InAndOutAreFatal : Prop :=
  (∀ imm : Byte, DecodesTo (0x39#8 ++ imm) .outPort ∧ DecodesTo (0x05#8 ++ imm) .inPort) ∧
  ∀ s : State, EndsWith .outPort s (.unimplemented .outPort) ∧ EndsWith .inPort s (.unimplemented .inPort)

/-- R215: an opcode byte that decodes to `unknown` ends the run, counted and traced, with nothing else changed. -/
def Obligations.UnknownOpcodeIsDecodeError : Prop :=
  ∀ s : State, s.status = .running → s.inFetchWindow s.pc = true →
    decodeOpcode s.config (Memory.byte s.mem (byteAddress s.config.xlen s.pc 1)) = .unknown →
    step s = .next { s with
      trace := (s.pc :: s.trace).take 100,
      nExec := s.nExec + 1,
      status := .halted (.error (.decodeError (Memory.byte s.mem (byteAddress s.config.xlen s.pc 1)))) }

/-! ## Errors and outcomes -/

/-- R103: the checked read, and what it does to every instruction: the first unwritten location that the
instruction reads, in the order of its pseudocode, ends the run under `UNINIT_POLICY = fault`. An instruction
whose reads all succeed raises no `UninitialisedRead`. -/
def Obligations.UnwrittenReadEndsTheRun : Prop :=
  (∀ (s : State) (l : Loc), (s.initialised l = true → s.read l = .ok (s.stored l)) ∧
    (s.initialised l = false → s.config.uninit = .zero → s.read l = .ok 0)) ∧
  (∀ (i : Instr) (s : State) (before after : List Loc) (l : Loc), readsOf i = before ++ l :: after →
    (∀ m ∈ before, ∃ v, s.read m = .ok v) → Unwritten s l → EndsWith i s (.uninitialisedRead l)) ∧
  (∀ (i : Instr) (s t : State) (l : Loc), s.status = .running → (∀ m ∈ readsOf i, ∃ v, s.read m = .ok v) →
    exec i s = .next t → t.status ≠ .halted (.error (.uninitialisedRead l)))

/-- R102, R253, which the spec derives from the pseudocode of the instructions and R236: a fatal error is precise,
in an instruction and in a whole cycle. That an error is a next state is the model's form (log 12). -/
def Obligations.FatalErrorsArePrecise : Prop :=
  (∀ (i : Instr) (s t : State) (e : Error), s.status = .running → exec i s = .next t →
    t.status = .halted (.error e) → t = { s with status := .halted (.error e) }) ∧
  (∀ (s t : State) (e : Error), step s = .next t → t.status = .halted (.error e) →
    t = { s with trace := (s.pc :: s.trace).take 100, nExec := s.nExec + 1, status := .halted (.error e) })

/-- From R101 and R250: every instruction answers a next state (the model's form, log 12), and each outcome other
than `Continue` comes only from its cause: `SystemCall` from `scall 0`, `ReturnToCaller` from `jal r0` under
`EXIT_ON_JAL_R0`, and each kind of error from the condition that R250 gives it. -/
def Obligations.OutcomesOnlyFromTheirCauses : Prop :=
  ∀ (i : Instr) (s : State), s.status = .running →
    Completes (exec i s) fun t => t.status = .running ∨
      (t.status = .halted .systemCall ∧ i = .scall 0 ∧ t.pc = s.pc) ∨
      (t.status = .halted .returnToCaller ∧ i = .jal 0 ∧ s.config.exitOnJalR0 = true) ∨
      (∃ e, t.status = .halted (.error e) ∧ CauseOf i s e ∧ t.pc = s.pc)

/-- R22, R23, R25, R58, R212: which instructions can change `A`, `AR`, a register, memory and `OUT`. -/
def Obligations.EachLocationHasItsWriters : Prop :=
  ∀ (i : Instr) (s t : State), exec i s = .next t →
    (writesA i = false → ASame s t) ∧
    ((∀ r, i ≠ .ldaddr r) → ArSame s t) ∧
    (∀ j, writesX i ≠ some j → RegSame s t j) ∧
    ((∀ imm, i ≠ .stind imm ∧ i ≠ .stindb imm) → MemSame s t) ∧
    (i ≠ .scall 2 → t.out = s.out)

/-! ## The run loop -/

/-- From R235, R236: when the two bytes at `pc` decode to an instruction, the step is its meaning in the state
whose trace and counter the cycle has already moved. -/
def Obligations.StepRunsDecodedInstruction : Prop :=
  ∀ (s : State) (i : Instr), s.status = .running → s.inFetchWindow s.pc = true →
    decode s.config [Memory.byte s.mem (byteAddress s.config.xlen s.pc 0),
      Memory.byte s.mem (byteAddress s.config.xlen s.pc 1)] = .ok (i, []) →
    step s = exec i { s with trace := (s.pc :: s.trace).take 100, nExec := s.nExec + 1 }

/-- R233, with R30's window in numbers under both bounds. -/
def Obligations.LeavingTheWindowEndsTheRun : Prop :=
  ∀ s : State, s.status = .running →
    ((s.config.windowUpper = .inclusive ∧
        (s.pc.toNat < s.entry.toNat ∨ s.entry.toNat + s.textSize < s.pc.toNat)) ∨
      (s.config.windowUpper = .exclusive ∧
        (s.pc.toNat < s.entry.toNat ∨ s.entry.toNat + s.textSize ≤ s.pc.toNat))) →
    step s = .next { s with trace := (s.pc :: s.trace).take 100, status := .halted .outOfBounds }

/-- R237, R254: a halted state has no step. That the answer is the fault `halted` is the model's form (log 12). -/
def Obligations.HaltedStateHasNoStep : Prop :=
  ∀ (s : State) (r : RunResult), s.status = .halted r →
    step s = .fault (.halted r) ∧ ∀ n, Sys2Proof.core.run (n + 1) s = .fault (.halted r)

/-- From R36: after `n` cycles the trace holds the most recently fetched `pc` values, at most 100, most recent
first. -/
def Obligations.TraceHoldsRecentFetches : Prop :=
  ∀ (n : Nat) (s t : State), Sys2Proof.core.run n s = .next t →
    (s.trace = [] → t.trace.length = min n 100 ∧ t.trace = (fetches n s).take 100) ∧
    (1 ≤ n → t.trace = (fetches n s ++ s.trace).take 100)

/-- R234: the counter rises by one exactly for the fetches that pass the window check, whatever the
instruction does then, so `scall 1` counts itself (R211). -/
def Obligations.CounterCountsDecodedFetches : Prop :=
  (∀ s t : State, step s = .next t →
    t.nExec = if s.inFetchWindow s.pc = true then s.nExec + 1 else s.nExec) ∧
  (∀ s : State, s.status = .running → s.inFetchWindow s.pc = true →
    decodeWord s.config s.fetch = .ok (.scall 1) →
    Completes (step s) fun t => Holds t 4 (((s.nExec + 1 : Nat) : Int) % modulus s))

/-- From R6, R29: the parameters, `E` and `S` keep their values along every run. -/
def Obligations.LaunchInputsNeverChange : Prop :=
  ∀ (n : Nat) (s t : State), Sys2Proof.core.run n s = .next t →
    t.config = s.config ∧ t.entry = s.entry ∧ t.textSize = s.textSize

/-- From R28: under `JAL_ODD_TARGET = fault` every step keeps `pc` even, and under `allow` some step does not. -/
def Obligations.PcStaysEven : Prop :=
  (∀ s t : State, s.config.jalOdd = .fault → s.pc.toNat % 2 = 0 → step s = .next t → t.pc.toNat % 2 = 0) ∧
  (∃ s t : State, s.config.jalOdd = .allow ∧ s.pc.toNat % 2 = 0 ∧ step s = .next t ∧ t.pc.toNat % 2 = 1)

/-- Every step keeps a state well formed: canonical memory and registers, words of `XLEN` bits, at most 100 trace
entries, and the marks of the registers the same as `W`. -/
def Obligations.StepKeepsWellFormed : Prop :=
  ∀ s t : State, s.Wf → step s = .next t → t.Wf

/-- `W`, `T` and `OUT` are read by no step: runs from states that differ only there agree on everything else
(R34, R36, R21). -/
def Obligations.ObservedStateIsNeverRead : Prop :=
  ∀ s t : State, AgreeButObserved s t → AnswersAgree (step s) (step t)

/-! ## Encoding -/

/-- Decode and encode agree, for every well-formed configuration under both policies and every instruction
of its build, with every operand at every value. -/
def Obligations.DecodeOfEncodeIsIdentity : Prop :=
  ∀ (c : Config) (i : Instr), c.wellFormed = true → i.wellFormed c = true →
    ∃ w, encode c i = some w ∧ decodeWord c w = .ok i ∧ decode c (bytesOfWord w) = .ok (i, [])

/-- The other direction, under the exact policy: the instruction a word decodes to encodes to that word, but for
the `imm8` that R82 ignores. -/
def Obligations.EncodeOfDecodeIsTheWord : Prop :=
  ∀ (c : Config) (w : InstrWord) (i : Instr), c.wellFormed = true → c.dontCare = .exact →
    decodeWord c w = .ok i →
    ∃ w', encode c i = some w' ∧ opcodeOf w' = opcodeOf w ∧ (ignoresImm8 i = false → w' = w)

/-- From R77, R79: the two tiers under the exact policy, for every map that meets the checks of log 10. -/
def Obligations.BranchTierThenDenseTier : Prop :=
  ∀ (c : Config) (op : Byte), c.wellFormed = true →
    (∀ k sel, c.opcodes.selectorOf k = some sel → op.extractLsb' 4 4 = sel → decodeOpcode c op = k) ∧
    ((∀ k sel, c.opcodes.selectorOf k = some sel → op.extractLsb' 4 4 ≠ sel) → c.dontCare = .exact →
      (∀ r ∈ c.opcodes.rowsAt c.xlen, r.byte = op → decodeOpcode c op = r.kind) ∧
      ((∀ r ∈ c.opcodes.rowsAt c.xlen, r.byte ≠ op) → decodeOpcode c op = .unknown))

/-- From R80, with the default patterns of log 11: the prefix policy takes the matching pattern with the most
tested bits, and the default map then has 152 decodable bytes, or 156 when `XLEN = 64`. -/
def Obligations.PrefixPolicyTakesLongestMatch : Prop :=
  (∀ (c : Config) (op : Byte), c.dontCare = .prefixMatch →
    (∀ k sel, c.opcodes.selectorOf k = some sel → op.extractLsb' 4 4 ≠ sel) →
    (∀ r ∈ c.opcodes.rowsAt c.xlen, r.patMatches op = true →
      (∀ q ∈ c.opcodes.rowsAt c.xlen, q ≠ r → q.patMatches op = true → q.tested < r.tested) →
      decodeOpcode c op = r.kind) ∧
    ((∀ r ∈ c.opcodes.rowsAt c.xlen, r.patMatches op = false) → decodeOpcode c op = .unknown)) ∧
  (∀ x : Xlen, (List.range 256).countP (fun n =>
      decodeOpcode { Config.specDefault x with dontCare := .prefixMatch } (BitVec.ofNat 8 n) != .unknown)
    = match x with
      | .x32 => 152
      | .x64 => 156)

/-- Words written out from R78's encodings, one of each family, and R79's list of the decodable bytes. The list has
107 bytes when `XLEN = 32`, where the rule's sentence counts 108 (log 27). -/
def Obligations.SampleWordsDecode : Prop :=
  (DecodesTo 0x00AB .nop ∧ DecodesTo 0x0803 (.add 3) ∧ DecodesTo 0x0980 (.addi 0x80) ∧
    DecodesTo 0x10AB .sra ∧ DecodesTo 0x20FF (.load 255) ∧ DecodesTo 0x2180 (.loadi 0x80) ∧
    DecodesTo 0x2980 (.loadh 0x80) ∧ DecodesTo 0x2C9A (.loadh4 0x9A) ∧ DecodesTo 0x300B (.store 11) ∧
    DecodesTo 0x4008 (.jal 8) ∧ DecodesTo 0xAFFA (.brnz 0xFFA) ∧ DecodesTo 0x500A (.ldaddr 10) ∧
    DecodesTo 0x7001 (.stind 1) ∧ DecodesTo 0xFF02 (.scall 2) ∧ DecodesTo 0x3900 .outPort) ∧
  (∀ (x : Xlen) (op : Byte), decodeOpcode (Config.specDefault x) op ≠ .unknown ↔
    (op ∈ [0x00#8, 0x05, 0x08, 0x09, 0x0C, 0x0D, 0x10, 0x30, 0x39, 0x40, 0x50, 0x60, 0x61, 0x70, 0x71, 0xFF] ∨
      (0x20 ≤ op.toNat ∧ op.toNat ≤ 0x27) ∨ (0x29 ≤ op.toNat ∧ op.toNat ≤ 0x2B) ∨
      (0x80 ≤ op.toNat ∧ op.toNat ≤ 0xCF) ∨ (x = .x64 ∧ 0x2C ≤ op.toNat ∧ op.toNat ≤ 0x2F)))

/-! ## Reset, launch, host -/

/-- The state after reset as R38 gives it: nothing counted, traced, emitted or loaded, every memory byte 0, running,
`pc` at `E`, no location marked but `x[1]`, which holds `DEFAULT_SP`. The parameters, the values under clear marks,
`E`, `S` and `1 ∈ W` are the model's choices (log 2 to 7) and are said here only where R38 speaks of them. -/
def Obligations.ResetLeavesTheSpecsValues : Prop :=
  State.reset.nExec = 0 ∧ State.reset.trace = [] ∧ State.reset.out = [] ∧ State.reset.status = .running ∧
  State.reset.pc = State.reset.entry ∧ (∀ addr, Memory.byte State.reset.mem addr = 0) ∧
  (∀ l, State.reset.initialised l = true ↔ l = .x 1) ∧
  State.reset.read (.x 1) = .ok (wrap State.reset.config.xlen State.reset.config.defaultSp) ∧
  launchFlat Config.reset (some []) [] = .next State.reset

/-- The reset state, with the model's own values (log 2 to 7), is well formed. -/
def Obligations.ResetIsWellFormed : Prop := State.reset.Wf

/-- R282 in the order of R280: the launch of a flat binary, and the images that give no run. -/
def Obligations.FlatLaunchLoadsAtZero : Prop :=
  (∀ (c : Config) (bytes : List Byte), bytes.length % 2 = 0 → bytes.length ≤ 2 ^ c.xlen.bits →
    Completes (launchFlat c (some bytes) []) fun t =>
      t.config = c ∧ t.entry = 0 ∧ t.textSize = bytes.length ∧ t.pc = 0 ∧ t.status = .running ∧ t.nExec = 0 ∧
      t.trace = [] ∧ t.out = [] ∧ t.written = [1] ∧ (∀ l, t.initialised l = true ↔ l = .x 1) ∧
      t.stored (.x 1) = wrap c.xlen c.defaultSp ∧
      (∀ addr, Memory.byte t.mem addr = bytes.getD addr 0)) ∧
  (∀ (c : Config) (mapping : List (RegIdx × Int)), launchFlat c none mapping = .fault .inputFileError) ∧
  (∀ (c : Config) (bytes : List Byte) (mapping : List (RegIdx × Int)), bytes.length % 2 = 1 →
    launchFlat c (some bytes) mapping = .fault .inputFileError)

/-- From R251, R283, R285: the launch of an ELF image without arguments: its regions placed, every other byte 0, and
the launches without a meaning refused. That overlap and the address 0 are judged on the placed regions modulo
`2^XLEN` is the model's reading (log 17), and that a missing image is a fault and the others refusals by name,
overlap tested first, is its form (log 19). -/
def Obligations.ElfLaunchPlacesRegions : Prop :=
  ∀ (c : Config) (img : ElfImage) (args : Option (List Int)) (mapping : List (RegIdx × Int)),
    launchElf c none args mapping = .fault .inputFileError ∧
    (img.disjoint c.xlen = false → launchElf c (some img) args mapping = .refused .overlappingRegions) ∧
    (img.disjoint c.xlen = true → img.entry.toNat % 2 = 1 →
      launchElf c (some img) args mapping = .refused .oddEntryPoint) ∧
    (img.disjoint c.xlen = true → img.entry.toNat % 2 = 0 →
      Completes (launchElf c (some img) none mapping) fun t =>
        t.entry.toNat = img.entry.toNat % 2 ^ c.xlen.bits ∧ t.textSize = img.textSize ∧ t.pc = t.entry ∧
        t.status = .running ∧
        (∀ r ∈ img.regions, r.address.toNat % 2 ^ c.xlen.bits ≠ 0 → ∀ j, (h : j < r.bytes.length) →
          Memory.byte t.mem ((r.address.toNat + j) % 2 ^ c.xlen.bits) = r.bytes[j]) ∧
        (∀ addr, (∀ r ∈ img.regions, r.address.toNat % 2 ^ c.xlen.bits ≠ 0 → ∀ j < r.bytes.length,
          addr ≠ (r.address.toNat + j) % 2 ^ c.xlen.bits) → Memory.byte t.mem addr = 0))

/-- R284: the argument vector of ELF mode. -/
def Obligations.ArgumentVectorInMemoryAndRegisters : Prop :=
  ∀ (s : State) (args : List Int), 4 * args.length ≤ 2 ^ s.config.xlen.bits →
    (∀ i, (h : i < args.length) → ∀ j < 4,
      ((Memory.byte (s.finishLaunch (some args) []).mem
        ((s.config.argvBase.toNat + 4 * i + j) % 2 ^ s.config.xlen.bits)).toNat : Int)
        = args[i] / 2 ^ (8 * j) % 2 ^ 8) ∧
    (∀ addr, (∀ k < 4 * args.length, addr ≠ (s.config.argvBase.toNat + k) % 2 ^ s.config.xlen.bits) →
      Memory.byte (s.finishLaunch (some args) []).mem addr = Memory.byte s.mem addr) ∧
    Holds (s.finishLaunch (some args) []) 4 args.length ∧
    Holds (s.finishLaunch (some args) []) 5 (s.config.argvBase.toNat % 2 ^ s.config.xlen.bits)

/-- From R286: the host's mapping wins over every other register initialisation and sets nothing else. A value that
is an `XLEN`-bit signed word, as R286 says each is, is what the register reads as signed. That any other integer is
taken modulo `2^XLEN` is the model's reading (log 25). -/
def Obligations.InitialMappingWins : Prop :=
  ∀ (s : State) (args : Option (List Int)) (mapping : List (RegIdx × Int)), (mapping.map (·.1)).Nodup →
    (∀ p ∈ mapping, Holds (s.finishLaunch args mapping) p.1 (p.2 % modulus s)) ∧
    (∀ p ∈ mapping, -2 ^ (s.config.xlen.bits - 1) ≤ p.2 → p.2 < 2 ^ (s.config.xlen.bits - 1) →
      sval s.config.xlen ((s.finishLaunch args mapping).stored (.x p.1)) = p.2) ∧
    (∀ i, i ∉ mapping.map (·.1) → RegSame (s.finishLaunch args []) (s.finishLaunch args mapping) i) ∧
    ASame s (s.finishLaunch args mapping) ∧ ArSame s (s.finishLaunch args mapping) ∧
    CycleSame s (s.finishLaunch args mapping) ∧ (s.finishLaunch args mapping).out = s.out ∧
    (s.finishLaunch args mapping).status = (s.finishLaunch args []).status ∧
    (s.finishLaunch args mapping).pc = (s.finishLaunch args []).pc ∧
    MemSame (s.finishLaunch args []) (s.finishLaunch args mapping)

/-- From R287: the optional reset, without arguments or mapping. That the values under clear marks are 0 and that
it starts again at `E` are the model's reading (log 18). -/
def Obligations.OptionalResetKeepsTheImage : Prop :=
  ∀ s : State,
    (s.optionalReset none []).config = s.config ∧ MemSame s (s.optionalReset none []) ∧
    (s.optionalReset none []).entry = s.entry ∧ (s.optionalReset none []).textSize = s.textSize ∧
    (s.optionalReset none []).nExec = 0 ∧ (s.optionalReset none []).trace = [] ∧
    (s.optionalReset none []).out = [] ∧ (s.optionalReset none []).status = .running ∧
    (∀ l, (s.optionalReset none []).initialised l = true ↔ l = .x 1) ∧
    (s.optionalReset none []).written = [1] ∧
    (s.optionalReset none []).stored (.x 1) = wrap s.config.xlen s.config.defaultSp ∧
    (s.optionalReset none []).pc.toNat = s.entry.toNat % 2 ^ s.config.xlen.bits
end

