-- ==== Sys2Proof/Laws/Decode.lean ====
section
/-! SUPPORT. Laws of the decoder: the fields of a word put together from its fields (30_encoding.md R70, R71), what
a decoded word is, and the lookups of the opcode map. -/

namespace Sys2Proof

@[simp] theorem opcodeOf_append (b r : Byte) : opcodeOf (b ++ r) = b := by
  refine BitVec.eq_of_getLsbD_eq fun i hi => ?_
  rw [opcodeOf, BitVec.getLsbD_extractLsb', BitVec.getLsbD_append]
  simp [hi]

@[simp] theorem imm8Of_append (b r : Byte) : imm8Of (b ++ r) = r := by
  refine BitVec.eq_of_getLsbD_eq fun i hi => ?_
  rw [imm8Of, BitVec.getLsbD_extractLsb', BitVec.getLsbD_append]
  simp [hi]

@[simp] theorem off12Of_append (sel : BitVec 4) (off : BitVec 12) : off12Of (sel ++ off) = off := by
  refine BitVec.eq_of_getLsbD_eq fun i hi => ?_
  rw [off12Of, BitVec.getLsbD_extractLsb', BitVec.getLsbD_append]
  simp [hi]

/-- The top 4 opcode bits of a format B word are its selector (R71, R77). -/
@[simp] theorem selector_append (sel : BitVec 4) (off : BitVec 12) :
    (opcodeOf (sel ++ off)).extractLsb' 4 4 = sel := by
  refine BitVec.eq_of_getLsbD_eq fun i hi => ?_
  rw [opcodeOf, BitVec.getLsbD_extractLsb', BitVec.getLsbD_extractLsb', BitVec.getLsbD_append]
  have h1 : ¬ 8 + (4 + i) < 12 := by omega
  have h2 : 4 + i < 8 := by omega
  have h3 : 8 + (4 + i) - 12 = i := by omega
  simp [hi, h1, h2, h3]

/-- A word is its opcode byte and its immediate byte (R70). -/
theorem opcode_imm8 (w : InstrWord) : opcodeOf w ++ imm8Of w = w := by
  refine BitVec.eq_of_getLsbD_eq fun i hi => ?_
  rw [BitVec.getLsbD_append, opcodeOf, imm8Of, BitVec.getLsbD_extractLsb', BitVec.getLsbD_extractLsb']
  by_cases h : i < 8
  · simp [h]
  · have h1 : i - 8 < 8 := by omega
    have h2 : 8 + (i - 8) = i := by omega
    simp [h, h1, h2]

/-- A word is its selector and its displacement field (R71). -/
theorem selector_off12 (w : InstrWord) : (opcodeOf w).extractLsb' 4 4 ++ off12Of w = w := by
  refine BitVec.eq_of_getLsbD_eq fun i hi => ?_
  rw [BitVec.getLsbD_append, off12Of, BitVec.getLsbD_extractLsb', opcodeOf, BitVec.getLsbD_extractLsb',
    BitVec.getLsbD_extractLsb']
  by_cases h : i < 12
  · simp [h]
  · have h1 : i - 12 < 4 := by omega
    have h2 : 4 + (i - 12) < 8 := by omega
    have h3 : 8 + (4 + (i - 12)) = i := by omega
    simp [h, h1, h2, h3]

/-- The bytes of a word, decoded, are the word (R55, R70). -/
@[simp] theorem wordOfBytes_bytesOfWord (w : InstrWord) :
    wordOfBytes (w.extractLsb' 0 8) (w.extractLsb' 8 8) = w := opcode_imm8 w

/-- What a word decodes to depends on its opcode byte's kind alone (R76). -/
theorem decodeWord_ok {c : Config} {w : InstrWord} {i : Instr} :
    decodeWord c w = .ok i ↔ (decodeOpcode c (opcodeOf w)).build w = some i := by
  unfold decodeWord
  split
  · next j h => rw [h]; simp
  · next h => rw [h]; simp

theorem decodeWord_error {c : Config} {w : InstrWord} {e : DecodeReject} :
    decodeWord c w = .error e ↔
      decodeOpcode c (opcodeOf w) = .unknown ∧ e = .unknown (opcodeOf w) := by
  unfold decodeWord
  split
  · next j h =>
    constructor
    · intro hc; cases hc
    · rintro ⟨hk, -⟩; rw [hk] at h; cases h
  · next h =>
    have hk : decodeOpcode c (opcodeOf w) = .unknown := by
      cases hk : decodeOpcode c (opcodeOf w) <;> rw [hk] at h <;> first | rfl | cases h
    constructor
    · intro hc; cases hc; exact ⟨hk, rfl⟩
    · rintro ⟨-, rfl⟩; rfl

/-- A built instruction is of the kind it was built from. -/
theorem kind_of_build {k : Kind} {w : InstrWord} {i : Instr} (h : k.build w = some i) : i.kind = k := by
  cases k <;> cases h <;> rfl

/-- The only kind that builds nothing is `unknown`. -/
theorem build_eq_none {k : Kind} {w : InstrWord} : k.build w = none ↔ k = .unknown := by
  cases k <;> simp [Kind.build]

/-- The branch tier in terms of the selectors (R77): none where the 4 bits are no selector. -/
theorem branchKind_eq_none {m : OpcodeMap} {sel : BitVec 4} :
    m.branchKind sel = none ↔ sel ∉ m.branches.all := by
  unfold OpcodeMap.branchKind BranchSelectors.all
  split_ifs <;> simp_all

/-- The longest match is one of the rows that match, and no matching row tests more bits (R80). -/
theorem longestMatch_spec (op : Byte) (rows : List OpcodeRow) :
    (longestMatch op rows = none ∧ ∀ r ∈ rows, r.patMatches op = false) ∨
    (∃ r ∈ rows, longestMatch op rows = some r ∧ r.patMatches op = true ∧
      ∀ q ∈ rows, q.patMatches op = true → q.tested ≤ r.tested) := by
  induction rows with
  | nil => exact .inl ⟨rfl, by simp⟩
  | cons r rest ih =>
    rw [longestMatch]
    rcases ih with ⟨hn, hall⟩ | ⟨q, hq, hs, hm, hmax⟩
    · rw [hn]
      by_cases hr : r.patMatches op = true
      · refine .inr ⟨r, by simp, by simp [hr], hr, fun q hq hqm => ?_⟩
        rcases List.mem_cons.mp hq with rfl | hq
        · exact le_rfl
        · rw [hall q hq] at hqm; cases hqm
      · refine .inl ⟨by simp [hr], fun q hq => ?_⟩
        rcases List.mem_cons.mp hq with rfl | hq
        · simpa using hr
        · exact hall q hq
    · rw [hs]
      by_cases hr : r.patMatches op = true ∧ q.tested ≤ r.tested
      · refine .inr ⟨r, by simp, by simp [hr.1, hr.2], hr.1, fun p hp hpm => ?_⟩
        rcases List.mem_cons.mp hp with rfl | hp
        · exact le_rfl
        · exact (hmax p hp hpm).trans hr.2
      · refine .inr ⟨q, by simp [hq], ?_, hm, fun p hp hpm => ?_⟩
        · have : (r.patMatches op && decide (q.tested ≤ r.tested)) = false := by
            by_cases h1 : r.patMatches op = true
            · simp only [h1, Bool.true_and, decide_eq_false_iff_not]
              exact fun h2 => hr ⟨h1, h2⟩
            · simp [h1]
          simp [this]
        · rcases List.mem_cons.mp hp with rfl | hp
          · by_contra hlt
            exact hr ⟨hpm, by omega⟩
          · exact hmax p hp hpm

/-- In a list of rows without repeated keys, a lookup by the key of a row finds that row. -/
theorem find_of_nodup {α : Type} [DecidableEq α] (key : OpcodeRow → α) {rows : List OpcodeRow}
    (h : (rows.map key).Nodup) {r : OpcodeRow} (hr : r ∈ rows) :
    rows.find? (fun q => key q == key r) = some r := by
  induction rows with
  | nil => cases hr
  | cons q rest ih =>
    rw [List.map_cons, List.nodup_cons] at h
    rcases List.mem_cons.mp hr with rfl | hr
    · simp
    · have hne : key q ≠ key r := fun e => h.1 (e ▸ List.mem_map_of_mem hr)
      rw [List.find?_cons_of_neg (by simpa using hne)]
      exact ih h.2 hr

end Sys2Proof
end

