-- ==== Sys2Proof/Laws/Sparse.lean ====
section
/-! SUPPORT. Laws of the sparse stores: read after write, other keys, the canonical form kept, and equality of
canonical stores that read alike. Then the same for memory, and the laws of the written set. -/

namespace Sys2Proof.Machine

variable {w : Nat}

theorem Sparse.get_erase (m : List (Nat × BitVec w)) (k j : Nat) :
    Sparse.get (Sparse.erase m k) j = if j = k then 0 else Sparse.get m j := by
  induction m with
  | nil => simp [Sparse.erase, Sparse.get]
  | cons e rest ih =>
    obtain ⟨i, v⟩ := e
    unfold Sparse.erase at ih ⊢
    by_cases hik : i = k
    · subst hik
      simp only [List.filter_cons, bne_self_eq_false, Bool.false_eq_true, if_false, ih, Sparse.get]
      by_cases hj : j = i
      · simp [hj]
      · simp [hj, Ne.symm hj]
    · have : (i != k) = true := by simpa using hik
      simp only [List.filter_cons, this, if_true, Sparse.get, ih]
      by_cases hij : i = j
      · subst hij; simp [hik]
      · simp [hij]

theorem Sparse.get_insert_self (m : List (Nat × BitVec w)) (k : Nat) (v : BitVec w)
    (h : ∀ e ∈ m, e.1 ≠ k) : Sparse.get (Sparse.insert m k v) k = v := by
  induction m with
  | nil => simp [Sparse.insert, Sparse.get]
  | cons e rest ih =>
    obtain ⟨i, u⟩ := e
    have hik : i ≠ k := h (i, u) (by simp)
    unfold Sparse.insert
    split
    · simp [Sparse.get]
    · simp only [Sparse.get, hik, if_false]; exact ih (fun e he => h e (by simp [he]))

theorem Sparse.get_insert_other (m : List (Nat × BitVec w)) (k j : Nat) (v : BitVec w) (h : j ≠ k) :
    Sparse.get (Sparse.insert m k v) j = Sparse.get m j := by
  induction m with
  | nil => simp [Sparse.insert, Sparse.get, Ne.symm h]
  | cons e rest ih =>
    obtain ⟨i, u⟩ := e
    unfold Sparse.insert
    split
    · simp [Sparse.get, Ne.symm h]
    · simp only [Sparse.get, ih]

theorem Sparse.mem_erase {m : List (Nat × BitVec w)} {k : Nat} {e : Nat × BitVec w} :
    e ∈ Sparse.erase m k ↔ e ∈ m ∧ e.1 ≠ k := by
  simp [Sparse.erase]

/-- Reading after a write: the new value at the written key, the old one everywhere else, in any store. -/
theorem Sparse.get_set (m : List (Nat × BitVec w)) (k j : Nat) (v : BitVec w) :
    Sparse.get (Sparse.set m k v) j = if j = k then v else Sparse.get m j := by
  unfold Sparse.set
  split
  · next hv => rw [Sparse.get_erase, hv]
  · by_cases hj : j = k
    · subst hj
      rw [Sparse.get_insert_self _ _ _ (fun e he => (Sparse.mem_erase.mp he).2)]; simp
    · rw [Sparse.get_insert_other _ _ _ _ hj, Sparse.get_erase, if_neg hj, if_neg hj]

theorem Sparse.mem_insert {m : List (Nat × BitVec w)} {k : Nat} {v : BitVec w} {e : Nat × BitVec w} :
    e ∈ Sparse.insert m k v ↔ e = (k, v) ∨ e ∈ m := by
  induction m with
  | nil => simp [Sparse.insert]
  | cons f rest ih =>
    obtain ⟨i, u⟩ := f
    unfold Sparse.insert
    split
    · simp
    · simp only [List.mem_cons, ih]; tauto

/-- Every entry of a store after a write is an old one or the new one. -/
theorem Sparse.mem_set {m : List (Nat × BitVec w)} {k : Nat} {v : BitVec w} {e : Nat × BitVec w}
    (h : e ∈ Sparse.set m k v) : e = (k, v) ∨ e ∈ m := by
  unfold Sparse.set at h
  split at h
  · exact .inr (Sparse.mem_erase.mp h).1
  · rcases Sparse.mem_insert.mp h with h | h
    · exact .inl h
    · exact .inr (Sparse.mem_erase.mp h).1

theorem Sparse.rising_cons {j : Nat} {v : BitVec w} {rest : List (Nat × BitVec w)} :
    Sparse.rising ((j, v) :: rest) = true ↔ (∀ e ∈ rest, j < e.1) ∧ Sparse.rising rest = true := by
  simp [Sparse.rising]

theorem Sparse.rising_erase {m : List (Nat × BitVec w)} {k : Nat} (h : Sparse.rising m = true) :
    Sparse.rising (Sparse.erase m k) = true := by
  induction m with
  | nil => rfl
  | cons e rest ih =>
    obtain ⟨i, u⟩ := e
    obtain ⟨h₁, h₂⟩ := Sparse.rising_cons.mp h
    have ih := ih h₂
    unfold Sparse.erase at ih ⊢
    rw [List.filter_cons]
    split
    · exact Sparse.rising_cons.mpr ⟨fun e he => h₁ e (List.mem_filter.mp he).1, ih⟩
    · exact ih

theorem Sparse.rising_insert {m : List (Nat × BitVec w)} {k : Nat} {v : BitVec w}
    (h : Sparse.rising m = true) (hk : ∀ e ∈ m, e.1 ≠ k) : Sparse.rising (Sparse.insert m k v) = true := by
  induction m with
  | nil => simp [Sparse.insert, Sparse.rising]
  | cons e rest ih =>
    obtain ⟨i, u⟩ := e
    obtain ⟨h₁, h₂⟩ := Sparse.rising_cons.mp h
    have hik : i ≠ k := hk (i, u) (by simp)
    unfold Sparse.insert
    split
    · next hlt =>
      refine Sparse.rising_cons.mpr ⟨fun e he => ?_, h⟩
      rcases List.mem_cons.mp he with rfl | he
      · exact hlt
      · exact hlt.trans (h₁ e he)
    · next hge =>
      refine Sparse.rising_cons.mpr ⟨fun e he => ?_, ih h₂ (fun e he => hk e (by simp [he]))⟩
      rcases Sparse.mem_insert.mp he with rfl | he
      · exact lt_of_le_of_ne (not_lt.mp hge) hik
      · exact h₁ e he

theorem Sparse.wf_iff {m : List (Nat × BitVec w)} :
    Sparse.wf m = true ↔ Sparse.rising m = true ∧ ∀ e ∈ m, e.2 ≠ 0 := by
  simp [Sparse.wf]

@[simp] theorem Sparse.wf_nil : Sparse.wf ([] : List (Nat × BitVec w)) = true := rfl

/-- A write keeps the canonical form. -/
theorem Sparse.wf_set {m : List (Nat × BitVec w)} (k : Nat) (v : BitVec w) (h : Sparse.wf m = true) :
    Sparse.wf (Sparse.set m k v) = true := by
  obtain ⟨hr, hz⟩ := Sparse.wf_iff.mp h
  refine Sparse.wf_iff.mpr ⟨?_, fun e he => ?_⟩
  · unfold Sparse.set
    split
    · exact Sparse.rising_erase hr
    · exact Sparse.rising_insert (Sparse.rising_erase hr) (fun e he => (Sparse.mem_erase.mp he).2)
  · by_cases hv : v = 0
    · unfold Sparse.set at he
      rw [if_pos hv] at he
      exact hz e (Sparse.mem_erase.mp he).1
    · rcases Sparse.mem_set he with rfl | he
      · exact hv
      · exact hz e he

theorem Sparse.get_of_lt {m : List (Nat × BitVec w)} {k : Nat} (h : ∀ e ∈ m, k < e.1) :
    Sparse.get m k = 0 := by
  induction m with
  | nil => rfl
  | cons e rest ih =>
    obtain ⟨i, u⟩ := e
    have : k < i := h (i, u) (by simp)
    simp only [Sparse.get, if_neg (by omega : ¬ i = k)]
    exact ih (fun e he => h e (by simp [he]))

/-- Canonical stores that read alike are equal. -/
theorem Sparse.ext_of_get {m n : List (Nat × BitVec w)} (hm : Sparse.wf m = true) (hn : Sparse.wf n = true)
    (h : ∀ k, Sparse.get m k = Sparse.get n k) : m = n := by
  induction m generalizing n with
  | nil =>
    cases n with
    | nil => rfl
    | cons e rest =>
      obtain ⟨i, u⟩ := e
      have := h i
      simp only [Sparse.get, if_true] at this
      exact absurd this.symm ((Sparse.wf_iff.mp hn).2 (i, u) (by simp))
  | cons e rest ih =>
    obtain ⟨i, u⟩ := e
    obtain ⟨hmr, hmz⟩ := Sparse.wf_iff.mp hm
    obtain ⟨hm₁, hm₂⟩ := Sparse.rising_cons.mp hmr
    have hu : u ≠ 0 := hmz (i, u) (by simp)
    cases n with
    | nil =>
      have := h i
      simp only [Sparse.get, if_true] at this
      exact absurd this hu
    | cons f rest' =>
      obtain ⟨j, v⟩ := f
      obtain ⟨hnr, hnz⟩ := Sparse.wf_iff.mp hn
      obtain ⟨hn₁, hn₂⟩ := Sparse.rising_cons.mp hnr
      have hv : v ≠ 0 := hnz (j, v) (by simp)
      have hij : i = j := by
        by_contra hne
        rcases Nat.lt_or_gt_of_ne hne with hlt | hlt
        · have := h i
          rw [Sparse.get_of_lt (m := (j, v) :: rest')] at this
          · simp only [Sparse.get, if_true] at this; exact hu this
          · intro e he
            rcases List.mem_cons.mp he with rfl | he
            · exact hlt
            · exact hlt.trans (hn₁ e he)
        · have := h j
          rw [Sparse.get_of_lt (m := (i, u) :: rest)] at this
          · simp only [Sparse.get, if_true] at this; exact hv this.symm
          · intro e he
            rcases List.mem_cons.mp he with rfl | he
            · exact hlt
            · exact hlt.trans (hm₁ e he)
      subst hij
      have huv : u = v := by have := h i; simpa only [Sparse.get, if_true] using this
      subst huv
      have hrest : rest = rest' := by
        refine ih (Sparse.wf_iff.mpr ⟨hm₂, fun e he => hmz e (by simp [he])⟩)
          (Sparse.wf_iff.mpr ⟨hn₂, fun e he => hnz e (by simp [he])⟩) (fun k => ?_)
        by_cases hk : i = k
        · subst hk; rw [Sparse.get_of_lt hm₁, Sparse.get_of_lt hn₁]
        · have := h k; simpa only [Sparse.get, hk, if_false] using this
      rw [hrest]

/-- Reading a byte after a byte write (20_memory.md R54). -/
@[simp] theorem Memory.byte_setByte (m : Memory) (a j : Nat) (b : Byte) :
    Memory.byte (Memory.setByte m a b) j = if j = a then b else Memory.byte m j :=
  Sparse.get_set m a j b

/-- A byte write keeps memory canonical. -/
theorem Memory.wf_setByte {m : Memory} (a : Nat) (b : Byte) (h : Memory.wf m = true) :
    Memory.wf (Memory.setByte m a b) = true := Sparse.wf_set a b h

theorem mem_insertIndex {i j : RegIdx} {l : List RegIdx} :
    j ∈ addIndex.insertIndex i l ↔ j = i ∨ j ∈ l := by
  induction l with
  | nil => simp [addIndex.insertIndex]
  | cons k rest ih =>
    unfold addIndex.insertIndex
    split
    · simp
    · simp only [List.mem_cons, ih]; tauto

/-- Membership in the written set after a write (R34). -/
@[simp] theorem mem_addIndex {i j : RegIdx} {l : List RegIdx} : j ∈ addIndex i l ↔ j = i ∨ j ∈ l := by
  unfold addIndex
  split
  · next h =>
    have : i ∈ l := by simpa using h
    constructor
    · exact .inr
    · rintro (rfl | h)
      · exact this
      · exact h
  · exact mem_insertIndex

/-- Storing to a register already in `W` leaves `W` unchanged (R141). -/
theorem addIndex_of_mem {i : RegIdx} {l : List RegIdx} (h : i ∈ l) : addIndex i l = l := by
  unfold addIndex; rw [if_pos (by simpa using h)]

theorem risingIndices_cons {j : RegIdx} {rest : List RegIdx} :
    risingIndices (j :: rest) = true ↔ (∀ i ∈ rest, j.toNat < i.toNat) ∧ risingIndices rest = true := by
  simp [risingIndices]

theorem rising_insertIndex {i : RegIdx} {l : List RegIdx} (h : risingIndices l = true)
    (hi : i ∉ l) : risingIndices (addIndex.insertIndex i l) = true := by
  induction l with
  | nil => simp [addIndex.insertIndex, risingIndices]
  | cons k rest ih =>
    obtain ⟨h₁, h₂⟩ := risingIndices_cons.mp h
    unfold addIndex.insertIndex
    split
    · next hlt =>
      refine risingIndices_cons.mpr ⟨fun e he => ?_, h⟩
      rcases List.mem_cons.mp he with rfl | he
      · exact hlt
      · exact hlt.trans (h₁ e he)
    · next hge =>
      have hne : i.toNat ≠ k.toNat := fun h => hi (by simp [BitVec.eq_of_toNat_eq h])
      refine risingIndices_cons.mpr ⟨fun e he => ?_, ih h₂ (fun hm => hi (by simp [hm]))⟩
      rcases mem_insertIndex.mp he with rfl | he
      · omega
      · exact h₁ e he

/-- A write keeps the written set's list rising. -/
theorem rising_addIndex {i : RegIdx} {l : List RegIdx} (h : risingIndices l = true) :
    risingIndices (addIndex i l) = true := by
  unfold addIndex
  split
  · exact h
  · next hc => exact rising_insertIndex h (by simpa using hc)

end Sys2Proof.Machine
end

