-- ==== Sys2Proof/Laws/State.lean ====
section
/-! SUPPORT. One lemma per field per update of the state, each true by rfl: no later proof unfolds a record
update. -/

namespace Sys2Proof.Machine

variable (s : State)

@[simp] theorem State.writeA_config (v : Word) : (s.writeA v).config = s.config := rfl
@[simp] theorem State.writeA_a (v : Word) : (s.writeA v).a = wrap s.config.xlen v := rfl
@[simp] theorem State.writeA_ar (v : Word) : (s.writeA v).ar = s.ar := rfl
@[simp] theorem State.writeA_x (v : Word) : (s.writeA v).x = s.x := rfl
@[simp] theorem State.writeA_pc (v : Word) : (s.writeA v).pc = s.pc := rfl
@[simp] theorem State.writeA_entry (v : Word) : (s.writeA v).entry = s.entry := rfl
@[simp] theorem State.writeA_textSize (v : Word) : (s.writeA v).textSize = s.textSize := rfl
@[simp] theorem State.writeA_nExec (v : Word) : (s.writeA v).nExec = s.nExec := rfl
@[simp] theorem State.writeA_trace (v : Word) : (s.writeA v).trace = s.trace := rfl
@[simp] theorem State.writeA_written (v : Word) : (s.writeA v).written = s.written := rfl
@[simp] theorem State.writeA_initA (v : Word) : (s.writeA v).initA = true := rfl
@[simp] theorem State.writeA_initAr (v : Word) : (s.writeA v).initAr = s.initAr := rfl
@[simp] theorem State.writeA_initX (v : Word) : (s.writeA v).initX = s.initX := rfl
@[simp] theorem State.writeA_out (v : Word) : (s.writeA v).out = s.out := rfl
@[simp] theorem State.writeA_status (v : Word) : (s.writeA v).status = s.status := rfl
@[simp] theorem State.writeA_mem (v : Word) : (s.writeA v).mem = s.mem := rfl

@[simp] theorem State.writeAr_config (v : Word) : (s.writeAr v).config = s.config := rfl
@[simp] theorem State.writeAr_a (v : Word) : (s.writeAr v).a = s.a := rfl
@[simp] theorem State.writeAr_ar (v : Word) : (s.writeAr v).ar = wrap s.config.xlen v := rfl
@[simp] theorem State.writeAr_x (v : Word) : (s.writeAr v).x = s.x := rfl
@[simp] theorem State.writeAr_pc (v : Word) : (s.writeAr v).pc = s.pc := rfl
@[simp] theorem State.writeAr_entry (v : Word) : (s.writeAr v).entry = s.entry := rfl
@[simp] theorem State.writeAr_textSize (v : Word) : (s.writeAr v).textSize = s.textSize := rfl
@[simp] theorem State.writeAr_nExec (v : Word) : (s.writeAr v).nExec = s.nExec := rfl
@[simp] theorem State.writeAr_trace (v : Word) : (s.writeAr v).trace = s.trace := rfl
@[simp] theorem State.writeAr_written (v : Word) : (s.writeAr v).written = s.written := rfl
@[simp] theorem State.writeAr_initA (v : Word) : (s.writeAr v).initA = s.initA := rfl
@[simp] theorem State.writeAr_initAr (v : Word) : (s.writeAr v).initAr = true := rfl
@[simp] theorem State.writeAr_initX (v : Word) : (s.writeAr v).initX = s.initX := rfl
@[simp] theorem State.writeAr_out (v : Word) : (s.writeAr v).out = s.out := rfl
@[simp] theorem State.writeAr_status (v : Word) : (s.writeAr v).status = s.status := rfl
@[simp] theorem State.writeAr_mem (v : Word) : (s.writeAr v).mem = s.mem := rfl

@[simp] theorem State.writeX_config (i : RegIdx) (v : Word) : (s.writeX i v).config = s.config := rfl
@[simp] theorem State.writeX_a (i : RegIdx) (v : Word) : (s.writeX i v).a = s.a := rfl
@[simp] theorem State.writeX_ar (i : RegIdx) (v : Word) : (s.writeX i v).ar = s.ar := rfl
@[simp] theorem State.writeX_x (i : RegIdx) (v : Word) : (s.writeX i v).x = Sparse.set s.x i.toNat (wrap s.config.xlen v) := rfl
@[simp] theorem State.writeX_pc (i : RegIdx) (v : Word) : (s.writeX i v).pc = s.pc := rfl
@[simp] theorem State.writeX_entry (i : RegIdx) (v : Word) : (s.writeX i v).entry = s.entry := rfl
@[simp] theorem State.writeX_textSize (i : RegIdx) (v : Word) : (s.writeX i v).textSize = s.textSize := rfl
@[simp] theorem State.writeX_nExec (i : RegIdx) (v : Word) : (s.writeX i v).nExec = s.nExec := rfl
@[simp] theorem State.writeX_trace (i : RegIdx) (v : Word) : (s.writeX i v).trace = s.trace := rfl
@[simp] theorem State.writeX_written (i : RegIdx) (v : Word) : (s.writeX i v).written = addIndex i s.written := rfl
@[simp] theorem State.writeX_initA (i : RegIdx) (v : Word) : (s.writeX i v).initA = s.initA := rfl
@[simp] theorem State.writeX_initAr (i : RegIdx) (v : Word) : (s.writeX i v).initAr = s.initAr := rfl
@[simp] theorem State.writeX_initX (i : RegIdx) (v : Word) : (s.writeX i v).initX = s.initX ||| (1#256 <<< i.toNat) := rfl
@[simp] theorem State.writeX_out (i : RegIdx) (v : Word) : (s.writeX i v).out = s.out := rfl
@[simp] theorem State.writeX_status (i : RegIdx) (v : Word) : (s.writeX i v).status = s.status := rfl
@[simp] theorem State.writeX_mem (i : RegIdx) (v : Word) : (s.writeX i v).mem = s.mem := rfl

@[simp] theorem State.setPc_config (v : Word) : (s.setPc v).config = s.config := rfl
@[simp] theorem State.setPc_a (v : Word) : (s.setPc v).a = s.a := rfl
@[simp] theorem State.setPc_ar (v : Word) : (s.setPc v).ar = s.ar := rfl
@[simp] theorem State.setPc_x (v : Word) : (s.setPc v).x = s.x := rfl
@[simp] theorem State.setPc_pc (v : Word) : (s.setPc v).pc = wrap s.config.xlen v := rfl
@[simp] theorem State.setPc_entry (v : Word) : (s.setPc v).entry = s.entry := rfl
@[simp] theorem State.setPc_textSize (v : Word) : (s.setPc v).textSize = s.textSize := rfl
@[simp] theorem State.setPc_nExec (v : Word) : (s.setPc v).nExec = s.nExec := rfl
@[simp] theorem State.setPc_trace (v : Word) : (s.setPc v).trace = s.trace := rfl
@[simp] theorem State.setPc_written (v : Word) : (s.setPc v).written = s.written := rfl
@[simp] theorem State.setPc_initA (v : Word) : (s.setPc v).initA = s.initA := rfl
@[simp] theorem State.setPc_initAr (v : Word) : (s.setPc v).initAr = s.initAr := rfl
@[simp] theorem State.setPc_initX (v : Word) : (s.setPc v).initX = s.initX := rfl
@[simp] theorem State.setPc_out (v : Word) : (s.setPc v).out = s.out := rfl
@[simp] theorem State.setPc_status (v : Word) : (s.setPc v).status = s.status := rfl
@[simp] theorem State.setPc_mem (v : Word) : (s.setPc v).mem = s.mem := rfl

@[simp] theorem State.halt_config (r : RunResult) : (s.halt r).config = s.config := rfl
@[simp] theorem State.halt_a (r : RunResult) : (s.halt r).a = s.a := rfl
@[simp] theorem State.halt_ar (r : RunResult) : (s.halt r).ar = s.ar := rfl
@[simp] theorem State.halt_x (r : RunResult) : (s.halt r).x = s.x := rfl
@[simp] theorem State.halt_pc (r : RunResult) : (s.halt r).pc = s.pc := rfl
@[simp] theorem State.halt_entry (r : RunResult) : (s.halt r).entry = s.entry := rfl
@[simp] theorem State.halt_textSize (r : RunResult) : (s.halt r).textSize = s.textSize := rfl
@[simp] theorem State.halt_nExec (r : RunResult) : (s.halt r).nExec = s.nExec := rfl
@[simp] theorem State.halt_trace (r : RunResult) : (s.halt r).trace = s.trace := rfl
@[simp] theorem State.halt_written (r : RunResult) : (s.halt r).written = s.written := rfl
@[simp] theorem State.halt_initA (r : RunResult) : (s.halt r).initA = s.initA := rfl
@[simp] theorem State.halt_initAr (r : RunResult) : (s.halt r).initAr = s.initAr := rfl
@[simp] theorem State.halt_initX (r : RunResult) : (s.halt r).initX = s.initX := rfl
@[simp] theorem State.halt_out (r : RunResult) : (s.halt r).out = s.out := rfl
@[simp] theorem State.halt_status (r : RunResult) : (s.halt r).status = .halted r := rfl
@[simp] theorem State.halt_mem (r : RunResult) : (s.halt r).mem = s.mem := rfl

@[simp] theorem State.memWrite_config (v : Word) (n : Nat) (w : Word) : (s.memWrite v n w).config = s.config := rfl
@[simp] theorem State.memWrite_a (v : Word) (n : Nat) (w : Word) : (s.memWrite v n w).a = s.a := rfl
@[simp] theorem State.memWrite_ar (v : Word) (n : Nat) (w : Word) : (s.memWrite v n w).ar = s.ar := rfl
@[simp] theorem State.memWrite_x (v : Word) (n : Nat) (w : Word) : (s.memWrite v n w).x = s.x := rfl
@[simp] theorem State.memWrite_pc (v : Word) (n : Nat) (w : Word) : (s.memWrite v n w).pc = s.pc := rfl
@[simp] theorem State.memWrite_entry (v : Word) (n : Nat) (w : Word) : (s.memWrite v n w).entry = s.entry := rfl
@[simp] theorem State.memWrite_textSize (v : Word) (n : Nat) (w : Word) : (s.memWrite v n w).textSize = s.textSize := rfl
@[simp] theorem State.memWrite_nExec (v : Word) (n : Nat) (w : Word) : (s.memWrite v n w).nExec = s.nExec := rfl
@[simp] theorem State.memWrite_trace (v : Word) (n : Nat) (w : Word) : (s.memWrite v n w).trace = s.trace := rfl
@[simp] theorem State.memWrite_written (v : Word) (n : Nat) (w : Word) : (s.memWrite v n w).written = s.written := rfl
@[simp] theorem State.memWrite_initA (v : Word) (n : Nat) (w : Word) : (s.memWrite v n w).initA = s.initA := rfl
@[simp] theorem State.memWrite_initAr (v : Word) (n : Nat) (w : Word) : (s.memWrite v n w).initAr = s.initAr := rfl
@[simp] theorem State.memWrite_initX (v : Word) (n : Nat) (w : Word) : (s.memWrite v n w).initX = s.initX := rfl
@[simp] theorem State.memWrite_out (v : Word) (n : Nat) (w : Word) : (s.memWrite v n w).out = s.out := rfl
@[simp] theorem State.memWrite_status (v : Word) (n : Nat) (w : Word) : (s.memWrite v n w).status = s.status := rfl
@[simp] theorem State.memWrite_mem (v : Word) (n : Nat) (w : Word) : (s.memWrite v n w).mem = storeBytes s.config.xlen s.mem v w n := rfl

@[simp] theorem State.emit_config (b : Byte) : (s.emit b).config = s.config := rfl
@[simp] theorem State.emit_a (b : Byte) : (s.emit b).a = s.a := rfl
@[simp] theorem State.emit_ar (b : Byte) : (s.emit b).ar = s.ar := rfl
@[simp] theorem State.emit_x (b : Byte) : (s.emit b).x = s.x := rfl
@[simp] theorem State.emit_pc (b : Byte) : (s.emit b).pc = s.pc := rfl
@[simp] theorem State.emit_entry (b : Byte) : (s.emit b).entry = s.entry := rfl
@[simp] theorem State.emit_textSize (b : Byte) : (s.emit b).textSize = s.textSize := rfl
@[simp] theorem State.emit_nExec (b : Byte) : (s.emit b).nExec = s.nExec := rfl
@[simp] theorem State.emit_trace (b : Byte) : (s.emit b).trace = s.trace := rfl
@[simp] theorem State.emit_written (b : Byte) : (s.emit b).written = s.written := rfl
@[simp] theorem State.emit_initA (b : Byte) : (s.emit b).initA = s.initA := rfl
@[simp] theorem State.emit_initAr (b : Byte) : (s.emit b).initAr = s.initAr := rfl
@[simp] theorem State.emit_initX (b : Byte) : (s.emit b).initX = s.initX := rfl
@[simp] theorem State.emit_out (b : Byte) : (s.emit b).out = s.out ++ [b] := rfl
@[simp] theorem State.emit_status (b : Byte) : (s.emit b).status = s.status := rfl
@[simp] theorem State.emit_mem (b : Byte) : (s.emit b).mem = s.mem := rfl

@[simp] theorem State.recordFetch_config : s.recordFetch.config = s.config := rfl
@[simp] theorem State.recordFetch_a : s.recordFetch.a = s.a := rfl
@[simp] theorem State.recordFetch_ar : s.recordFetch.ar = s.ar := rfl
@[simp] theorem State.recordFetch_x : s.recordFetch.x = s.x := rfl
@[simp] theorem State.recordFetch_pc : s.recordFetch.pc = s.pc := rfl
@[simp] theorem State.recordFetch_entry : s.recordFetch.entry = s.entry := rfl
@[simp] theorem State.recordFetch_textSize : s.recordFetch.textSize = s.textSize := rfl
@[simp] theorem State.recordFetch_nExec : s.recordFetch.nExec = s.nExec := rfl
@[simp] theorem State.recordFetch_trace : s.recordFetch.trace = (s.pc :: s.trace).take traceDepth := rfl
@[simp] theorem State.recordFetch_written : s.recordFetch.written = s.written := rfl
@[simp] theorem State.recordFetch_initA : s.recordFetch.initA = s.initA := rfl
@[simp] theorem State.recordFetch_initAr : s.recordFetch.initAr = s.initAr := rfl
@[simp] theorem State.recordFetch_initX : s.recordFetch.initX = s.initX := rfl
@[simp] theorem State.recordFetch_out : s.recordFetch.out = s.out := rfl
@[simp] theorem State.recordFetch_status : s.recordFetch.status = s.status := rfl
@[simp] theorem State.recordFetch_mem : s.recordFetch.mem = s.mem := rfl

@[simp] theorem State.count_config : s.count.config = s.config := rfl
@[simp] theorem State.count_a : s.count.a = s.a := rfl
@[simp] theorem State.count_ar : s.count.ar = s.ar := rfl
@[simp] theorem State.count_x : s.count.x = s.x := rfl
@[simp] theorem State.count_pc : s.count.pc = s.pc := rfl
@[simp] theorem State.count_entry : s.count.entry = s.entry := rfl
@[simp] theorem State.count_textSize : s.count.textSize = s.textSize := rfl
@[simp] theorem State.count_nExec : s.count.nExec = s.nExec + 1 := rfl
@[simp] theorem State.count_trace : s.count.trace = s.trace := rfl
@[simp] theorem State.count_written : s.count.written = s.written := rfl
@[simp] theorem State.count_initA : s.count.initA = s.initA := rfl
@[simp] theorem State.count_initAr : s.count.initAr = s.initAr := rfl
@[simp] theorem State.count_initX : s.count.initX = s.initX := rfl
@[simp] theorem State.count_out : s.count.out = s.out := rfl
@[simp] theorem State.count_status : s.count.status = s.status := rfl
@[simp] theorem State.count_mem : s.count.mem = s.mem := rfl

@[simp] theorem State.beginCycle_config : s.beginCycle.config = s.config := rfl
@[simp] theorem State.beginCycle_a : s.beginCycle.a = s.a := rfl
@[simp] theorem State.beginCycle_ar : s.beginCycle.ar = s.ar := rfl
@[simp] theorem State.beginCycle_x : s.beginCycle.x = s.x := rfl
@[simp] theorem State.beginCycle_pc : s.beginCycle.pc = s.pc := rfl
@[simp] theorem State.beginCycle_entry : s.beginCycle.entry = s.entry := rfl
@[simp] theorem State.beginCycle_textSize : s.beginCycle.textSize = s.textSize := rfl
@[simp] theorem State.beginCycle_nExec : s.beginCycle.nExec = s.nExec + 1 := rfl
@[simp] theorem State.beginCycle_trace : s.beginCycle.trace = (s.pc :: s.trace).take traceDepth := rfl
@[simp] theorem State.beginCycle_written : s.beginCycle.written = s.written := rfl
@[simp] theorem State.beginCycle_initA : s.beginCycle.initA = s.initA := rfl
@[simp] theorem State.beginCycle_initAr : s.beginCycle.initAr = s.initAr := rfl
@[simp] theorem State.beginCycle_initX : s.beginCycle.initX = s.initX := rfl
@[simp] theorem State.beginCycle_out : s.beginCycle.out = s.out := rfl
@[simp] theorem State.beginCycle_status : s.beginCycle.status = s.status := rfl
@[simp] theorem State.beginCycle_mem : s.beginCycle.mem = s.mem := rfl

end Sys2Proof.Machine
end

