-- ==== Sys2Proof/Laws/Values.lean ====
section
/-! SUPPORT. Laws of the value operations (Machine/Values.lean): what `wrap` keeps, in numbers and in bits. -/

namespace Sys2Proof.Machine

theorem bits_le (x : Xlen) : x.bits ≤ 64 := by cases x <;> decide

theorem wrap_toNat (x : Xlen) (v : Word) : (wrap x v).toNat = v.toNat % 2 ^ x.bits := by
  cases x
  · simp [wrap, Xlen.bits]; omega
  · exact (Nat.mod_eq_of_lt v.isLt).symm

theorem wrap_getLsbD (x : Xlen) (v : Word) (i : Nat) :
    (wrap x v).getLsbD i = (decide (i < x.bits) && v.getLsbD i) := by
  cases x
  · simp only [wrap, Xlen.bits, BitVec.getLsbD_setWidth]
    by_cases h : i < 32 <;> simp [h]; omega
  · by_cases h : i < 64
    · simp [wrap, Xlen.bits, h]
    · simp [wrap, Xlen.bits, h, BitVec.getLsbD_of_ge v i (by omega)]

theorem wrap_fits (x : Xlen) (v : Word) : fits x (wrap x v) := by
  unfold fits; rw [wrap_toNat]; exact Nat.mod_lt _ (Nat.two_pow_pos _)

theorem wrap_of_fits {x : Xlen} {v : Word} (h : fits x v) : wrap x v = v := by
  apply BitVec.eq_of_toNat_eq; rw [wrap_toNat]; exact Nat.mod_eq_of_lt h

@[simp] theorem wrap_wrap (x : Xlen) (v : Word) : wrap x (wrap x v) = wrap x v :=
  wrap_of_fits (wrap_fits x v)

@[simp] theorem wrap_zero (x : Xlen) : wrap x 0 = 0 := by cases x <;> rfl

theorem fits_zero (x : Xlen) : fits x 0 := by unfold fits; exact Nat.two_pow_pos _

/-- Addition modulo `2^XLEN`, in numbers (R9). -/
theorem wrap_add_toNat (x : Xlen) (a b : Word) :
    (wrap x (a + b)).toNat = (a.toNat + b.toNat) % 2 ^ x.bits := by
  rw [wrap_toNat, BitVec.toNat_add]; exact Nat.mod_mod_of_dvd _ (Nat.pow_dvd_pow 2 (bits_le x))

/-- The integer residue of a word's sum with an extended value, modulo `2^XLEN` (R9, R51). -/
theorem wrap_ofInt_toNat (x : Xlen) (n : Int) : ((wrap x (BitVec.ofInt 64 n)).toNat : Int) = n % 2 ^ x.bits := by
  rw [wrap_toNat, Int.natCast_mod, BitVec.toNat_ofInt]
  have h : ((n % ((2 ^ 64 : Nat) : Int)).toNat : Int) = n % ((2 ^ 64 : Nat) : Int) :=
    Int.toNat_of_nonneg (Int.emod_nonneg _ (by decide))
  rw [h]
  rw [Int.emod_emod_of_dvd n (Int.natCast_dvd_natCast.mpr (Nat.pow_dvd_pow 2 (bits_le x)))]
  push_cast; rfl

/-! Residues modulo `2^XLEN` as integers: the storage's 64-bit arithmetic agrees with the machine word's. -/

theorem modulus_dvd (x : Xlen) : ((2 : Int) ^ x.bits) ∣ 2 ^ 64 := by
  cases x <;> decide

theorem wrap_toNat_int (x : Xlen) (v : Word) : ((wrap x v).toNat : Int) = v.toNat % 2 ^ x.bits := by
  rw [wrap_toNat]; push_cast; rfl

theorem toNat_add_emod (x : Xlen) (a b : Word) :
    ((a + b).toNat : Int) % 2 ^ x.bits = (a.toNat + b.toNat) % 2 ^ x.bits := by
  rw [BitVec.toNat_add]; push_cast; exact Int.emod_emod_of_dvd _ (modulus_dvd x)

theorem toNat_sub_emod (x : Xlen) (a b : Word) :
    ((a - b).toNat : Int) % 2 ^ x.bits = (a.toNat - b.toNat) % 2 ^ x.bits := by
  have hb := b.isLt
  have h : ((a - b).toNat : Int) = (a.toNat - b.toNat) % 2 ^ 64 := by
    rw [BitVec.toNat_sub]; omega
  rw [h]; exact Int.emod_emod_of_dvd _ (modulus_dvd x)

theorem toNat_ofInt_emod (x : Xlen) (n : Int) :
    ((BitVec.ofInt 64 n).toNat : Int) % 2 ^ x.bits = n % 2 ^ x.bits := by
  rw [← wrap_toNat_int, wrap_ofInt_toNat]

/-- A sign-extended field is its signed value. -/
theorem signExtend_eq_ofInt {n : Nat} (hn : n ≤ 64) (v : BitVec n) :
    v.signExtend 64 = BitVec.ofInt 64 v.toInt := by
  apply BitVec.eq_of_toInt_eq
  rw [BitVec.toInt_signExtend_of_le hn, BitVec.toInt_ofInt]
  rcases Nat.eq_zero_or_pos n with rfl | hp
  · simp [BitVec.toInt_zero_length]
  have h1 := BitVec.two_mul_toInt_lt (x := v)
  have h2 := BitVec.le_two_mul_toInt (x := v)
  have h3 : (2 : Nat) ^ n ≤ 2 ^ 64 := Nat.pow_le_pow_right (by decide) hn
  have h4 : ((2 : Nat) ^ n : Int) ≤ ((2 : Nat) ^ 64 : Int) := by exact_mod_cast h3
  symm
  apply Int.bmod_eq_of_le <;> push_cast at * <;> omega

theorem toNat_signExtend_emod (x : Xlen) {n : Nat} (hn : n ≤ 64) (v : BitVec n) :
    ((v.signExtend 64).toNat : Int) % 2 ^ x.bits = v.toInt % 2 ^ x.bits := by
  rw [signExtend_eq_ofInt hn, toNat_ofInt_emod]

/-- `wrap` depends only on the residue of the value modulo `2^XLEN`. -/
theorem wrap_eq_of_toInt {x : Xlen} {v : Word} {n : Int} (h : v = BitVec.ofInt 64 n) :
    ((wrap x v).toNat : Int) = n % 2 ^ x.bits := by
  rw [h, wrap_ofInt_toNat]

/-- A word as the image of its unsigned reading. -/
theorem ofInt_toNat (v : Word) : BitVec.ofInt 64 (v.toNat : Int) = v := by
  rw [BitVec.ofInt_natCast]; exact BitVec.ofNat_toNat 64 v |>.trans (by simp)

@[simp] theorem isNonZero_eq (x : Xlen) (v : Word) : isNonZero x v = !isZero x v := rfl

theorem isNegative_eq (x : Xlen) (v : Word) : isNegative x v = !isNonNegative x v := by
  unfold isNegative isNonNegative
  by_cases h : 0 ≤ signed x v
  · simp [h]
  · simp [h]; omega

end Sys2Proof.Machine
end

