-- ==== Sys2Proof/Laws/Memory.lean ====
section
/-! SUPPORT. Laws of `MemRead` and `MemWrite` (20_memory.md R53, R54, R56): which bytes a write sets, that it
sets no other, that a read gives the bytes, and the canonical form kept. -/

namespace Sys2Proof.Machine

theorem byteAddress_eq (x : Xlen) (addr : Word) (i : Nat) :
    byteAddress x addr i = (addr.toNat + i) % 2 ^ x.bits := by
  unfold byteAddress
  rw [wrap_add_toNat, BitVec.toNat_ofNat]
  have h : (2 : Nat) ^ x.bits ∣ 2 ^ 64 := Nat.pow_dvd_pow 2 (bits_le x)
  rw [Nat.add_mod, Nat.mod_mod_of_dvd _ h, ← Nat.add_mod]

theorem byteAddress_lt (x : Xlen) (addr : Word) (i : Nat) : byteAddress x addr i < 2 ^ x.bits := by
  rw [byteAddress_eq]; exact Nat.mod_lt _ (Nat.two_pow_pos _)

/-- The bytes of one access lie at different addresses. -/
theorem byteAddress_inj (x : Xlen) (addr : Word) {i j : Nat} (hi : i < 8) (hj : j < 8)
    (h : byteAddress x addr i = byteAddress x addr j) : i = j := by
  rw [byteAddress_eq, byteAddress_eq] at h
  cases x <;> simp only [Xlen.bits] at h <;> omega

/-- A write leaves every byte outside its own alone (R54). -/
theorem storeBytes_other (x : Xlen) (m : Memory) (addr v : Word) (n a : Nat)
    (h : ∀ j < n, a ≠ byteAddress x addr j) : Memory.byte (storeBytes x m addr v n) a = Memory.byte m a := by
  induction n with
  | zero => rfl
  | succ n ih =>
    rw [storeBytes, Memory.byte_setByte, if_neg (h n (by omega))]
    exact ih (fun j hj => h j (by omega))

/-- A write sets byte `j` of the access to byte `j` of the value (R54). -/
theorem storeBytes_byte (x : Xlen) (m : Memory) (addr v : Word) {n j : Nat} (hn : n ≤ 8) (hj : j < n) :
    Memory.byte (storeBytes x m addr v n) (byteAddress x addr j) = v.extractLsb' (8 * j) 8 := by
  induction n with
  | zero => omega
  | succ n ih =>
    rw [storeBytes, Memory.byte_setByte]
    split
    · next h => rw [byteAddress_inj x addr (by omega) (by omega) h]
    · next h =>
      have : j ≠ n := fun e => h (by rw [e])
      exact ih (by omega) (by omega)

/-- A write keeps memory canonical. -/
theorem storeBytes_wf (x : Xlen) (m : Memory) (addr v : Word) (n : Nat) (h : Memory.wf m = true) :
    Memory.wf (storeBytes x m addr v n) = true := by
  induction n with
  | zero => exact h
  | succ n ih => exact Memory.wf_setByte _ _ ih

/-- A write lists only `XLEN`-bit addresses. -/
theorem storeBytes_fits (x : Xlen) (m : Memory) (addr v : Word) (n : Nat)
    (h : ∀ e ∈ m, e.1 < 2 ^ x.bits) : ∀ e ∈ storeBytes x m addr v n, e.1 < 2 ^ x.bits := by
  induction n with
  | zero => exact h
  | succ n ih =>
    intro e he
    rcases Sparse.mem_set he with rfl | he
    · exact byteAddress_lt x addr n
    · exact ih e he

/-- The placed bytes keep memory canonical (R282). -/
theorem placeBytes_wf (x : Xlen) (m : Memory) (addr : Word) (l : List Byte) (h : Memory.wf m = true) :
    Memory.wf (placeBytes x m addr l) = true := by
  induction l generalizing m addr with
  | nil => exact h
  | cons b rest ih => exact ih _ _ (Memory.wf_setByte _ _ h)

/-- The placed regions keep memory canonical (R283). -/
theorem placeRegions_wf (x : Xlen) (m : Memory) (l : List ElfRegion) (h : Memory.wf m = true) :
    Memory.wf (placeRegions x m l) = true := by
  induction l generalizing m with
  | nil => exact h
  | cons r rest ih => exact ih _ (placeBytes_wf x m r.address r.bytes h)

/-- A read of `n` bytes is below `2^(8n)` (R53). -/
theorem memRead_lt (s : State) (addr : Word) (n : Nat) : s.memRead addr n < 2 ^ (8 * n) := by
  induction n with
  | zero => simp [State.memRead]
  | succ n ih =>
    rw [State.memRead]
    have hb := (Memory.byte s.mem (byteAddress s.config.xlen addr n)).isLt
    have e : (2 : Nat) ^ (8 * (n + 1)) = 2 ^ (8 * n) * 2 ^ 8 := by rw [← pow_add]; rfl
    rw [e]
    nlinarith [Nat.two_pow_pos (8 * n)]

/-- Byte `j` of a read is the byte at address `j` of the access (R53). -/
theorem memRead_byte (s : State) (addr : Word) {n j : Nat} (h : j < n) :
    s.memRead addr n / 2 ^ (8 * j) % 256 = (Memory.byte s.mem (byteAddress s.config.xlen addr j)).toNat := by
  induction n with
  | zero => omega
  | succ n ih =>
    rw [State.memRead]
    by_cases hj : j = n
    · subst hj
      have hb := (Memory.byte s.mem (byteAddress s.config.xlen addr j)).isLt
      rw [Nat.add_mul_div_right _ _ (Nat.two_pow_pos _), Nat.div_eq_of_lt (memRead_lt s addr j), Nat.zero_add]
      exact Nat.mod_eq_of_lt hb
    · rw [← ih (by omega)]
      have e : (2 : Nat) ^ (8 * n) = 2 ^ (8 * (n - j - 1)) * 256 * 2 ^ (8 * j) := by
        rw [show (256 : Nat) = 2 ^ 8 from rfl, ← pow_add, ← pow_add]; congr 1; omega
      rw [e, ← Nat.mul_assoc, Nat.add_mul_div_right _ _ (Nat.two_pow_pos _), ← Nat.mul_assoc,
        Nat.add_mul_mod_self_right]

/-- Two states whose memories read alike at an access read the same value there. -/
theorem memRead_congr (s t : State) (addr : Word) (n : Nat) (hx : t.config.xlen = s.config.xlen)
    (h : ∀ j < n, Memory.byte t.mem (byteAddress s.config.xlen addr j)
      = Memory.byte s.mem (byteAddress s.config.xlen addr j)) : t.memRead addr n = s.memRead addr n := by
  induction n with
  | zero => rfl
  | succ n ih => rw [State.memRead, State.memRead, ih (fun j hj => h j (by omega)), hx, h n (by omega)]

/-- Reading what was just written gives the low bytes of the value (R53, R54). -/
theorem memRead_memWrite (s : State) (addr v : Word) {n : Nat} (hn : n ≤ 8) :
    (s.memWrite addr n v).memRead addr n = v.toNat % 2 ^ (8 * n) := by
  suffices h : ∀ k ≤ n, (s.memWrite addr n v).memRead addr k = v.toNat % 2 ^ (8 * k) from h n le_rfl
  intro k hk
  induction k with
  | zero => simp [State.memRead, Nat.mod_one]
  | succ k ih =>
    rw [State.memRead, ih (by omega)]
    simp only [State.memWrite_mem, State.memWrite_config]
    rw [storeBytes_byte _ _ _ _ hn (by omega), BitVec.extractLsb'_toNat, Nat.shiftRight_eq_div_pow,
      show 8 * (k + 1) = 8 * k + 8 from by ring, Nat.pow_add, Nat.mod_mul, Nat.mul_comm (2 ^ (8 * k))]

end Sys2Proof.Machine
end

