-- ==== Sys2Proof/Laws/Ops.lean ====
section
/-! SUPPORT. One lemma per shared operation that says everything it can do: the checked read, the writes as the
reads see them, and every shape a meaning has. Provers cite these instead of unfolding the operations. -/

namespace Sys2Proof.Machine

/-- The checked read of a marked location (R103). -/
theorem read_of_initialised {s : State} {l : Loc} (h : s.initialised l = true) :
    s.read l = .ok (s.stored l) := by
  unfold State.read; rw [if_pos h]

/-- The checked read of an unmarked location under `UNINIT_POLICY = fault` (R103). -/
theorem read_fault {s : State} {l : Loc} (h : s.initialised l = false) (hp : s.config.uninit = .fault) :
    s.read l = .error (.uninitialisedRead l) := by
  unfold State.read; rw [if_neg (by simp [h]), hp]

/-- The checked read of an unmarked location under `UNINIT_POLICY = zero` (R103). -/
theorem read_zero {s : State} {l : Loc} (h : s.initialised l = false) (hp : s.config.uninit = .zero) :
    s.read l = .ok 0 := by
  unfold State.read; rw [if_neg (by simp [h]), hp]

/-- Everything a checked read can answer. -/
theorem read_cases (s : State) (l : Loc) :
    (s.initialised l = true ∧ s.read l = .ok (s.stored l)) ∨
    (s.initialised l = false ∧ s.config.uninit = .zero ∧ s.read l = .ok 0) ∨
    (s.initialised l = false ∧ s.config.uninit = .fault ∧ s.read l = .error (.uninitialisedRead l)) := by
  rcases h : s.initialised l with _ | _
  · rcases hp : s.config.uninit with _ | _
    · exact .inr (.inr ⟨rfl, rfl, read_fault h hp⟩)
    · exact .inr (.inl ⟨rfl, rfl, read_zero h hp⟩)
  · exact .inl ⟨rfl, read_of_initialised h⟩

/-- The only error of a checked read is the unwritten location under `UNINIT_POLICY = fault` (R103). -/
theorem read_error {s : State} {l : Loc} {e : Error} (h : s.read l = .error e) :
    e = .uninitialisedRead l ∧ s.initialised l = false ∧ s.config.uninit = .fault := by
  rcases read_cases s l with ⟨_, hr⟩ | ⟨_, _, hr⟩ | ⟨hi, hp, hr⟩ <;> rw [hr] at h
  · cases h
  · cases h
  · cases h; exact ⟨rfl, hi, hp⟩

theorem stored_fits (s : State) (l : Loc) : fits s.config.xlen (s.stored l) := by
  cases l <;> exact wrap_fits _ _

/-- A checked read gives an `XLEN`-bit word. -/
theorem read_fits {s : State} {l : Loc} {v : Word} (h : s.read l = .ok v) : fits s.config.xlen v := by
  rcases read_cases s l with ⟨_, hr⟩ | ⟨_, _, hr⟩ | ⟨_, _, hr⟩ <;> rw [hr] at h <;> cases h
  · exact stored_fits s l
  · exact fits_zero _

/-- A meaning that begins with a checked read either goes on with the value or takes the error. -/
theorem withRead_ok {s : State} {l : Loc} {v : Word} {k : Word → Answer} (h : s.read l = .ok v) :
    s.withRead l k = k v := by
  unfold State.withRead; rw [h]

theorem withRead_error {s : State} {l : Loc} {e : Error} {k : Word → Answer} (h : s.read l = .error e) :
    s.withRead l k = .next (s.halt (.error e)) := by
  unfold State.withRead; rw [h]; rfl

/-- Everything a meaning that begins with a checked read can do. -/
theorem withRead_cases (s : State) (l : Loc) (k : Word → Answer) :
    (∃ v, s.read l = .ok v ∧ s.withRead l k = k v) ∨
    (s.read l = .error (.uninitialisedRead l) ∧ s.withRead l k = .next (s.halt (.error (.uninitialisedRead l)))) := by
  rcases h : s.read l with e | v
  · obtain ⟨rfl, -, -⟩ := read_error h
    exact .inr ⟨rfl, withRead_error h⟩
  · exact .inl ⟨v, rfl, withRead_ok h⟩

@[simp] theorem withSource_register (s : State) (i : RegIdx) (k : Word → Answer) :
    s.withSource (.register i) k = s.withRead (.x i) k := rfl

@[simp] theorem withSource_immediate (s : State) (v : Word) (k : Word → Answer) :
    s.withSource (.immediate v) k = k v := rfl

@[simp] theorem raise_eq (s : State) (e : Error) : s.raise e = .next (s.halt (.error e)) := rfl

@[simp] theorem advance_eq (s : State) : s.advance = .next (s.setPc (s.pc + 2)) := rfl

@[simp] theorem branch_eq (s : State) (op : Operand) : s.branch op = .next (s.setPc (s.pc + op.value)) := rfl

@[simp] theorem operand_value_immediate (v : Word) : (Operand.immediate v).value = v := rfl

/-- Everything an accumulator instruction on a register can do (R121, R123, R128, R130, R132). -/
theorem accumulate_register_cases (s : State) (f : Word → Word → Word) (i : RegIdx) :
    (∃ a b, s.read .a = .ok a ∧ s.read (.x i) = .ok b ∧
      s.accumulate f (.register i) = .next ((s.writeA (f a b)).setPc (s.pc + 2))) ∨
    (s.accumulate f (.register i) = .next (s.halt (.error (.uninitialisedRead .a)))) ∨
    (s.accumulate f (.register i) = .next (s.halt (.error (.uninitialisedRead (.x i))))) := by
  unfold State.accumulate
  rcases withRead_cases s .a (fun a => s.withSource (.register i) fun b => (s.writeA (f a b)).advance) with
    ⟨a, ha, h⟩ | ⟨-, h⟩
  · rw [h]
    rcases withRead_cases s (.x i) (fun b => (s.writeA (f a b)).advance) with ⟨b, hb, h⟩ | ⟨-, h⟩
    · exact .inl ⟨a, b, ha, hb, h⟩
    · exact .inr (.inr h)
  · exact .inr (.inl h)

/-- Everything an accumulator instruction on an immediate can do (R122, R124, R129, R131, R133 to R140). -/
theorem accumulate_immediate_cases (s : State) (f : Word → Word → Word) (v : Word) :
    (∃ a, s.read .a = .ok a ∧
      s.accumulate f (.immediate v) = .next ((s.writeA (f a v)).setPc (s.pc + 2))) ∨
    (s.accumulate f (.immediate v) = .next (s.halt (.error (.uninitialisedRead .a)))) := by
  unfold State.accumulate
  rcases withRead_cases s .a (fun a => s.withSource (.immediate v) fun b => (s.writeA (f a b)).advance) with
    ⟨a, ha, h⟩ | ⟨-, h⟩
  · exact .inl ⟨a, ha, h⟩
  · exact .inr h

/-- Everything a conditional branch can do (R172 to R175). -/
theorem branchIf_cases (s : State) (cond : Word → Bool) (op : Operand) :
    (∃ a, s.read .a = .ok a ∧ cond a = true ∧ s.branchIf cond op = .next (s.setPc (s.pc + op.value))) ∨
    (∃ a, s.read .a = .ok a ∧ cond a = false ∧ s.branchIf cond op = .next (s.setPc (s.pc + 2))) ∨
    (s.branchIf cond op = .next (s.halt (.error (.uninitialisedRead .a)))) := by
  unfold State.branchIf
  rcases withRead_cases s .a (fun a => if cond a then s.branch op else s.advance) with ⟨a, ha, h⟩ | ⟨-, h⟩
  · rcases hc : cond a with _ | _
    · exact .inr (.inl ⟨a, ha, hc, by rw [h, hc]; rfl⟩)
    · exact .inl ⟨a, ha, hc, by rw [h, hc]; rfl⟩
  · exact .inr (.inr h)

/-! What the writes do to what the reads see. -/

theorem or_bit_getLsbD (m : BitVec 256) (i j : RegIdx) :
    (m ||| (1#256 <<< i.toNat)).getLsbD j.toNat = (m.getLsbD j.toNat || decide (j = i)) := by
  have hi := i.isLt
  have hj := j.isLt
  simp only [BitVec.getLsbD_or, BitVec.getLsbD_shiftLeft, BitVec.getLsbD_one]
  by_cases h : j = i
  · subst h; simp; omega
  · have : j.toNat ≠ i.toNat := fun e => h (BitVec.eq_of_toNat_eq e)
    simp [h]; omega

@[simp] theorem writeA_initialised_a (s : State) (v : Word) : (s.writeA v).initialised .a = true := rfl
@[simp] theorem writeA_initialised_ar (s : State) (v : Word) :
    (s.writeA v).initialised .ar = s.initialised .ar := rfl
@[simp] theorem writeA_initialised_x (s : State) (v : Word) (i : RegIdx) :
    (s.writeA v).initialised (.x i) = s.initialised (.x i) := rfl
@[simp] theorem writeA_stored_a (s : State) (v : Word) : (s.writeA v).stored .a = wrap s.config.xlen v :=
  wrap_wrap _ _
@[simp] theorem writeA_stored_ar (s : State) (v : Word) : (s.writeA v).stored .ar = s.stored .ar := rfl
@[simp] theorem writeA_stored_x (s : State) (v : Word) (i : RegIdx) :
    (s.writeA v).stored (.x i) = s.stored (.x i) := rfl

@[simp] theorem writeAr_initialised_ar (s : State) (v : Word) : (s.writeAr v).initialised .ar = true := rfl
@[simp] theorem writeAr_initialised_a (s : State) (v : Word) :
    (s.writeAr v).initialised .a = s.initialised .a := rfl
@[simp] theorem writeAr_initialised_x (s : State) (v : Word) (i : RegIdx) :
    (s.writeAr v).initialised (.x i) = s.initialised (.x i) := rfl
@[simp] theorem writeAr_stored_ar (s : State) (v : Word) : (s.writeAr v).stored .ar = wrap s.config.xlen v :=
  wrap_wrap _ _
@[simp] theorem writeAr_stored_a (s : State) (v : Word) : (s.writeAr v).stored .a = s.stored .a := rfl
@[simp] theorem writeAr_stored_x (s : State) (v : Word) (i : RegIdx) :
    (s.writeAr v).stored (.x i) = s.stored (.x i) := rfl

@[simp] theorem writeX_initialised_a (s : State) (i : RegIdx) (v : Word) :
    (s.writeX i v).initialised .a = s.initialised .a := rfl
@[simp] theorem writeX_initialised_ar (s : State) (i : RegIdx) (v : Word) :
    (s.writeX i v).initialised .ar = s.initialised .ar := rfl
@[simp] theorem writeX_initialised_x (s : State) (i j : RegIdx) (v : Word) :
    (s.writeX i v).initialised (.x j) = (s.initialised (.x j) || decide (j = i)) :=
  or_bit_getLsbD s.initX i j
@[simp] theorem writeX_stored_a (s : State) (i : RegIdx) (v : Word) :
    (s.writeX i v).stored .a = s.stored .a := rfl
@[simp] theorem writeX_stored_ar (s : State) (i : RegIdx) (v : Word) :
    (s.writeX i v).stored .ar = s.stored .ar := rfl
@[simp] theorem writeX_stored_x (s : State) (i j : RegIdx) (v : Word) :
    (s.writeX i v).stored (.x j) = if j = i then wrap s.config.xlen v else s.stored (.x j) := by
  simp only [State.stored, State.writeX_x, State.writeX_config, Sparse.get_set, BitVec.toNat_inj]
  split
  · simp
  · rfl

/-- The registers, marks and memory a state shares with another are read alike. -/
theorem stored_congr {s t : State} (l : Loc) (hc : t.config = s.config) (ha : t.a = s.a) (har : t.ar = s.ar)
    (hx : t.x = s.x) : t.stored l = s.stored l := by
  cases l <;> simp only [State.stored, hc, ha, har, hx]

/-! The window predicates in numbers (R30). -/

theorem inJalWindow_iff (s : State) (a : Word) :
    s.inJalWindow a = true ↔ s.entry.toNat ≤ a.toNat ∧ a.toNat ≤ s.entry.toNat + s.textSize := by
  simp [State.inJalWindow]

theorem inFetchWindow_inclusive {s : State} (a : Word) (h : s.config.windowUpper = .inclusive) :
    s.inFetchWindow a = true ↔ s.entry.toNat ≤ a.toNat ∧ a.toNat ≤ s.entry.toNat + s.textSize := by
  simp [State.inFetchWindow, h]

theorem inFetchWindow_exclusive {s : State} (a : Word) (h : s.config.windowUpper = .exclusive) :
    s.inFetchWindow a = true ↔ s.entry.toNat ≤ a.toNat ∧ a.toNat < s.entry.toNat + s.textSize := by
  simp [State.inFetchWindow, h]

/-- Everything one cycle can do (R236, R237). -/
theorem step_cases (s : State) :
    (∃ r, s.status = .halted r ∧ step s = .fault (.halted r)) ∨
    (s.status = .running ∧ s.inFetchWindow s.pc = false ∧ step s = .next (s.recordFetch.halt .outOfBounds)) ∨
    (∃ i, s.status = .running ∧ s.inFetchWindow s.pc = true ∧ decodeWord s.config s.fetch = .ok i ∧
      step s = exec i s.beginCycle) ∨
    (∃ e, s.status = .running ∧ s.inFetchWindow s.pc = true ∧ decodeWord s.config s.fetch = .error e ∧
      step s = .next (s.beginCycle.halt (.error (.decodeError (opcodeOf s.fetch))))) := by
  unfold step
  rcases hs : s.status with _ | r
  · rcases hw : s.inFetchWindow s.pc with _ | _
    · exact .inr (.inl ⟨rfl, rfl, rfl⟩)
    · rcases hd : decodeWord s.config s.fetch with e | i
      · exact .inr (.inr (.inr ⟨e, rfl, rfl, rfl, rfl⟩))
      · exact .inr (.inr (.inl ⟨i, rfl, rfl, rfl, rfl⟩))
  · exact .inl ⟨r, rfl, rfl⟩

end Sys2Proof.Machine
end

