-- ==== Sys2Proof/Laws/PerInstr.lean ====
section
/-! SUPPORT. The per-instruction family `DefaultWord`: under the default opcode map of the 64-bit build, every
instruction encodes to its row of spec/opcode_table.json, the row's match value with the operand in the bits the row
leaves open (30_encoding.md R71, R78), and to 0 in the bits it ignores (R82). -/

namespace Sys2Proof.Laws

/-- The row's match value with the operand field. -/
def tableWord (w : InstrWord) {n : Nat} (field : BitVec n) : InstrWord := w ||| field.setWidth 16

/-- The word of an instruction, from the match column of spec/opcode_table.json. -/
def rowWord : Instr → InstrWord
  | .nop => 0x0000
  | .inPort => 0x0500
  | .add r => tableWord 0x0800 r
  | .addi imm => tableWord 0x0900 imm
  | .sub r => tableWord 0x0C00 r
  | .subi imm => tableWord 0x0D00 imm
  | .sra => 0x1000
  | .load r => tableWord 0x2000 r
  | .loadi imm => tableWord 0x2100 imm
  | .and r => tableWord 0x2200 r
  | .andi imm => tableWord 0x2300 imm
  | .or r => tableWord 0x2400 r
  | .ori imm => tableWord 0x2500 imm
  | .xor r => tableWord 0x2600 r
  | .xori imm => tableWord 0x2700 imm
  | .loadh imm => tableWord 0x2900 imm
  | .loadh2 imm => tableWord 0x2A00 imm
  | .loadh3 imm => tableWord 0x2B00 imm
  | .loadh4 imm => tableWord 0x2C00 imm
  | .loadh5 imm => tableWord 0x2D00 imm
  | .loadh6 imm => tableWord 0x2E00 imm
  | .loadh7 imm => tableWord 0x2F00 imm
  | .store r => tableWord 0x3000 r
  | .outPort => 0x3900
  | .jal r => tableWord 0x4000 r
  | .ldaddr r => tableWord 0x5000 r
  | .ldind imm => tableWord 0x6000 imm
  | .ldindbu imm => tableWord 0x6100 imm
  | .stind imm => tableWord 0x7000 imm
  | .stindb imm => tableWord 0x7100 imm
  | .br off => tableWord 0x8000 off
  | .brz off => tableWord 0x9000 off
  | .brnz off => tableWord 0xA000 off
  | .brp off => tableWord 0xB000 off
  | .brn off => tableWord 0xC000 off
  | .scall imm => tableWord 0xFF00 imm

theorem format_i (b r : Byte) : (b ++ r : BitVec 16) = (b.setWidth 16 <<< 8) ||| r.setWidth 16 := by
  refine BitVec.eq_of_getLsbD_eq fun i hi => ?_
  rw [BitVec.getLsbD_append, BitVec.getLsbD_or, BitVec.getLsbD_shiftLeft, BitVec.getLsbD_setWidth,
    BitVec.getLsbD_setWidth]
  by_cases h : i < 8
  · simp [h, hi]
  · simp [h, hi, BitVec.getLsbD_of_ge r i (by omega)]; omega

theorem format_b (b : BitVec 4) (r : BitVec 12) : (b ++ r : BitVec 16) = (b.setWidth 16 <<< 12) ||| r.setWidth 16 := by
  refine BitVec.eq_of_getLsbD_eq fun i hi => ?_
  rw [BitVec.getLsbD_append, BitVec.getLsbD_or, BitVec.getLsbD_shiftLeft, BitVec.getLsbD_setWidth,
    BitVec.getLsbD_setWidth]
  by_cases h : i < 12
  · simp [h, hi]
  · simp [h, hi, BitVec.getLsbD_of_ge r i (by omega)]; omega

/-- The instruction encodes to its row's word. -/
def DefaultWord.Statement (i : Instr) : Prop := encode (Config.specDefault .x64) i = some (rowWord i)

theorem DefaultWord.nop : DefaultWord.Statement (.nop) := rfl
theorem DefaultWord.inPort : DefaultWord.Statement (.inPort) := rfl
theorem DefaultWord.add (r : RegIdx) : DefaultWord.Statement (.add r) :=
  congrArg some (format_i 0x08 r)
theorem DefaultWord.addi (imm : Byte) : DefaultWord.Statement (.addi imm) :=
  congrArg some (format_i 0x09 imm)
theorem DefaultWord.sub (r : RegIdx) : DefaultWord.Statement (.sub r) :=
  congrArg some (format_i 0x0C r)
theorem DefaultWord.subi (imm : Byte) : DefaultWord.Statement (.subi imm) :=
  congrArg some (format_i 0x0D imm)
theorem DefaultWord.sra : DefaultWord.Statement (.sra) := rfl
theorem DefaultWord.load (r : RegIdx) : DefaultWord.Statement (.load r) :=
  congrArg some (format_i 0x20 r)
theorem DefaultWord.loadi (imm : Byte) : DefaultWord.Statement (.loadi imm) :=
  congrArg some (format_i 0x21 imm)
theorem DefaultWord.and (r : RegIdx) : DefaultWord.Statement (.and r) :=
  congrArg some (format_i 0x22 r)
theorem DefaultWord.andi (imm : Byte) : DefaultWord.Statement (.andi imm) :=
  congrArg some (format_i 0x23 imm)
theorem DefaultWord.or (r : RegIdx) : DefaultWord.Statement (.or r) :=
  congrArg some (format_i 0x24 r)
theorem DefaultWord.ori (imm : Byte) : DefaultWord.Statement (.ori imm) :=
  congrArg some (format_i 0x25 imm)
theorem DefaultWord.xor (r : RegIdx) : DefaultWord.Statement (.xor r) :=
  congrArg some (format_i 0x26 r)
theorem DefaultWord.xori (imm : Byte) : DefaultWord.Statement (.xori imm) :=
  congrArg some (format_i 0x27 imm)
theorem DefaultWord.loadh (imm : Byte) : DefaultWord.Statement (.loadh imm) :=
  congrArg some (format_i 0x29 imm)
theorem DefaultWord.loadh2 (imm : Byte) : DefaultWord.Statement (.loadh2 imm) :=
  congrArg some (format_i 0x2A imm)
theorem DefaultWord.loadh3 (imm : Byte) : DefaultWord.Statement (.loadh3 imm) :=
  congrArg some (format_i 0x2B imm)
theorem DefaultWord.loadh4 (imm : Byte) : DefaultWord.Statement (.loadh4 imm) :=
  congrArg some (format_i 0x2C imm)
theorem DefaultWord.loadh5 (imm : Byte) : DefaultWord.Statement (.loadh5 imm) :=
  congrArg some (format_i 0x2D imm)
theorem DefaultWord.loadh6 (imm : Byte) : DefaultWord.Statement (.loadh6 imm) :=
  congrArg some (format_i 0x2E imm)
theorem DefaultWord.loadh7 (imm : Byte) : DefaultWord.Statement (.loadh7 imm) :=
  congrArg some (format_i 0x2F imm)
theorem DefaultWord.store (r : RegIdx) : DefaultWord.Statement (.store r) :=
  congrArg some (format_i 0x30 r)
theorem DefaultWord.outPort : DefaultWord.Statement (.outPort) := rfl
theorem DefaultWord.jal (r : RegIdx) : DefaultWord.Statement (.jal r) :=
  congrArg some (format_i 0x40 r)
theorem DefaultWord.ldaddr (r : RegIdx) : DefaultWord.Statement (.ldaddr r) :=
  congrArg some (format_i 0x50 r)
theorem DefaultWord.ldind (imm : Byte) : DefaultWord.Statement (.ldind imm) :=
  congrArg some (format_i 0x60 imm)
theorem DefaultWord.ldindbu (imm : Byte) : DefaultWord.Statement (.ldindbu imm) :=
  congrArg some (format_i 0x61 imm)
theorem DefaultWord.stind (imm : Byte) : DefaultWord.Statement (.stind imm) :=
  congrArg some (format_i 0x70 imm)
theorem DefaultWord.stindb (imm : Byte) : DefaultWord.Statement (.stindb imm) :=
  congrArg some (format_i 0x71 imm)
theorem DefaultWord.br (off : BitVec 12) : DefaultWord.Statement (.br off) :=
  congrArg some (format_b 0x8 off)
theorem DefaultWord.brz (off : BitVec 12) : DefaultWord.Statement (.brz off) :=
  congrArg some (format_b 0x9 off)
theorem DefaultWord.brnz (off : BitVec 12) : DefaultWord.Statement (.brnz off) :=
  congrArg some (format_b 0xa off)
theorem DefaultWord.brp (off : BitVec 12) : DefaultWord.Statement (.brp off) :=
  congrArg some (format_b 0xb off)
theorem DefaultWord.brn (off : BitVec 12) : DefaultWord.Statement (.brn off) :=
  congrArg some (format_b 0xc off)
theorem DefaultWord.scall (imm : Byte) : DefaultWord.Statement (.scall imm) :=
  congrArg some (format_i 0xFF imm)

end Sys2Proof.Laws
end

