-- ==== Sys2Proof/Tests/Slice0.lean ====
section
/-! SUPPORT. The model's own tests: ill-formed terms that WellFormed refuses, one word of every instruction
written out from the spec's encoding, the spec's examples, and a witness for every statement with hypotheses.
Each expected value is taken from the file of spec/ that the docstring names. -/

namespace Sys2Proof.Tests

open Sys2Proof Sys2Proof.Machine Sys2Proof.Claims

/-! ## WellFormed refuses ill-formed terms -/

/-- The default map of a build with its dense rows changed. -/
def withDense (m : OpcodeMap) (f : List OpcodeRow → List OpcodeRow) : OpcodeMap := { m with dense := f m.dense }

/-- The default map with one kind's row changed. -/
def withRow (k : Kind) (f : OpcodeRow → OpcodeRow) : OpcodeMap :=
  withDense OpcodeMap.default fun rows => rows.map fun r => if r.kind = k then f r else r

/-- R78: `loadh4` exists only when `XLEN = 64`. -/
theorem test_loadh4_ill_formed_at_x32 :
    Instr.wellFormed (Config.specDefault .x32) (.loadh4 0) = false ∧
    Instr.wellFormed (Config.specDefault .x64) (.loadh4 0) = true := by decide

/-- R78: the default map passes every check, in both builds. -/
theorem test_default_map_well_formed :
    (Config.specDefault .x32).wellFormed = true ∧ (Config.specDefault .x64).wellFormed = true := by
  decide

/-- R77: two branches with one selector. -/
theorem test_equal_selectors_refused :
    OpcodeMap.selectorsDistinct { OpcodeMap.default with branches := { BranchSelectors.default with brz := 0x8 } }
      = false := by decide

/-- R78: no row for `nop`. -/
theorem test_missing_row_refused :
    (withDense OpcodeMap.default fun rows => rows.drop 1).rowsComplete .x32 = false := by decide

/-- R77: a branch among the dense rows. -/
theorem test_branch_row_refused :
    (withDense OpcodeMap.default fun rows => ⟨.br, 0x01, 0xFF, 0x01⟩ :: rows).rowsComplete .x32 = false := by
  decide

/-- R78: `addi` with the byte of `add`. -/
theorem test_shared_byte_refused :
    (withRow .addi fun r => { r with byte := 0x08 }).bytesDistinct .x32 = false := by decide

/-- R77, R81: a dense byte among the branches. -/
theorem test_byte_in_branch_tier_refused :
    (withRow .nop fun r => { r with byte := 0x81 }).bytesOutsideBranches .x32 = false := by decide

/-- R78: `ldindbu` far from `ldind`. -/
theorem test_indirect_pair_refused :
    (withRow .ldindbu fun r => { r with byte := 0x17 }).indirectPairs .x32 = false := by decide

/-- R80: an exact byte outside its own pattern. -/
theorem test_prefix_disagreement_refused :
    (withRow .nop fun r => { r with byte := 0x18 }).prefixesAgree .x32 = false := by decide

/-! ## Decoding: one word of every row of R78, written out from its encoding -/

/-- The word of a two-byte instruction in the default 64-bit build. -/
abbrev reads (w : Nat) (i : Instr) : Prop := decodeTableWord 16 w = some i

theorem test_decode_nop : reads 0b0000000010101011 .nop := by decide
theorem test_decode_in : reads 0b0000010100000000 .inPort := by decide
theorem test_decode_add : reads 0b0000100000000011 (.add 3) := by decide
theorem test_decode_addi : reads 0b0000100110000000 (.addi 0x80) := by decide
theorem test_decode_sub : reads 0b0000110000000010 (.sub 2) := by decide
theorem test_decode_subi : reads 0b0000110100000001 (.subi 1) := by decide
theorem test_decode_sra : reads 0b0001000000000000 .sra := by decide
theorem test_decode_load : reads 0b0010000011111111 (.load 255) := by decide
theorem test_decode_loadi : reads 0b0010000110000000 (.loadi 0x80) := by decide
theorem test_decode_and : reads 0b0010001000000001 (.and 1) := by decide
theorem test_decode_andi : reads 0b0010001111110000 (.andi 0xF0) := by decide
theorem test_decode_or : reads 0b0010010000001001 (.or 9) := by decide
theorem test_decode_ori : reads 0b0010010110000000 (.ori 0x80) := by decide
theorem test_decode_xor : reads 0b0010011000000011 (.xor 3) := by decide
theorem test_decode_xori : reads 0b0010011111111111 (.xori 0xFF) := by decide
theorem test_decode_loadh : reads 0b0010100100010010 (.loadh 0x12) := by decide
theorem test_decode_loadh2 : reads 0b0010101000110100 (.loadh2 0x34) := by decide
theorem test_decode_loadh3 : reads 0b0010101100010010 (.loadh3 0x12) := by decide
theorem test_decode_loadh4 : reads 0b0010110010011010 (.loadh4 0x9A) := by decide
theorem test_decode_loadh5 : reads 0b0010110100111100 (.loadh5 0x3C) := by decide
theorem test_decode_loadh6 : reads 0b0010111011011110 (.loadh6 0xDE) := by decide
theorem test_decode_loadh7 : reads 0b0010111100001111 (.loadh7 0x0F) := by decide
theorem test_decode_store : reads 0b0011000000001011 (.store 11) := by decide
theorem test_decode_out : reads 0b0011100100000000 .outPort := by decide
theorem test_decode_jal : reads 0b0100000000001000 (.jal 8) := by decide
theorem test_decode_ldaddr : reads 0b0101000000001010 (.ldaddr 10) := by decide
theorem test_decode_ldind : reads 0b0110000011111111 (.ldind 0xFF) := by decide
theorem test_decode_ldindbu : reads 0b0110000100000101 (.ldindbu 5) := by decide
theorem test_decode_stind : reads 0b0111000000000001 (.stind 1) := by decide
theorem test_decode_stindb : reads 0b0111000111111111 (.stindb 0xFF) := by decide
theorem test_decode_br : reads 0b1000000000010000 (.br 0x010) := by decide
theorem test_decode_brz : reads 0b1001111111111110 (.brz 0xFFE) := by decide
theorem test_decode_brnz : reads 0b1010111111111010 (.brnz 0xFFA) := by decide
theorem test_decode_brp : reads 0b1011000000000011 (.brp 0x003) := by decide
theorem test_decode_brn : reads 0b1100011111111111 (.brn 0x7FF) := by decide
theorem test_decode_scall : reads 0b1111111100000010 (.scall 2) := by decide

/-- R215: byte 0x01 is `unknown` under the exact policy, and R80: it is `nop` under the prefix policy. -/
theorem test_decode_unknown_byte :
    decodeOpcode (Config.specDefault .x32) 0x01 = .unknown ∧
    decodeOpcode { Config.specDefault .x32 with dontCare := .prefixMatch } 0x01 = .nop := by decide

/-- R70: one byte is no word. -/
theorem test_decode_one_byte : decode Config.reset [0x21] = .error .truncated := by decide

/-- R55, R70: the low byte comes first, and the bytes after the word are kept. -/
theorem test_decode_rest : decode Config.reset [0x05, 0x21, 0x00] = .ok (.loadi 5, [0x00]) := by decide

/-- R79: the bytes its list names in a build. The list has 107 and 111, the sentence 108 and 112 (log 27). -/
theorem test_exact_count :
    (List.range 256).countP (fun n =>
      decodeOpcode (Config.specDefault .x32) (BitVec.ofNat 8 n) != .unknown) = 107 ∧
    (List.range 256).countP (fun n =>
      decodeOpcode (Config.specDefault .x64) (BitVec.ofNat 8 n) != .unknown) = 111 := by decide +kernel

/-- R74: 0x7FF is +4094, 0x800 is -4096, 0xFFF is -2, and the encoding of each. -/
theorem test_displacements :
    sextDisp .x32 0x7FF = 4094 ∧ sextDisp .x32 0x800 = 0xFFFFF000 ∧ sextDisp .x32 0xFFF = 0xFFFFFFFE ∧
    off12OfDisp 4094 = 0x7FF ∧ off12OfDisp (-4096) = 0x800 ∧ off12OfDisp (-2) = 0xFFF := by decide

/-! ## The spec's examples, one step each -/

/-- A small state at the defaults of a build: `A`, `AR` and `pc` given, window from 0 to 0x2000, nothing else
written. -/
def small (x : Xlen) (a ar pc : Word) : State :=
  { State.construct (Config.specDefault x) with
    a := a, ar := ar, pc := pc, initA := true, initAr := true, textSize := 0x2000 }

/-- The next state, where there is one. -/
def after (o : Answer) : Option State :=
  match o with
  | .next t => some t
  | .fault _ => none
  | .refused _ => none

/-- `A` after an instruction. -/
def aAfter (i : Instr) (s : State) : Option Word := (after (exec i s)).map (·.a)

/-- `pc` after an instruction. -/
def pcAfter (i : Instr) (s : State) : Option Word := (after (exec i s)).map (·.pc)

/-- The status after an instruction. -/
def statusAfter (i : Instr) (s : State) : Option Status := (after (exec i s)).map (·.status)

/-- The bytes of memory from an address after an instruction. -/
def bytesAfter (i : Instr) (s : State) (addr n : Nat) : Option (List Byte) :=
  (after (exec i s)).map fun t => (List.range n).map fun j => Memory.byte t.mem (addr + j)

/-- R120: `nop` moves `pc` by 2, and at the top of the address space to 0 (R105). -/
theorem test_nop : pcAfter .nop (small .x32 7 0 0x10) = some 0x12 ∧
    pcAfter .nop (small .x32 7 0 0xFFFFFFFE) = some 0 := by decide

/-- R121: `5 + 10`, and the wrap of S2. -/
theorem test_add : aAfter (.add 0) ((small .x32 5 0 0).writeX 0 10) = some 15 ∧
    aAfter (.add 3) ((small .x32 0x7FFFFFFF 0 0).writeX 3 1) = some 0x80000000 := by decide

/-- R122: adding -1, and the immediate form of S2. -/
theorem test_addi : aAfter (.addi 0xFF) (small .x32 0 0 0) = some 0xFFFFFFFF ∧
    aAfter (.addi 0x80) (small .x32 0xFFFFFFF0 0 0) = some 0xFFFFFF70 := by decide

/-- R123. -/
theorem test_sub : aAfter (.sub 2) ((small .x32 3 0 0).writeX 2 5) = some 0xFFFFFFFE ∧
    aAfter (.sub 3) ((small .x32 0x80000000 0 0).writeX 3 1) = some 0x7FFFFFFF := by decide

/-- R124. -/
theorem test_subi : aAfter (.subi 1) (small .x32 1 0 0) = some 0 ∧
    aAfter (.subi 0x80) (small .x32 0xFFFFFF70 0 0) = some 0xFFFFFFF0 := by decide

/-- R125 under `logical`, in both builds. -/
theorem test_sra_logical : aAfter .sra (small .x32 0xFFFFFF81 0 0) = some 0x7FFFFFC0 ∧
    aAfter .sra (small .x64 0x8000000000000000 0 0) = some 0x4000000000000000 := by decide

/-- R125 under `arithmetic`. -/
theorem test_sra_arithmetic :
    aAfter .sra { small .x32 0x80000000 0 0 with
      config := { Config.specDefault .x32 with sraMode := .arithmetic } } = some 0xC0000000 := by decide

/-- R126. -/
theorem test_load : aAfter (.load 7) ((small .x32 1 0 0).writeX 7 0x7FFFFFC0) = some 0x7FFFFFC0 := by decide

/-- R127 under both extensions. -/
theorem test_loadi : aAfter (.loadi 0x80) (small .x32 1 0 0) = some 0xFFFFFF80 ∧
    aAfter (.loadi 0x80) { small .x32 1 0 0 with
      config := { Config.specDefault .x32 with loadiExt := .zero } } = some 0x80 := by decide

/-- R128. -/
theorem test_and : aAfter (.and 1) ((small .x32 0xF0F0F0F0 0 0).writeX 1 0xFF00FF00) = some 0xF000F000 := by
  decide

/-- R129: the immediate is zero-extended. -/
theorem test_andi : aAfter (.andi 0xF0) (small .x32 0xFFFFFF80 0 0) = some 0x80 := by decide

/-- R130. -/
theorem test_or : aAfter (.or 9) ((small .x32 0x00FF0000 0 0).writeX 9 0xFF) = some 0x00FF00FF := by decide

/-- R131. -/
theorem test_ori : aAfter (.ori 0x80) (small .x32 0x12340000 0 0) = some 0x12340080 := by decide

/-- R132. -/
theorem test_xor : aAfter (.xor 3) ((small .x32 0xFFFF0000 0 0).writeX 3 0x0F0F0F0F) = some 0xF0F00F0F := by
  decide

/-- R133. -/
theorem test_xori : aAfter (.xori 0xFF) (small .x32 0x81 0 0) = some 0x7E := by decide

/-- R134. -/
theorem test_loadh : aAfter (.loadh 0x12) (small .x32 0x34 0 0) = some 0x1234 ∧
    aAfter (.loadh 0x80) (small .x32 0xFF 0 0) = some 0xFFFF80FF := by decide

/-- R135. -/
theorem test_loadh2 : aAfter (.loadh2 0x34) (small .x32 0x5678 0 0) = some 0x345678 ∧
    aAfter (.loadh2 0xF0) (small .x32 0x5678 0 0) = some 0xFFF05678 := by decide

/-- R136, in both builds. -/
theorem test_loadh3 : aAfter (.loadh3 0x12) (small .x32 0x345678 0 0) = some 0x12345678 ∧
    aAfter (.loadh3 0x92) (small .x64 0x345678 0 0) = some 0xFFFFFFFF92345678 := by decide

/-- R137. -/
theorem test_loadh4 : aAfter (.loadh4 0x9A) (small .x64 0x12345678 0 0) = some 0xFFFFFF9A12345678 := by decide

/-- R138. -/
theorem test_loadh5 : aAfter (.loadh5 0x3C) (small .x64 0x9A12345678 0 0) = some 0x3C9A12345678 := by decide

/-- R139. -/
theorem test_loadh6 : aAfter (.loadh6 0xDE) (small .x64 0x3C9A12345678 0 0) = some 0xFFDE3C9A12345678 := by decide

/-- R140. -/
theorem test_loadh7 : aAfter (.loadh7 0x0F) (small .x64 0xFFDE3C9A12345678 0 0) = some 0x0FDE3C9A12345678 := by
  decide

/-- R141: the register, its mark and `W`. -/
theorem test_store : (after (exec (.store 11) (small .x32 0x7E 0 0))).map
    (fun t => (t.stored (.x 11), t.initialised (.x 11), t.written)) = some (0x7E, true, [11]) := by decide

/-- R170: the example, with the link value, and an odd target outside the window, which reports the window. -/
theorem test_jal : (after (exec (.jal 0) { small .x32 0x14 0 0x02 with textSize := 0x1E })).map
      (fun t => (t.pc, t.stored (.x 0), t.written)) = some (0x14, 0x04, [0]) ∧
    statusAfter (.jal 0) { small .x32 0x21 0 0x02 with textSize := 0x1E }
      = some (.halted (.error (.outOfBoundsJump 0x21))) := by decide

/-- R171, S4. -/
theorem test_br : pcAfter (.br 0x010) (small .x32 0 0 0x100) = some 0x120 ∧
    pcAfter (.br 0x800) (small .x32 0 0 0x1000) = some 0 := by decide

/-- R172. -/
theorem test_brz : pcAfter (.brz 0xFFE) (small .x32 0 0 0x20) = some 0x1C ∧
    pcAfter (.brz 0xFFE) (small .x32 0x80000000 0 0x20) = some 0x22 := by decide

/-- R173. -/
theorem test_brnz : pcAfter (.brnz 0xFFA) (small .x32 4 0 0x14) = some 0x08 ∧
    pcAfter (.brnz 0xFFA) (small .x32 0 0 0x14) = some 0x16 := by decide

/-- R174: bit 31 is the sign when `XLEN = 32` and not when `XLEN = 64`. -/
theorem test_brp : pcAfter (.brp 0x003) (small .x32 0x80000000 0 0x06) = some 0x08 ∧
    pcAfter (.brp 0x003) (small .x64 0x80000000 0 0x06) = some 0x0C := by decide

/-- R175. -/
theorem test_brn : pcAfter (.brn 0x7FF) (small .x32 0xFFFFFFFF 0 0x40) = some 0x103E ∧
    pcAfter (.brn 0x7FF) (small .x32 0 0 0x40) = some 0x42 := by decide

/-- R190. -/
theorem test_ldaddr : (after (exec (.ldaddr 10) ((small .x32 0 0 0).writeX 10 0x100))).map (·.ar)
    = some 0x100 := by decide

/-- R191: the example, and the access that wraps at the top of memory. -/
theorem test_ldind :
    aAfter (.ldind 1) ((small .x32 0 0x100 0).memWrite 0x104 4 0x12345678) = some 0x12345678 ∧
    aAfter (.ldind 0) { small .x32 0 0xFFFFFFFE 0 with
      mem := [(0, 0x33), (1, 0x44), (0xFFFFFFFE, 0x11), (0xFFFFFFFF, 0x22)] } = some 0x44332211 := by decide

/-- R192: zero-extended. -/
theorem test_ldindbu : aAfter (.ldindbu 5) { small .x32 0 0x100 0 with mem := [(0x105, 0x80)] } = some 0x80 := by
  decide

/-- R193: the example, and under `XLEN = 64` only 4 bytes. -/
theorem test_stind : bytesAfter (.stind 1) (small .x32 0x12345678 0x100 0) 0x104 4
      = some [0x78, 0x56, 0x34, 0x12] ∧
    bytesAfter (.stind 0) (small .x64 0xFFFFFFFF00000200 0x200 0) 0x200 8 = some [0, 2, 0, 0, 0, 0, 0, 0] := by
  decide

/-- R194: the byte below `AR`. -/
theorem test_stindb : bytesAfter (.stindb 0xFF) (small .x32 0x56 0x100 0) 0xFE 3 = some [0, 0x56, 0] := by decide

/-- R210, R212: `scall 0` keeps `pc`, `scall 2` emits the low byte. -/
theorem test_scall : (after (exec (.scall 0) (small .x32 0 0 0x12))).map (fun t => (t.pc, t.status))
      = some (0x12, .halted .systemCall) ∧
    (after (exec (.scall 2) (small .x32 0x141 0 0))).map (fun t => (t.pc, t.out)) = some (2, [0x41]) := by decide

/-- R211: in a run whose first instruction is `scall 1`, `x[4] = 1`. -/
theorem test_scall_counter : (after (step ((small .x32 0 0 0).memWrite 0 2 0xFF01))).map
    (fun t => t.stored (.x 4)) = some 1 := by decide

/-- R213, R214: fatal, and `pc` stays. -/
theorem test_out_in : statusAfter .outPort (small .x32 0 0 4) = some (.halted (.error (.unimplemented .outPort))) ∧
    statusAfter .inPort (small .x32 0 0 4) = some (.halted (.error (.unimplemented .inPort))) := by decide

/-- S7: the run of `loadi 0x40; jal r1` ends at the `jal`. -/
theorem test_jal_out_of_window : (after (step { small .x32 0x40 0 2 with
      textSize := 4, nExec := 1, trace := [0], mem := [(0, 0x40), (1, 0x21), (2, 0x01), (3, 0x40)] })).map
    (fun t => (t.status, t.pc, t.nExec, t.trace))
    = some (.halted (.error (.outOfBoundsJump 0x40)), 2, 2, [2, 0]) := by decide

/-- The host's questions: a word of the table, stored where `step` fetches, runs as the first instruction. -/
theorem test_first_instruction :
    step (State.reset.withFetchWord 16 0x2105)
      = exec (.loadi 5) (State.reset.withFetchWord 16 0x2105).beginCycle := by rfl

/-! ## Witnesses: states and operands that meet the hypotheses of each statement -/

/-- A state with `A = 0x7FFFFFFF`, `AR = 0x100`, `x[3] = 1`, window 0x10 to 0x30, `pc` in it. -/
def busy : State :=
  { (small .x32 0x7FFFFFFF 0x100 0x12).writeX 3 1 with entry := 0x10, textSize := 0x20 }

/-- The same with another `A`. -/
def busyWith (a : Word) : State := { busy with a := a }

/-- A state in which nothing was ever written, under `UNINIT_POLICY = fault`. -/
def bare (x : Xlen) : State := State.construct (Config.specDefault x)

/-- The hypotheses of `RegisterRule` and of its decoding clause, for one instruction. -/
def RegisterHypotheses (mk : RegIdx → Instr) : Prop :=
  (mk 3).wellFormed (Config.specDefault .x32) = true ∧ (mk 255).wellFormed (Config.specDefault .x64) = true ∧
  busy.read .a = .ok 0x7FFFFFFF ∧ busy.read (.x 3) = .ok 1 ∧
  Unwritten (bare .x32) .a ∧ Unwritten busy (.x 255)

/-- The hypotheses of `ImmediateRule` and of its decoding clause, for one instruction. -/
def ImmediateHypotheses (mk : Byte → Instr) : Prop :=
  (mk 0).wellFormed (Config.specDefault .x64) = true ∧ (mk 255).wellFormed (Config.specDefault .x64) = true ∧
  busy.read .a = .ok 0x7FFFFFFF ∧ Unwritten (bare .x64) .a

theorem busy_reads : busy.read .a = .ok 0x7FFFFFFF ∧ busy.read (.x 3) = .ok 1 ∧ busy.read .ar = .ok 0x100 := by
  decide

theorem bare_unwritten (x : Xlen) : Unwritten (bare x) .a ∧ Unwritten (bare x) .ar ∧ Unwritten (bare x) (.x 3) := by
  cases x <;> exact ⟨⟨by decide, rfl⟩, ⟨by decide, rfl⟩, ⟨by decide, rfl⟩⟩

theorem busy_unwritten : Unwritten busy (.x 255) := ⟨by decide, rfl⟩

theorem register_hypotheses (mk : RegIdx → Instr)
    (h : ∀ r, (mk r).wellFormed (Config.specDefault .x32) = true ∧ (mk r).wellFormed (Config.specDefault .x64) = true) :
    RegisterHypotheses mk :=
  ⟨(h 3).1, (h 255).2, busy_reads.1, busy_reads.2.1, (bare_unwritten .x32).1, busy_unwritten⟩

theorem immediate_hypotheses (mk : Byte → Instr) (h : ∀ r, (mk r).wellFormed (Config.specDefault .x64) = true) :
    ImmediateHypotheses mk :=
  ⟨h 0, h 255, busy_reads.1, (bare_unwritten .x64).1⟩

theorem witness_AddStoresSumModuloWidth : RegisterHypotheses .add := register_hypotheses _ fun _ => ⟨rfl, rfl⟩
theorem witness_AddiAddsSignedImmediate : ImmediateHypotheses .addi := immediate_hypotheses _ fun _ => rfl
theorem witness_SubStoresDifferenceModuloWidth : RegisterHypotheses .sub :=
  register_hypotheses _ fun _ => ⟨rfl, rfl⟩
theorem witness_SubiSubtractsSignedImmediate : ImmediateHypotheses .subi := immediate_hypotheses _ fun _ => rfl

/-- Both modes, with `A` read, and a state in which it is not written. -/
theorem witness_SraShiftsByOneInBothModes :
    (busy.read .a = .ok 0x7FFFFFFF ∧ busy.config.sraMode = .logical) ∧
    (State.read { busyWith 0x80000000 with config := { busy.config with sraMode := .arithmetic } } .a
      = .ok 0x80000000) ∧
    Unwritten (bare .x32) .a := ⟨⟨busy_reads.1, rfl⟩, by decide, (bare_unwritten .x32).1⟩

theorem witness_LoadCopiesRegister : busy.read (.x 3) = .ok 1 ∧ Unwritten busy (.x 255) :=
  ⟨busy_reads.2.1, busy_unwritten⟩

theorem witness_LoadiWritesExtendedImmediate :
    busy.config.loadiExt = .sign ∧ { busy.config with loadiExt := .zero }.loadiExt = .zero := ⟨rfl, rfl⟩

theorem witness_RegisterLogicIsBitwise :
    RegisterHypotheses .and ∧ RegisterHypotheses .or ∧ RegisterHypotheses .xor :=
  ⟨register_hypotheses _ fun _ => ⟨rfl, rfl⟩, register_hypotheses _ fun _ => ⟨rfl, rfl⟩,
    register_hypotheses _ fun _ => ⟨rfl, rfl⟩⟩

theorem witness_ImmediateLogicZeroExtends :
    ImmediateHypotheses .andi ∧ ImmediateHypotheses .ori ∧ ImmediateHypotheses .xori :=
  ⟨immediate_hypotheses _ fun _ => rfl, immediate_hypotheses _ fun _ => rfl, immediate_hypotheses _ fun _ => rfl⟩

theorem witness_LowLanesOverwriteFromTheirLaneUp :
    ImmediateHypotheses .loadh ∧ ImmediateHypotheses .loadh2 ∧ ImmediateHypotheses .loadh3 :=
  ⟨immediate_hypotheses _ fun _ => rfl, immediate_hypotheses _ fun _ => rfl, immediate_hypotheses _ fun _ => rfl⟩

theorem witness_HighLanesOverwriteFromTheirLaneUp :
    (Instr.wellFormed (Config.specDefault .x64) (.loadh4 0) = true ∧
      Instr.wellFormed (Config.specDefault .x64) (.loadh7 255) = true) ∧
    ((small .x64 0x8000000000000000 0 0).config.xlen = .x64 ∧
      (small .x64 0x8000000000000000 0 0).read .a = .ok 0x8000000000000000) ∧
    ((bare .x64).config.xlen = .x64 ∧ Unwritten (bare .x64) .a) ∧
    (0x2C#8 ∈ [0x2C#8, 0x2D#8, 0x2E#8, 0x2F#8] ∧ 0x2F#8 ∈ [0x2C#8, 0x2D#8, 0x2E#8, 0x2F#8]) :=
  ⟨by decide, by decide, ⟨rfl, (bare_unwritten .x64).1⟩, by decide⟩

theorem witness_AddThenSubRestoresAccumulator :
    busy.read .a = .ok 0x7FFFFFFF ∧ busy.read (.x 3) = .ok 1 := ⟨busy_reads.1, busy_reads.2.1⟩

theorem witness_ConstantSynthesisByLanes :
    ((bare .x32).config.loadiExt = .sign ∧ (bare .x32).config.loadhFill = .sign ∧ (bare .x32).config.xlen = .x32) ∧
    ((bare .x64).config.loadiExt = .sign ∧ (bare .x64).config.loadhFill = .sign ∧ (bare .x64).config.xlen = .x64) := by
  decide

/-- The read, the register already in `W`, and the unwritten `A`. -/
theorem witness_StoreWritesRegisterAndMarks :
    busy.read .a = .ok 0x7FFFFFFF ∧ 3#8 ∈ busy.written ∧ Unwritten (bare .x32) .a :=
  ⟨busy_reads.1, by decide, (bare_unwritten .x32).1⟩

/-- Targets at both ends of the window 0x10 to 0x30, one below it, one above it, an odd one inside it under both
policies, `jal r0` under `EXIT_ON_JAL_R0`, and an unwritten `A`. -/
theorem witness_JalLinksAndJumpsInWindow :
    (busyWith 0x10).read .a = .ok 0x10 ∧ (busyWith 0x30).read .a = .ok 0x30 ∧
    (busyWith 0x0F).read .a = .ok 0x0F ∧ (busyWith 0x31).read .a = .ok 0x31 ∧
    ((busyWith 0x2F).read .a = .ok 0x2F ∧ busy.config.jalOdd = .fault) ∧
    State.read { busyWith 0x2F with config := { busy.config with jalOdd := .allow, exitOnJalR0 := true } } .a
      = .ok 0x2F ∧
    busy.entry.toNat = 0x10 ∧ busy.entry.toNat + busy.textSize = 0x30 ∧ Unwritten (bare .x32) .a :=
  ⟨by decide, by decide, by decide, by decide, by decide, by decide, rfl, rfl, (bare_unwritten .x32).1⟩

/-- `A` zero and not zero. -/
theorem witness_BrzAndBrnzTestForZero :
    (busyWith 0).read .a = .ok 0 ∧ (busyWith 1).read .a = .ok 1 ∧ Unwritten (bare .x32) .a :=
  ⟨by decide, by decide, (bare_unwritten .x32).1⟩

/-- The two sides of the sign boundary, and zero. -/
theorem witness_BrpAndBrnTestTheSign :
    ((busyWith 0).read .a = .ok 0 ∧ 0 ≤ sval .x32 0) ∧
    ((busyWith 0x7FFFFFFF).read .a = .ok 0x7FFFFFFF ∧ 0 ≤ sval .x32 0x7FFFFFFF) ∧
    ((busyWith 0x80000000).read .a = .ok 0x80000000 ∧ sval .x32 0x80000000 < 0) ∧ Unwritten (bare .x32) .a :=
  ⟨by decide, by decide, by decide, (bare_unwritten .x32).1⟩

/-- Both ends of the range of displacements. -/
theorem witness_BranchDisplacementRoundTrip :
    ((-4096 : Int) % 2 = 0 ∧ (-4096 : Int) ≤ -4096 ∧ (-4096 : Int) ≤ 4094) ∧
    ((4094 : Int) % 2 = 0 ∧ (-4096 : Int) ≤ 4094 ∧ (4094 : Int) ≤ 4094) := by decide

/-- The words of a statement decode in both builds: the premise of `DecodesTo` holds. -/
theorem witness_NopOnlyAdvances : Instr.wellFormed (Config.specDefault .x32) .nop = true := rfl
theorem witness_BrAddsDisplacement : Instr.wellFormed (Config.specDefault .x32) (.br 0x800) = true := rfl
theorem witness_InAndOutAreFatal : Instr.wellFormed (Config.specDefault .x32) .inPort = true ∧
    Instr.wellFormed (Config.specDefault .x32) .outPort = true := ⟨rfl, rfl⟩
theorem witness_SampleWordsDecode : Instr.wellFormed (Config.specDefault .x64) (.loadh4 0x9A) = true ∧
    Instr.wellFormed (Config.specDefault .x32) (.jal 8) = true := ⟨rfl, rfl⟩

theorem witness_LdaddrSetsAddressRegister : busy.read (.x 3) = .ok 1 ∧ Unwritten busy (.x 255) :=
  ⟨busy_reads.2.1, busy_unwritten⟩

theorem witness_EffectiveAddressWraps :
    Instr.stind 0x80 ∈ [Instr.ldind 0x80, Instr.stind 0x80] ∧
    Instr.ldindbu 0x7F ∈ [Instr.ldindbu 0x7F, Instr.stindb 0x7F] := by decide

/-- `AR` read and unwritten, and every span and extension: 4 bytes in the 32-bit build, 4 bytes sign-extended and 8
bytes in the 64-bit build. -/
theorem witness_LdindLoadsWord :
    busy.read .ar = .ok 0x100 ∧ wordSpan busy.config = 4 ∧
    (State.read { small .x64 0 0x100 0 with config :=
      { Config.specDefault .x64 with indLoadExt := .sign } } .ar = .ok 0x100) ∧
    wordSpan { Config.specDefault .x64 with indWord := .eight } = 8 ∧ Unwritten (bare .x64) .ar :=
  ⟨busy_reads.2.2, rfl, by decide, rfl, (bare_unwritten .x64).2.1⟩

theorem witness_LdindbuLoadsZeroExtendedByte : busy.read .ar = .ok 0x100 ∧ Unwritten (bare .x32) .ar :=
  ⟨busy_reads.2.2, (bare_unwritten .x32).2.1⟩

/-- Both reads, the first unwritten, and only the second unwritten. -/
theorem witness_StindStoresWord :
    (busy.read .a = .ok 0x7FFFFFFF ∧ busy.read .ar = .ok 0x100) ∧ Unwritten (bare .x32) .a ∧
    (State.read { busy with initAr := false } .a = .ok 0x7FFFFFFF ∧ Unwritten { busy with initAr := false } .ar) :=
  ⟨⟨busy_reads.1, busy_reads.2.2⟩, (bare_unwritten .x32).1, by decide, rfl, rfl⟩

theorem witness_StindbStoresByte :
    (busy.read .a = .ok 0x7FFFFFFF ∧ busy.read .ar = .ok 0x100) ∧ Unwritten (bare .x32) .a ∧
    (State.read { busy with initAr := false } .a = .ok 0x7FFFFFFF ∧ Unwritten { busy with initAr := false } .ar) :=
  witness_StindStoresWord

/-- Both builds, and in the 64-bit build a value on each side of `2^32`. -/
theorem witness_IndirectRoundTrip :
    (busy.read .a = .ok 0x7FFFFFFF ∧ busy.config.xlen = .x32) ∧
    ((small .x64 0xFFFFFFFF 0 0).read .a = .ok 0xFFFFFFFF ∧ (small .x64 0x100000000 0 0).read .a = .ok 0x100000000 ∧
      (small .x64 0 0 0).config.indWord = .four ∧ (small .x64 0 0 0).config.indLoadExt = .zero) :=
  ⟨⟨busy_reads.1, rfl⟩, by decide⟩

theorem witness_MemReadIsLittleEndianSum : 1 ∈ [1, 2, 4, 8] ∧ 8 ∈ [1, 2, 4, 8] := by decide
theorem witness_MemWriteSetsItsBytesOnly : 1 ∈ [1, 2, 4, 8] ∧ 8 ∈ [1, 2, 4, 8] := by decide

theorem witness_StoreIsSeenByFetch : busy.read .a = .ok 0x7FFFFFFF ∧ busy.read .ar = .ok 0x100 :=
  ⟨busy_reads.1, busy_reads.2.2⟩

/-- `A` read and unwritten, and a subfunction above 2 under both policies. -/
theorem witness_ScallDispatchesOnImmediate :
    busy.read .a = .ok 0x7FFFFFFF ∧ Unwritten (bare .x32) .a ∧
    (3 ≤ (3#8).toNat ∧ 3 ≤ (255#8).toNat ∧ busy.config.scallOther = .fault) ∧
    { busy.config with scallOther := .nop }.scallOther = .nop :=
  ⟨busy_reads.1, (bare_unwritten .x32).1, by decide, rfl⟩

/-- A running state whose next two bytes are 0x01 at the high address. -/
def unknownAhead : State := { busy with mem := [(0x13, 0x01)] }

theorem witness_UnknownOpcodeIsDecodeError :
    unknownAhead.status = .running ∧ unknownAhead.inFetchWindow unknownAhead.pc = true ∧
    decodeOpcode unknownAhead.config
      (Memory.byte unknownAhead.mem (byteAddress unknownAhead.config.xlen unknownAhead.pc 1)) = .unknown := by
  decide

/-- A location marked, one unmarked under each policy, a second read that is the unwritten one, and an instruction
whose reads all succeed. -/
theorem witness_UnwrittenReadEndsTheRun :
    (busy.initialised .a = true) ∧
    ((bare .x32).initialised .a = false ∧ { Config.specDefault .x32 with uninit := .zero }.uninit = .zero) ∧
    (readsOf (.add 255) = [.a] ++ .x 255 :: [] ∧ (∀ m ∈ [Loc.a], ∃ v, busy.read m = .ok v) ∧
      Unwritten busy (.x 255)) ∧
    (busy.status = .running ∧ (∀ m ∈ readsOf (.add 3), ∃ v, busy.read m = .ok v) ∧
      ∃ t, exec (.add 3) busy = .next t) := by
  refine ⟨by decide, by decide, ⟨rfl, ?_, busy_unwritten⟩, rfl, ?_, _, rfl⟩
  · intro m hm
    rw [List.mem_singleton] at hm
    exact hm ▸ ⟨_, busy_reads.1⟩
  · intro m hm
    simp only [readsOf, List.mem_cons, List.not_mem_nil, or_false] at hm
    rcases hm with rfl | rfl
    · exact ⟨_, busy_reads.1⟩
    · exact ⟨_, busy_reads.2.1⟩

/-- An instruction and a cycle that end in a fatal error. -/
theorem witness_FatalErrorsArePrecise :
    (busy.status = .running ∧ ∃ t, exec .outPort busy = .next t ∧
      t.status = .halted (.error (.unimplemented .outPort))) ∧
    (∃ t, step unknownAhead = .next t ∧ t.status = .halted (.error (.decodeError 0x01))) := by
  refine ⟨⟨rfl, _, rfl, rfl⟩, ⟨_, rfl, ?_⟩⟩
  decide

/-- A running state, and a state and an instruction for every outcome and every kind of error an instruction has. -/
theorem witness_OutcomesOnlyFromTheirCauses :
    (busy.status = .running ∧ statusAfter .nop busy = some .running) ∧
    statusAfter (.scall 0) busy = some (.halted .systemCall) ∧
    statusAfter (.jal 0) { busyWith 0x10 with config := { busy.config with exitOnJalR0 := true } }
      = some (.halted .returnToCaller) ∧
    statusAfter (.jal 1) (busyWith 0x0F) = some (.halted (.error (.outOfBoundsJump 0x0F))) ∧
    statusAfter (.jal 1) (busyWith 0x2F) = some (.halted (.error (.misalignedJump 0x2F))) ∧
    statusAfter (.scall 3) busy = some (.halted (.error (.unknownSyscall 3))) ∧
    statusAfter (.load 255) busy = some (.halted (.error (.uninitialisedRead (.x 255)))) := by decide

/-- A next state, and instructions on each side of each clause. -/
theorem witness_EachLocationHasItsWriters :
    (∃ t, exec (.store 7) busy = .next t) ∧ writesA (.store 7) = false ∧ writesX (.store 7) ≠ some 6 := by
  exact ⟨⟨_, rfl⟩, by decide, by decide⟩

/-- A running state whose next two bytes are `loadi 5`. -/
def loadiAhead : State := { busy with mem := [(0x12, 0x05), (0x13, 0x21)] }

theorem witness_StepRunsDecodedInstruction :
    loadiAhead.status = .running ∧ loadiAhead.inFetchWindow loadiAhead.pc = true ∧
    decode loadiAhead.config [Memory.byte loadiAhead.mem (byteAddress loadiAhead.config.xlen loadiAhead.pc 0),
      Memory.byte loadiAhead.mem (byteAddress loadiAhead.config.xlen loadiAhead.pc 1)] = .ok (.loadi 5, []) := by
  decide

/-- `pc` just below the window, just above its inclusive end, and at its exclusive end. -/
theorem witness_LeavingTheWindowEndsTheRun :
    (busy.status = .running ∧ busy.config.windowUpper = .inclusive) ∧
    ({ busy with pc := 0x0F }.pc.toNat < busy.entry.toNat) ∧
    (busy.entry.toNat + busy.textSize < { busy with pc := 0x31 }.pc.toNat) ∧
    ({ busy.config with windowUpper := .exclusive }.windowUpper = .exclusive ∧
      busy.entry.toNat + busy.textSize ≤ { busy with pc := 0x30 }.pc.toNat) := by decide

theorem witness_HaltedStateHasNoStep :
    { busy with status := .halted .systemCall }.status = .halted .systemCall := rfl

/-- Runs of no cycle and of one, from an empty trace. -/
theorem witness_TraceHoldsRecentFetches :
    (Sys2Proof.core.run 0 loadiAhead = .next loadiAhead ∧ loadiAhead.trace = []) ∧
    (∃ t, Sys2Proof.core.run 1 loadiAhead = .next t) ∧ 1 ≤ 1 :=
  ⟨⟨rfl, rfl⟩, ⟨_, rfl⟩, le_rfl⟩

/-- A step, in the window and out of it, and a state whose next instruction is `scall 1`. -/
theorem witness_CounterCountsDecodedFetches :
    (∃ t, step loadiAhead = .next t) ∧ (∃ t, step { busy with pc := 0x31 } = .next t) ∧
    ({ busy with mem := [(0x12, 0x01), (0x13, 0xFF)] }.status = .running ∧ busy.inFetchWindow busy.pc = true ∧
      decodeWord busy.config (State.fetch { busy with mem := [(0x12, 0x01), (0x13, 0xFF)] }) = .ok (.scall 1)) := by
  refine ⟨⟨_, rfl⟩, ⟨_, rfl⟩, rfl, rfl, ?_⟩
  decide

theorem witness_LaunchInputsNeverChange : ∃ t, Sys2Proof.core.run 1 loadiAhead = .next t := ⟨_, rfl⟩

theorem witness_PcStaysEven :
    loadiAhead.config.jalOdd = .fault ∧ loadiAhead.pc.toNat % 2 = 0 ∧ ∃ t, step loadiAhead = .next t :=
  ⟨rfl, rfl, _, rfl⟩

theorem loadiAhead_wf : loadiAhead.Wf where
  mem_wf := by decide
  mem_fits := by decide
  x_wf := by decide
  x_fits := by unfold fits; decide
  a_fits := by unfold fits; decide
  ar_fits := by unfold fits; decide
  pc_fits := by unfold fits; decide
  entry_fits := by unfold fits; decide
  trace_bound := by decide
  trace_fits := fun _ h => nomatch h
  written_rising := by decide
  marks_agree := by decide

theorem witness_StepKeepsWellFormed : loadiAhead.Wf ∧ ∃ t, step loadiAhead = .next t := ⟨loadiAhead_wf, _, rfl⟩

theorem witness_ObservedStateIsNeverRead :
    AgreeButObserved loadiAhead { loadiAhead with written := [], trace := [4], out := [0x41] } := rfl

theorem witness_DecodeOfEncodeIsIdentity :
    (Config.specDefault .x64).wellFormed = true ∧
    Instr.wellFormed (Config.specDefault .x64) (.loadh7 0xFF) = true ∧
    { Config.specDefault .x32 with dontCare := .prefixMatch }.wellFormed = true ∧
    Instr.wellFormed (Config.specDefault .x32) (.brn 0x800) = true := by decide

theorem witness_EncodeOfDecodeIsTheWord :
    (Config.specDefault .x32).wellFormed = true ∧ (Config.specDefault .x32).dontCare = .exact ∧
    decodeWord (Config.specDefault .x32) 0xC800 = .ok (.brn 0x800) := by decide

/-- A selector, a dense byte, and a byte of neither tier. -/
theorem witness_BranchTierThenDenseTier :
    (Config.specDefault .x32).wellFormed = true ∧ (Config.specDefault .x32).dontCare = .exact ∧
    (OpcodeMap.default.selectorOf .brn = some 0xC ∧ (0xCF#8).extractLsb' 4 4 = 0xC) ∧
    ((∀ k sel, OpcodeMap.default.selectorOf k = some sel → (0x30#8).extractLsb' 4 4 ≠ sel) ∧
      ⟨.store, 0x30, 0b11111000, 0b00110000⟩ ∈ OpcodeMap.default.rowsAt .x32) ∧
    ((∀ k sel, OpcodeMap.default.selectorOf k = some sel → (0x31#8).extractLsb' 4 4 ≠ sel) ∧
      ∀ r ∈ OpcodeMap.default.rowsAt .x32, r.byte ≠ 0x31) := by
  refine ⟨by decide, rfl, by decide, ⟨?_, by decide +kernel⟩, ?_, by decide +kernel⟩ <;>
  · intro k sel h
    cases k <;> cases h <;> decide

/-- The overlap of `sub` with nothing longer, and a byte that no pattern matches. -/
theorem witness_PrefixPolicyTakesLongestMatch :
    { Config.specDefault .x32 with dontCare := .prefixMatch }.dontCare = .prefixMatch ∧
    (∀ k sel, OpcodeMap.default.selectorOf k = some sel → (0x0E#8).extractLsb' 4 4 ≠ sel) ∧
    ((⟨.sub, 0x0C, 0b11111101, 0b00001100⟩ : OpcodeRow) ∈ OpcodeMap.default.rowsAt .x32 ∧
      OpcodeRow.patMatches ⟨.sub, 0x0C, 0b11111101, 0b00001100⟩ 0x0E = true ∧
      ∀ q ∈ OpcodeMap.default.rowsAt .x32, q ≠ ⟨.sub, 0x0C, 0b11111101, 0b00001100⟩ →
        q.patMatches 0x0E = true → q.tested < OpcodeRow.tested ⟨.sub, 0x0C, 0b11111101, 0b00001100⟩) ∧
    (∀ r ∈ OpcodeMap.default.rowsAt .x32, r.patMatches 0xF0 = false) := by
  refine ⟨rfl, ?_, by decide, by decide +kernel⟩
  intro k sel h
  cases k <;> cases h <;> decide

/-- An image of even length, the empty one, and one of odd length. -/
theorem witness_FlatLaunchLoadsAtZero :
    ([0x05, 0x21, 0x00, 0x08] : List Byte).length % 2 = 0 ∧ ([] : List Byte).length % 2 = 0 ∧
    ([0x05, 0x21, 0x00, 0x08] : List Byte).length ≤ 2 ^ Xlen.x32.bits ∧ ([0x05] : List Byte).length % 2 = 1 := by
  decide

/-- Two placed regions, of which the second ends at the top of memory, and one at address 0, not placed. -/
def twoRegions : ElfImage :=
  { entry := 0x100, textSize := 2,
    regions := [⟨0x100, [0x05, 0x21]⟩, ⟨0xFFFFFFFE, [1, 2, 3]⟩, ⟨0, [0x77]⟩] }

theorem witness_ElfLaunchPlacesRegions :
    (twoRegions.disjoint .x32 = true ∧ twoRegions.entry.toNat % 2 = 0) ∧
    ({ twoRegions with regions := [⟨4, [1, 2]⟩, ⟨5, [3]⟩] }.disjoint .x32 = false) ∧
    ({ twoRegions with entry := 0x101 }.disjoint .x32 = true ∧ { twoRegions with entry := 0x101 }.entry.toNat % 2 = 1) := by
  decide

theorem witness_ArgumentVectorInMemoryAndRegisters :
    4 * ([] : List Int).length ≤ 2 ^ busy.config.xlen.bits ∧
    4 * ([-1, 7] : List Int).length ≤ 2 ^ busy.config.xlen.bits := by decide

/-- A mapping that sets `r1`, which the launch also sets, to the least value of the 32-bit build, and `r255` to the
greatest. -/
theorem witness_InitialMappingWins :
    (([(1, -2 ^ 31), (255, 2 ^ 31 - 1)] : List (RegIdx × Int)).map (·.1)).Nodup ∧
    (-2 ^ (Xlen.x32.bits - 1) ≤ (-2 ^ 31 : Int) ∧ (2 ^ 31 - 1 : Int) < 2 ^ (Xlen.x32.bits - 1)) := by decide

end Sys2Proof.Tests
end

/-! # What every run keeps

A meaning changes the state only through the named operations of Machine/Ops.lean. So a property that each of these
operations keeps is kept by every instruction, by every cycle, and along every run: the case split over the
instructions is made here once, for every such property. -/

namespace Sys2Proof.Proofs

open Sys2Proof Sys2Proof.Machine Sys2Proof.Claims

/-- Every operation by which a meaning changes the state keeps the property. -/
structure KeptByWrites (P : State → Prop) : Prop where
  writeA : ∀ {s : State} (v : Word), P s → P (s.writeA v)
  writeAr : ∀ {s : State} (v : Word), P s → P (s.writeAr v)
  writeX : ∀ {s : State} (i : RegIdx) (v : Word), P s → P (s.writeX i v)
  setPc : ∀ {s : State} (target : Word), P s → P (s.setPc target)
  memWrite : ∀ {s : State} (addr : Word) (n : Nat) (v : Word), P s → P (s.memWrite addr n v)
  emit : ∀ {s : State} (b : Byte), P s → P (s.emit b)
  halt : ∀ {s : State} (r : RunResult), P s → P (s.halt r)

/-- The trace and the counter of a cycle (R232, R234) keep the property too. -/
structure KeptByCycle (P : State → Prop) : Prop extends KeptByWrites P where
  recordFetch : ∀ {s : State}, P s → P s.recordFetch
  count : ∀ {s : State}, P s → P s.count

theorem completes_next_iff {t : State} {P : State → Prop} : Completes (.next t) P ↔ P t :=
  ⟨fun ⟨_, he, ht⟩ => Host.Outcome.next.inj he ▸ ht, fun ht => ⟨t, rfl, ht⟩⟩

namespace KeptByWrites

variable {P : State → Prop} {s : State} (h : KeptByWrites P)

include h

/-! ## The shapes a meaning has -/

theorem completes_advance (hs : P s) : Completes s.advance P :=
  completes_next_iff.2 (h.setPc _ hs)

theorem completes_raise (e : Error) (hs : P s) : Completes (s.raise e) P :=
  completes_next_iff.2 (h.halt _ hs)

theorem completes_branch (op : Operand) (hs : P s) : Completes (s.branch op) P :=
  completes_next_iff.2 (h.setPc _ hs)

theorem completes_withRead (l : Loc) {k : Word → Answer} (hs : P s) (hk : ∀ v, Completes (k v) P) :
    Completes (s.withRead l k) P := by
  rcases withRead_cases s l k with ⟨v, -, hgo⟩ | ⟨-, herr⟩
  · exact hgo ▸ hk v
  · exact herr ▸ completes_next_iff.2 (h.halt _ hs)

theorem completes_withSource (op : Operand) {k : Word → Answer} (hs : P s) (hk : ∀ v, Completes (k v) P) :
    Completes (s.withSource op k) P := by
  cases op with
  | none => exact hk 0
  | register i => exact h.completes_withRead (.x i) hs hk
  | immediate v => exact hk v

theorem completes_loadA (op : Operand) (hs : P s) : Completes (s.loadA op) P :=
  h.completes_withSource op hs fun _ => h.completes_advance (h.writeA _ hs)

theorem completes_accumulate (f : Word → Word → Word) (op : Operand) (hs : P s) :
    Completes (s.accumulate f op) P :=
  h.completes_withRead .a hs fun _ =>
    h.completes_withSource op hs fun _ => h.completes_advance (h.writeA _ hs)

theorem completes_branchIf (cond : Word → Bool) (op : Operand) (hs : P s) : Completes (s.branchIf cond op) P := by
  refine h.completes_withRead .a hs fun a => ?_
  split
  · exact h.completes_branch op hs
  · exact h.completes_advance hs

/-! ## The meanings with branches of their own -/

theorem completes_execSra (hs : P s) : Completes (execSra s) P := by
  refine h.completes_withRead .a hs fun a => ?_
  split <;> exact h.completes_advance (h.writeA _ hs)

theorem completes_execJal (r : RegIdx) (hs : P s) : Completes (execJal r s) P := by
  refine h.completes_withRead .a hs fun t => ?_
  have hjumped : P ((s.writeX r (s.pc + 2)).setPc t) := h.setPc _ (h.writeX _ _ hs)
  split
  · exact h.completes_raise _ hs
  split
  · exact h.completes_raise _ hs
  split
  · exact completes_next_iff.2 (h.halt _ hjumped)
  · exact completes_next_iff.2 hjumped

theorem completes_execScall (imm : Byte) (hs : P s) : Completes (execScall imm s) P := by
  unfold execScall
  split
  · exact completes_next_iff.2 (h.halt _ hs)
  split
  · exact h.completes_advance (h.writeX _ _ hs)
  split
  · exact h.completes_withRead .a hs fun _ => h.completes_advance (h.emit _ hs)
  split
  · exact h.completes_raise _ hs
  · exact h.completes_advance hs

/-- Every instruction answers a next state, and one with the property (R100). -/
theorem completes_exec (i : Instr) (hs : P s) : Completes (exec i s) P := by
  cases i with
  | nop => exact h.completes_advance hs
  | inPort | outPort => exact h.completes_raise _ hs
  | load r => exact h.completes_loadA (operandOf s.config (.load r)) hs
  | loadi imm => exact h.completes_loadA (operandOf s.config (.loadi imm)) hs
  | add | addi | sub | subi | and | andi | or | ori | xor | xori => exact h.completes_accumulate _ _ hs
  | loadh | loadh2 | loadh3 | loadh4 | loadh5 | loadh6 | loadh7 => exact h.completes_accumulate _ _ hs
  | sra => exact h.completes_execSra hs
  | store r => exact h.completes_withRead .a hs fun _ => h.completes_advance (h.writeX r _ hs)
  | ldaddr r => exact h.completes_withRead (.x r) hs fun _ => h.completes_advance (h.writeAr _ hs)
  | ldind | ldindbu => exact h.completes_withRead .ar hs fun _ => h.completes_advance (h.writeA _ hs)
  | stind | stindb =>
    exact h.completes_withRead .a hs fun _ => h.completes_withRead .ar hs fun _ =>
      h.completes_advance (h.memWrite _ _ _ hs)
  | br => exact h.completes_branch _ hs
  | brz | brnz | brp | brn => exact h.completes_branchIf _ _ hs
  | jal r => exact h.completes_execJal r hs
  | scall imm => exact h.completes_execScall imm hs

end KeptByWrites

/-- A run of `n + 1` steps that answers a state is one step, then a run of `n`. -/
theorem run_succ_eq_next_iff {M : Host.Core} {n : Nat} {s t : M.State} :
    M.run (n + 1) s = .next t ↔ ∃ u, M.step s = .next u ∧ M.run n u = .next t := by
  rw [Host.Core.run]
  rcases M.step s with u | r | r <;> simp

namespace KeptByCycle

variable {P : State → Prop} {s t : State} (h : KeptByCycle P)

include h

/-- Every cycle keeps the property (R236). -/
theorem step_keeps (hs : P s) (hstep : step s = .next t) : P t := by
  have hbegun : P s.beginCycle := h.count (h.recordFetch hs)
  suffices hP : Completes (step s) P from completes_next_iff.1 (hstep ▸ hP)
  rcases step_cases s with ⟨r, -, hfault⟩ | ⟨-, -, hleft⟩ | ⟨i, -, -, -, hexec⟩ | ⟨e, -, -, -, hunknown⟩
  · exact nomatch hfault.symm.trans hstep
  · exact hleft ▸ completes_next_iff.2 (h.halt _ (h.recordFetch hs))
  · exact hexec ▸ h.completes_exec i hbegun
  · exact hunknown ▸ completes_next_iff.2 (h.halt _ hbegun)

/-- Every run keeps the property. -/
theorem run_keeps (n : Nat) (hs : P s) (hrun : Sys2Proof.core.run n s = .next t) : P t := by
  induction n generalizing s with
  | zero => exact Host.Outcome.next.inj hrun ▸ hs
  | succ n ih =>
    obtain ⟨u, hstep, hrest⟩ := run_succ_eq_next_iff.1 hrun
    exact ih (h.step_keeps hs hstep) hrest

end KeptByCycle

/-! ## The launch inputs -/

/-- The parameters (R6), `E` and `S` (R29) of two states are the same. -/
def SameLaunchInputs (s t : State) : Prop :=
  t.config = s.config ∧ t.entry = s.entry ∧ t.textSize = s.textSize

/-- No operation of a cycle names the parameters, `E` or `S` among the fields it sets. -/
theorem sameLaunchInputs_keptByCycle (s : State) : KeptByCycle (SameLaunchInputs s) where
  writeA _ hs := hs
  writeAr _ hs := hs
  writeX _ _ hs := hs
  setPc _ hs := hs
  memWrite _ _ _ hs := hs
  emit _ hs := hs
  halt _ hs := hs
  recordFetch hs := hs
  count hs := hs

/-- Settles O44: the launch inputs of the first state are an invariant that every cycle keeps. -/
theorem launchInputsNeverChange : Obligations.LaunchInputsNeverChange := by
  intro n s t hrun
  exact (sameLaunchInputs_keptByCycle s).run_keeps n ⟨rfl, rfl, rfl⟩ hrun

end Sys2Proof.Proofs

/-! # What one instruction can do

One inversion of `exec`: an instruction halts the state it was given, or writes at most one location that the
instruction may write and then moves `pc` to a target that it may take. -/

namespace Sys2Proof.Proofs

open Sys2Proof Sys2Proof.Machine Sys2Proof.Claims

/-- `Writes i s u`: `u` is `s` after the one write, or none, that `i` may make before `pc` moves (R22, R23, R25, R58,
R212). -/
inductive Writes (i : Instr) (s : State) : State → Prop
  | nothing : Writes i s s
  | accumulator (v : Word) : writesA i = true → Writes i s (s.writeA v)
  | addressRegister (r : RegIdx) (v : Word) : i = .ldaddr r → Writes i s (s.writeAr v)
  | register (r : RegIdx) (v : Word) : writesX i = some r → Writes i s (s.writeX r v)
  | memory (imm : Byte) (addr : Word) (n : Nat) (v : Word) :
      i = .stind imm ∨ i = .stindb imm → Writes i s (s.memWrite addr n v)
  | output (b : Byte) : i = .scall 2 → Writes i s (s.emit b)

/-- The instruction is a branch with the displacement field `off`. -/
def IsBranch (i : Instr) (off : BitVec 12) : Prop :=
  i = .br off ∨ i = .brz off ∨ i = .brnz off ∨ i = .brp off ∨ i = .brn off

/-- The values that an instruction may give `pc`, before they are taken modulo `2^XLEN` (R105, R170, R171). -/
inductive Targets (i : Instr) (s : State) : Word → Prop
  | following : Targets i s (s.pc + 2)
  | displaced (off : BitVec 12) : IsBranch i off → Targets i s (s.pc + sextDisp s.config.xlen off)
  | jumped (r : RegIdx) (t : Word) : i = .jal r → (s.config.jalOdd = .fault → t.getLsbD 0 = false) → Targets i s t

/-- Every state that an instruction can answer. -/
inductive Effect (i : Instr) (s : State) : State → Prop
  | ended (r : RunResult) : Effect i s (s.halt r)
  | moved {u : State} {target : Word} : Writes i s u → Targets i s target → Effect i s (u.setPc target)
  | returned {u : State} {target : Word} : Writes i s u → Targets i s target →
      Effect i s ((u.setPc target).halt .returnToCaller)

section Effects

variable {i : Instr} {s t u : State} {target : Word}

theorem Writes.pc_eq (h : Writes i s u) : u.pc = s.pc := by
  cases h <;> rfl

theorem Writes.config_eq (h : Writes i s u) : u.config = s.config := by
  cases h <;> rfl

theorem Writes.completes_advance (h : Writes i s u) : Completes u.advance (Effect i s) := by
  rw [advance_eq, h.pc_eq]
  exact completes_next_iff.2 (.moved h .following)

theorem effect_raise (e : Error) : Completes (s.raise e) (Effect i s) :=
  completes_next_iff.2 (.ended _)

theorem effect_branch {op : Operand} (htarget : Targets i s (s.pc + op.value)) :
    Completes (s.branch op) (Effect i s) :=
  completes_next_iff.2 (.moved .nothing htarget)

theorem effect_withRead (l : Loc) {k : Word → Answer} (hk : ∀ v, Completes (k v) (Effect i s)) :
    Completes (s.withRead l k) (Effect i s) := by
  rcases withRead_cases s l k with ⟨v, -, hgo⟩ | ⟨-, herr⟩
  · exact hgo ▸ hk v
  · exact herr ▸ completes_next_iff.2 (.ended _)

theorem effect_withSource (op : Operand) {k : Word → Answer} (hk : ∀ v, Completes (k v) (Effect i s)) :
    Completes (s.withSource op k) (Effect i s) := by
  cases op with
  | none => exact hk 0
  | register r => exact effect_withRead (.x r) hk
  | immediate v => exact hk v

theorem effect_loadA (hi : writesA i = true) (op : Operand) : Completes (s.loadA op) (Effect i s) :=
  effect_withSource op fun b => (Writes.accumulator b hi).completes_advance

theorem effect_accumulate (hi : writesA i = true) (f : Word → Word → Word) (op : Operand) :
    Completes (s.accumulate f op) (Effect i s) :=
  effect_withRead .a fun a => effect_withSource op fun b => (Writes.accumulator (f a b) hi).completes_advance

theorem effect_branchIf (cond : Word → Bool) {op : Operand} (htarget : Targets i s (s.pc + op.value)) :
    Completes (s.branchIf cond op) (Effect i s) := by
  refine effect_withRead .a fun a => ?_
  split
  · exact effect_branch htarget
  · exact Writes.nothing.completes_advance

theorem effect_execSra : Completes (execSra s) (Effect .sra s) := by
  refine effect_withRead .a fun a => ?_
  split <;> exact (Writes.accumulator _ rfl).completes_advance

theorem effect_execJal (r : RegIdx) : Completes (execJal r s) (Effect (.jal r) s) := by
  refine effect_withRead .a fun t => ?_
  have hlink : Writes (.jal r) s (s.writeX r (s.pc + 2)) := .register r _ rfl
  split
  · exact effect_raise _
  split
  · exact effect_raise _
  next hodd =>
    have htarget : Targets (.jal r) s t := .jumped r t rfl fun hfault => by simpa [hfault] using hodd
    split
    · exact completes_next_iff.2 (.returned hlink htarget)
    · exact completes_next_iff.2 (.moved hlink htarget)

theorem effect_execScall (imm : Byte) : Completes (execScall imm s) (Effect (.scall imm) s) := by
  unfold execScall
  split
  · exact completes_next_iff.2 (.ended _)
  split
  next hcount => exact (Writes.register counterRegister _ (hcount ▸ rfl)).completes_advance
  split
  next hemit => exact effect_withRead .a fun a => (Writes.output _ (hemit ▸ rfl)).completes_advance
  split
  · exact effect_raise _
  · exact Writes.nothing.completes_advance

/-- Every instruction answers a next state, and one of those that `Effect` lists (R100). -/
theorem exec_completes_effect (i : Instr) (s : State) : Completes (exec i s) (Effect i s) := by
  cases i with
  | nop => exact Writes.nothing.completes_advance
  | inPort | outPort => exact effect_raise _
  | load r => exact effect_loadA rfl (operandOf s.config (.load r))
  | loadi imm => exact effect_loadA rfl (operandOf s.config (.loadi imm))
  | add | addi | sub | subi | and | andi | or | ori | xor | xori => exact effect_accumulate rfl _ _
  | loadh | loadh2 | loadh3 | loadh4 | loadh5 | loadh6 | loadh7 => exact effect_accumulate rfl _ _
  | sra => exact effect_execSra
  | store r => exact effect_withRead .a fun a => (Writes.register r a rfl).completes_advance
  | ldaddr r => exact effect_withRead (.x r) fun b => (Writes.addressRegister r b rfl).completes_advance
  | ldind | ldindbu => exact effect_withRead .ar fun _ => (Writes.accumulator _ rfl).completes_advance
  | stind imm =>
    exact effect_withRead .a fun _ => effect_withRead .ar fun _ =>
      (Writes.memory imm _ _ _ (.inl rfl)).completes_advance
  | stindb imm =>
    exact effect_withRead .a fun _ => effect_withRead .ar fun _ =>
      (Writes.memory imm _ _ _ (.inr rfl)).completes_advance
  | br off => exact effect_branch (.displaced off (by simp [IsBranch]))
  | brz off | brnz off | brp off | brn off => exact effect_branchIf _ (.displaced off (by simp [IsBranch]))
  | jal r => exact effect_execJal r
  | scall imm => exact effect_execScall imm

theorem effect_of_exec (hexec : exec i s = .next t) : Effect i s t :=
  completes_next_iff.1 (hexec ▸ exec_completes_effect i s)

/-- An instruction leaves `pc` where it is or takes one of its targets modulo `2^XLEN` (R27). -/
theorem Effect.pc_cases (h : Effect i s t) :
    t.pc = s.pc ∨ ∃ target, Targets i s target ∧ t.pc = wrap s.config.xlen target := by
  cases h with
  | ended r => exact .inl rfl
  | moved hu htarget | returned hu htarget => exact .inr ⟨_, htarget, by simp [hu.config_eq]⟩

/-- What an instruction writes is what its one write leaves, in everything but `pc` and the status. -/
theorem Effect.exists_writes (h : Effect i s t) :
    ∃ u pc status, Writes i s u ∧ t = { u with pc := pc, status := status } := by
  cases h with
  | ended r => exact ⟨s, s.pc, .halted r, .nothing, rfl⟩
  | moved hu _ => exact ⟨_, _, _, hu, rfl⟩
  | returned hu _ => exact ⟨_, _, _, hu, rfl⟩

end Effects

/-! ## The writers of each location -/

section Writers

variable {i : Instr} {s u : State}

theorem Writes.aSame (h : Writes i s u) (hi : writesA i = false) : ASame s u := by
  cases h with
  | accumulator v hw => exact absurd hw (by simp [hi])
  | nothing | addressRegister | register | memory | output => exact ⟨rfl, rfl⟩

theorem Writes.arSame (h : Writes i s u) (hi : ∀ r, i ≠ .ldaddr r) : ArSame s u := by
  cases h with
  | addressRegister r v hw => exact absurd hw (hi r)
  | nothing | accumulator | register | memory | output => exact ⟨rfl, rfl⟩

/-- A write to one register leaves every other as it was (R104). -/
theorem regSame_writeX {r j : RegIdx} (v : Word) (hj : j ≠ r) : RegSame s (s.writeX r v) j := by
  simp [RegSame, Sparse.get_set, BitVec.toNat_inj, hj]

theorem Writes.regSame (h : Writes i s u) {j : RegIdx} (hi : writesX i ≠ some j) : RegSame s u j := by
  cases h with
  | register r v hw => exact regSame_writeX v fun hj => hi (hj ▸ hw)
  | nothing | accumulator | addressRegister | memory | output => exact ⟨rfl, rfl, Iff.rfl⟩

theorem Writes.memSame (h : Writes i s u) (hi : ∀ imm, i ≠ .stind imm ∧ i ≠ .stindb imm) : MemSame s u := by
  cases h with
  | memory imm addr n v hw => exact absurd hw (by simp [hi imm])
  | nothing | accumulator | addressRegister | register | output => exact fun _ => rfl

theorem Writes.out_eq (h : Writes i s u) (hi : i ≠ .scall 2) : u.out = s.out := by
  cases h with
  | output b hw => exact absurd hw hi
  | nothing | accumulator | addressRegister | register | memory => rfl

end Writers

/-- Settles O38: each clause is about the one write of the instruction, since moving `pc` and halting touch none of
these locations. -/
theorem eachLocationHasItsWriters : Obligations.EachLocationHasItsWriters := by
  intro i s t hexec
  obtain ⟨u, pc, status, hu, rfl⟩ := (effect_of_exec hexec).exists_writes
  exact ⟨hu.aSame, hu.arSame, fun _ => hu.regSame, hu.memSame, hu.out_eq⟩

/-! ## The parity of `pc` -/

section Parity

variable {i : Instr} {s t : State} {target : Word}

theorem toNat_mod_two_eq_zero_iff {n : Nat} (v : BitVec n) : v.toNat % 2 = 0 ↔ v.getLsbD 0 = false := by
  simp [BitVec.getLsbD, Nat.testBit_zero]

/-- `2^XLEN` is even, so reducing a word keeps its parity. -/
theorem wrap_toNat_mod_two (x : Xlen) (v : Word) : (wrap x v).toNat % 2 = v.toNat % 2 := by
  rw [wrap_toNat]
  exact Nat.mod_mod_of_dvd _ (dvd_pow_self 2 (by cases x <;> decide))

theorem toNat_add_mod_two (v d : Word) (hd : d.toNat % 2 = 0) : (v + d).toNat % 2 = v.toNat % 2 := by
  rw [BitVec.toNat_add]
  omega

/-- A branch displacement is even: its lowest bit is the 0 that R74 appends. -/
theorem sextDisp_toNat_mod_two (x : Xlen) (off : BitVec 12) : (sextDisp x off).toNat % 2 = 0 := by
  have hlow : (off ++ 0#1).getLsbD 0 = false := BitVec.getLsbD_append
  rw [sextDisp, wrap_toNat_mod_two, toNat_mod_two_eq_zero_iff, BitVec.getLsbD_signExtend, if_pos (by decide), hlow,
    Bool.and_false]

/-- From an even `pc`, every target is even where odd jumps are errors (R28). -/
theorem Targets.even (h : Targets i s target) (hodd : s.config.jalOdd = .fault) (hpc : s.pc.toNat % 2 = 0) :
    target.toNat % 2 = 0 := by
  cases h with
  | following => rw [toNat_add_mod_two _ _ rfl, hpc]
  | displaced off _ => rw [toNat_add_mod_two _ _ (sextDisp_toNat_mod_two _ off), hpc]
  | jumped r t _ heven => exact (toNat_mod_two_eq_zero_iff _).2 (heven hodd)

theorem Effect.pc_even (h : Effect i s t) (hodd : s.config.jalOdd = .fault) (hpc : s.pc.toNat % 2 = 0) :
    t.pc.toNat % 2 = 0 := by
  rcases h.pc_cases with hkept | ⟨target, htarget, hwrapped⟩
  · rw [hkept, hpc]
  · rw [hwrapped, wrap_toNat_mod_two, htarget.even hodd hpc]

theorem step_pc_even (hodd : s.config.jalOdd = .fault) (hpc : s.pc.toNat % 2 = 0) (hstep : step s = .next t) :
    t.pc.toNat % 2 = 0 := by
  rcases step_cases s with ⟨r, -, hfault⟩ | ⟨-, -, hleft⟩ | ⟨i, -, -, -, hexec⟩ | ⟨e, -, -, -, hunknown⟩
  · exact nomatch hfault.symm.trans hstep
  · exact Host.Outcome.next.inj (hleft.symm.trans hstep) ▸ hpc
  · exact (effect_of_exec (hexec.symm.trans hstep)).pc_even hodd hpc
  · exact Host.Outcome.next.inj (hunknown.symm.trans hstep) ▸ hpc

end Parity

/-- A state under `JAL_ODD_TARGET = allow` whose `pc` is 0 and whose next instruction is `jal r0` to the odd address 1,
which is in the window. -/
def oddJumpAhead : State :=
  { State.reset with
    config := { Config.reset with jalOdd := .allow }, a := 1, initA := true, textSize := 2, mem := [(1, 0x40)] }

/-- Settles O45: every target of an instruction is even where odd jumps are errors, and `oddJumpAhead` steps to
`pc = 1` where they are allowed. -/
theorem pcStaysEven : Obligations.PcStaysEven :=
  ⟨fun _ _ => step_pc_even, oddJumpAhead, _, rfl, rfl, rfl, rfl⟩

end Sys2Proof.Proofs

/-! # Well-formed states

Every operation by which a cycle changes the state keeps it well formed, so every cycle does. Construction and the
stack pointer's write at launch give the reset state the invariant. -/

namespace Sys2Proof.Proofs

open Sys2Proof Sys2Proof.Machine Sys2Proof.Claims

section WellFormed

variable {s : State}

/-- A register write enters the mark and the place in `W` together (R34, R104). -/
theorem writeX_marks_agree (i : RegIdx) (v : Word)
    (h : ∀ j : RegIdx, s.initX.getLsbD j.toNat = s.written.contains j) (j : RegIdx) :
    (s.writeX i v).initX.getLsbD j.toNat = (s.writeX i v).written.contains j := by
  rw [State.writeX_initX, or_bit_getLsbD, h j, Bool.eq_iff_iff]
  simp [or_comm]

theorem writeX_x_fits (i : RegIdx) (v : Word) (h : ∀ e ∈ s.x, e.1 < registerCount ∧ fits s.config.xlen e.2) :
    ∀ e ∈ (s.writeX i v).x, e.1 < registerCount ∧ fits s.config.xlen e.2 := by
  intro e he
  rcases Sparse.mem_set he with rfl | hold
  · exact ⟨i.isLt, wrap_fits _ v⟩
  · exact h e hold

theorem recordFetch_trace_fits (hpc : fits s.config.xlen s.pc) (h : ∀ v ∈ s.trace, fits s.config.xlen v) :
    ∀ v ∈ s.recordFetch.trace, fits s.config.xlen v :=
  fun v hv => List.forall_mem_cons.2 ⟨hpc, h⟩ v (List.mem_of_mem_take hv)

/-- The case of each operation: the fields it sets keep their clauses, and the other clauses speak of what it leaves
unchanged. -/
theorem wf_keptByCycle : KeptByCycle State.Wf where
  writeA v hs := { hs with a_fits := wrap_fits _ v }
  writeAr v hs := { hs with ar_fits := wrap_fits _ v }
  writeX i v hs :=
    { hs with
      x_wf := Sparse.wf_set _ _ hs.x_wf
      x_fits := writeX_x_fits i v hs.x_fits
      written_rising := rising_addIndex hs.written_rising
      marks_agree := writeX_marks_agree i v hs.marks_agree }
  setPc target hs := { hs with pc_fits := wrap_fits _ target }
  memWrite addr n v hs :=
    { hs with
      mem_wf := storeBytes_wf _ _ addr v n hs.mem_wf
      mem_fits := storeBytes_fits _ _ addr v n hs.mem_fits }
  emit _ hs := { hs with }
  halt _ hs := { hs with }
  recordFetch hs :=
    { hs with
      trace_bound := List.length_take_le _ _
      trace_fits := recordFetch_trace_fits hs.pc_fits hs.trace_fits }
  count hs := { hs with }

end WellFormed

/-- Settles O46: well-formedness is an invariant of the operations, so of every cycle. -/
theorem stepKeepsWellFormed : Obligations.StepKeepsWellFormed :=
  fun _ _ => wf_keptByCycle.step_keeps

theorem construct_wf (c : Config) : (State.construct c).Wf where
  mem_wf := Sparse.wf_nil
  mem_fits := List.forall_mem_nil _
  x_wf := Sparse.wf_nil
  x_fits := List.forall_mem_nil _
  a_fits := fits_zero _
  ar_fits := fits_zero _
  pc_fits := fits_zero _
  entry_fits := fits_zero _
  trace_bound := Nat.zero_le _
  trace_fits := List.forall_mem_nil _
  written_rising := rfl
  marks_agree _ := BitVec.getLsbD_zero

/-- The reset state is the constructed state after the launch's write of `DEFAULT_SP`, which is 0 (R280 step 3). -/
theorem reset_eq_setStackPointer : State.reset = (State.construct Config.reset).setStackPointer := rfl

/-- Settles O54: the constructed state is well formed, and a register write keeps it so. -/
theorem resetIsWellFormed : Obligations.ResetIsWellFormed := by
  unfold Obligations.ResetIsWellFormed
  rw [reset_eq_setStackPointer]
  exact wf_keptByCycle.writeX _ _ (construct_wf _)

end Sys2Proof.Proofs

/-! # The state of a fresh start

The start that reset and the optional reset share: from a state with every mark clear, the launch without arguments
and mapping marks `x[1]` alone (R38, R280, R287). -/

namespace Sys2Proof.Proofs

open Sys2Proof Sys2Proof.Machine Sys2Proof.Claims

theorem construct_initialised (c : Config) (l : Loc) : (State.construct c).initialised l = false := by
  cases l with
  | a | ar => rfl
  | x i => exact BitVec.getLsbD_zero

theorem clearForReset_initialised (s : State) (l : Loc) : s.clearForReset.initialised l = false :=
  construct_initialised s.config l

theorem setStackPointer_initialised_iff {s : State} (hclear : ∀ l, s.initialised l = false) (l : Loc) :
    s.setStackPointer.initialised l = true ↔ l = .x 1 := by
  cases l with
  | a | ar => simp [State.setStackPointer, hclear]
  | x i => simp [State.setStackPointer, hclear]

theorem setStackPointer_stored (s : State) :
    s.setStackPointer.stored (.x 1) = wrap s.config.xlen s.config.defaultSp := by
  simp [State.setStackPointer]

/-- Settles O53: reset is a constructed state after the stack pointer's write. -/
theorem resetLeavesTheSpecsValues : Obligations.ResetLeavesTheSpecsValues := by
  have hmarks : ∀ l, State.reset.initialised l = true ↔ l = .x 1 := by
    rw [reset_eq_setStackPointer]
    exact setStackPointer_initialised_iff (construct_initialised _)
  refine ⟨rfl, rfl, rfl, rfl, rfl, fun _ => rfl, hmarks, ?_, ?_⟩
  · rw [read_of_initialised ((hmarks _).2 rfl), reset_eq_setStackPointer]
    exact congrArg Except.ok (setStackPointer_stored _)
  · rw [reset_eq_setStackPointer]
    rfl

/-- Settles O59: the optional reset clears the state around the image and then starts it as a launch does. -/
theorem optionalResetKeepsTheImage : Obligations.OptionalResetKeepsTheImage := by
  intro s
  refine ⟨rfl, fun _ => rfl, rfl, rfl, rfl, rfl, rfl, rfl, ?_, rfl, ?_, wrap_toNat _ _⟩
  · exact setStackPointer_initialised_iff (clearForReset_initialised s)
  · exact setStackPointer_stored s.clearForReset

end Sys2Proof.Proofs

/-! # The trace -/

namespace Sys2Proof.Proofs

open Sys2Proof Sys2Proof.Machine Sys2Proof.Claims

section Trace

variable {s t : State}

/-- A meaning changes no trace: only the beginning of a cycle does (R232). -/
theorem trace_keptByWrites (tr : List Word) : KeptByWrites (fun s => s.trace = tr) where
  writeA _ hs := hs
  writeAr _ hs := hs
  writeX _ _ hs := hs
  setPc _ hs := hs
  memWrite _ _ _ hs := hs
  emit _ hs := hs
  halt _ hs := hs

/-- Every cycle records its fetch, in the window or out of it (R232). -/
theorem step_trace (hstep : step s = .next t) : t.trace = (s.pc :: s.trace).take traceDepth := by
  rcases step_cases s with ⟨r, -, hfault⟩ | ⟨-, -, hleft⟩ | ⟨i, -, -, -, hexec⟩ | ⟨e, -, -, -, hunknown⟩
  · exact nomatch hfault.symm.trans hstep
  · exact Host.Outcome.next.inj (hleft.symm.trans hstep) ▸ rfl
  · have hkept := (trace_keptByWrites _).completes_exec (s := s.beginCycle) i rfl
    exact completes_next_iff.1 ((hexec.symm.trans hstep) ▸ hkept)
  · exact Host.Outcome.next.inj (hunknown.symm.trans hstep) ▸ rfl

theorem fetches_succ {n : Nat} (hstep : step s = .next t) : fetches (n + 1) s = fetches n t ++ [s.pc] := by
  rw [fetches, hstep]

theorem length_fetches {n : Nat} (hrun : Sys2Proof.core.run n s = .next t) : (fetches n s).length = n := by
  induction n generalizing s with
  | zero => rfl
  | succ n ih =>
    obtain ⟨u, hstep, hrest⟩ := run_succ_eq_next_iff.1 hrun
    simp [fetches_succ hstep, ih hrest]

/-- Cutting a list off at `k` before more recent values are put in front changes nothing of the first `k`. -/
theorem take_append_take {α : Type} (k : Nat) (recent old : List α) :
    (recent ++ old.take k).take k = (recent ++ old).take k := by
  simp [List.take_append, List.take_take]

/-- By induction on the cycles after the first: each puts its `pc` behind the later ones and before the old trace. -/
theorem run_succ_trace {n : Nat} (hrun : Sys2Proof.core.run (n + 1) s = .next t) :
    t.trace = (fetches (n + 1) s ++ s.trace).take traceDepth := by
  induction n generalizing s with
  | zero =>
    obtain ⟨u, hstep, hrest⟩ := run_succ_eq_next_iff.1 hrun
    rw [← Host.Outcome.next.inj hrest, step_trace hstep, fetches_succ hstep]
    rfl
  | succ n ih =>
    obtain ⟨u, hstep, hrest⟩ := run_succ_eq_next_iff.1 hrun
    calc t.trace = (fetches (n + 1) u ++ u.trace).take traceDepth := ih hrest
      _ = (fetches (n + 1) u ++ s.pc :: s.trace).take traceDepth := by rw [step_trace hstep, take_append_take]
      _ = (fetches (n + 2) s ++ s.trace).take traceDepth := by rw [fetches_succ hstep, List.append_assoc]; rfl

theorem run_trace_of_empty {n : Nat} (hempty : s.trace = []) (hrun : Sys2Proof.core.run n s = .next t) :
    t.trace = (fetches n s).take traceDepth := by
  cases n with
  | zero => rw [← Host.Outcome.next.inj hrun, hempty]; rfl
  | succ n => rw [run_succ_trace hrun, hempty, List.append_nil]

end Trace

/-- Settles O42, from the trace of a run of at least one cycle, with the empty run apart. -/
theorem traceHoldsRecentFetches : Obligations.TraceHoldsRecentFetches := by
  intro n s t hrun
  refine ⟨fun hempty => ?_, fun hn => ?_⟩
  · have htrace := run_trace_of_empty hempty hrun
    refine ⟨?_, htrace⟩
    rw [htrace, List.length_take, length_fetches hrun, Nat.min_comm]
    rfl
  · obtain ⟨m, rfl⟩ := Nat.exists_eq_add_of_le' hn
    exact run_succ_trace hrun

end Sys2Proof.Proofs

/-! # What no step reads

Two states that differ in `W`, `T` and `OUT` only are read alike, and every operation keeps them so: the answers
agree by the shapes that the meanings have. -/

namespace Sys2Proof.Proofs

open Sys2Proof Sys2Proof.Machine Sys2Proof.Claims

/-- `Reobserved s t`: `t` is `s` with some other values of `W`, `T` and `OUT`. -/
inductive Reobserved (s : State) : State → Prop
  | intro (written : List RegIdx) (trace : List Word) (out : List Byte) :
      Reobserved s { s with written := written, trace := trace, out := out }

theorem reobserved_iff {s t : State} : Reobserved s t ↔ AgreeButObserved s t :=
  ⟨fun ⟨_, _, _⟩ => rfl, fun h => h ▸ .intro _ _ _⟩

namespace Reobserved

variable {s t : State} (h : Reobserved s t)

include h

/-! ## What is read alike -/

theorem pc_eq : t.pc = s.pc := by cases h; rfl

theorem config_eq : t.config = s.config := by cases h; rfl

theorem nExec_eq : t.nExec = s.nExec := by cases h; rfl

theorem status_eq : t.status = s.status := by cases h; rfl

theorem inFetchWindow_eq (a : Word) : t.inFetchWindow a = s.inFetchWindow a := by cases h; rfl

theorem inJalWindow_eq (a : Word) : t.inJalWindow a = s.inJalWindow a := by cases h; rfl

theorem read_eq (l : Loc) : t.read l = s.read l := by cases h; cases l <;> rfl

theorem memRead_eq (addr : Word) (n : Nat) : t.memRead addr n = s.memRead addr n := by
  cases h
  exact memRead_congr _ _ addr n rfl fun _ _ => rfl

theorem fetch_eq : t.fetch = s.fetch := by
  rw [State.fetch, State.fetch, h.pc_eq, h.memRead_eq]

/-! ## Each operation keeps the relation -/

theorem writeA (v : Word) : Reobserved (s.writeA v) (t.writeA v) := by cases h; constructor

theorem writeAr (v : Word) : Reobserved (s.writeAr v) (t.writeAr v) := by cases h; constructor

theorem writeX (i : RegIdx) (v : Word) : Reobserved (s.writeX i v) (t.writeX i v) := by cases h; constructor

theorem setPc (target : Word) : Reobserved (s.setPc target) (t.setPc target) := by cases h; constructor

theorem memWrite (addr : Word) (n : Nat) (v : Word) : Reobserved (s.memWrite addr n v) (t.memWrite addr n v) := by
  cases h; constructor

theorem emit (b : Byte) : Reobserved (s.emit b) (t.emit b) := by cases h; constructor

theorem halt (r : RunResult) : Reobserved (s.halt r) (t.halt r) := by cases h; constructor

theorem beginCycle : Reobserved s.beginCycle t.beginCycle := by cases h; constructor

theorem recordFetch : Reobserved s.recordFetch t.recordFetch := by cases h; constructor

theorem answersAgree : AnswersAgree (.next s) (.next t) := reobserved_iff.1 h

/-! ## The shapes a meaning has -/

theorem agree_raise (e : Error) : AnswersAgree (s.raise e) (t.raise e) := (h.halt _).answersAgree

theorem agree_advance : AnswersAgree s.advance t.advance := by
  rw [advance_eq, advance_eq, h.pc_eq]
  exact (h.setPc _).answersAgree

theorem agree_branch (op : Operand) : AnswersAgree (s.branch op) (t.branch op) := by
  rw [branch_eq, branch_eq, h.pc_eq]
  exact (h.setPc _).answersAgree

theorem agree_withRead (l : Loc) {k k' : Word → Answer} (hk : ∀ v, AnswersAgree (k v) (k' v)) :
    AnswersAgree (s.withRead l k) (t.withRead l k') := by
  rcases hread : s.read l with e | v
  · rw [withRead_error hread, withRead_error ((h.read_eq l).trans hread)]
    exact (h.halt _).answersAgree
  · rw [withRead_ok hread, withRead_ok ((h.read_eq l).trans hread)]
    exact hk v

theorem agree_withSource (op : Operand) {k k' : Word → Answer} (hk : ∀ v, AnswersAgree (k v) (k' v)) :
    AnswersAgree (s.withSource op k) (t.withSource op k') := by
  cases op with
  | none => exact hk 0
  | register r => exact h.agree_withRead (.x r) hk
  | immediate v => exact hk v

theorem agree_loadA (op : Operand) : AnswersAgree (s.loadA op) (t.loadA op) :=
  h.agree_withSource op fun b => (h.writeA b).agree_advance

theorem agree_accumulate (f : Word → Word → Word) (op : Operand) :
    AnswersAgree (s.accumulate f op) (t.accumulate f op) :=
  h.agree_withRead .a fun a => h.agree_withSource op fun b => (h.writeA (f a b)).agree_advance

theorem agree_branchIf (cond : Word → Bool) (op : Operand) :
    AnswersAgree (s.branchIf cond op) (t.branchIf cond op) := by
  refine h.agree_withRead .a fun a => ?_
  split
  · exact h.agree_branch op
  · exact h.agree_advance

/-! ## The meanings with branches of their own -/

theorem agree_execSra : AnswersAgree (execSra s) (execSra t) := by
  refine h.agree_withRead .a fun a => ?_
  rw [h.config_eq]
  split <;> exact (h.writeA _).agree_advance

theorem agree_execJal (r : RegIdx) : AnswersAgree (execJal r s) (execJal r t) := by
  refine h.agree_withRead .a fun target => ?_
  rw [h.inJalWindow_eq, h.config_eq, h.pc_eq]
  have hjumped := (h.writeX r (s.pc + 2)).setPc target
  split
  · exact h.agree_raise _
  split
  · exact h.agree_raise _
  split
  · exact (hjumped.halt _).answersAgree
  · exact hjumped.answersAgree

theorem agree_execScall (imm : Byte) : AnswersAgree (execScall imm s) (execScall imm t) := by
  unfold execScall
  rw [h.config_eq, h.nExec_eq]
  split
  · exact (h.halt _).answersAgree
  split
  · exact (h.writeX _ _).agree_advance
  split
  · exact h.agree_withRead .a fun a => (h.emit _).agree_advance
  split
  · exact h.agree_raise _
  · exact h.agree_advance

/-- Every instruction answers alike in agreeing states. -/
theorem agree_exec (i : Instr) : AnswersAgree (exec i s) (exec i t) := by
  -- `id` keeps `h` beside the state it determines.
  obtain ⟨written, trace, out⟩ := id h
  cases i with
  | nop => exact h.agree_advance
  | inPort | outPort => exact h.agree_raise _
  | load r => exact h.agree_loadA (operandOf s.config (.load r))
  | loadi imm => exact h.agree_loadA (operandOf s.config (.loadi imm))
  | add | addi | sub | subi | and | andi | or | ori | xor | xori => exact h.agree_accumulate _ _
  | loadh | loadh2 | loadh3 | loadh4 | loadh5 | loadh6 | loadh7 => exact h.agree_accumulate _ _
  | sra => exact h.agree_execSra
  | store r => exact h.agree_withRead .a fun a => (h.writeX r a).agree_advance
  | ldaddr r => exact h.agree_withRead (.x r) fun b => (h.writeAr b).agree_advance
  | ldind | ldindbu =>
    refine h.agree_withRead .ar fun base => ?_
    rw [h.memRead_eq]
    exact (h.writeA _).agree_advance
  | stind | stindb =>
    exact h.agree_withRead .a fun _ => h.agree_withRead .ar fun _ => (h.memWrite _ _ _).agree_advance
  | br => exact h.agree_branch _
  | brz | brnz | brp | brn => exact h.agree_branchIf _ _
  | jal r => exact h.agree_execJal r
  | scall imm => exact h.agree_execScall imm

/-- Agreeing states are both halted alike, both outside the window, or both at the same word. -/
theorem agree_step : AnswersAgree (step s) (step t) := by
  unfold step
  rw [h.status_eq, h.pc_eq, h.inFetchWindow_eq, h.config_eq, h.fetch_eq]
  split
  · rfl
  split
  · split
    · exact h.beginCycle.agree_exec _
    · exact h.beginCycle.agree_raise _
  · exact (h.recordFetch.halt _).answersAgree

end Reobserved

/-- Settles O47: the two steps take the same branches, since nothing they read differs, and each operation keeps the
relation. -/
theorem observedStateIsNeverRead : Obligations.ObservedStateIsNeverRead :=
  fun _ _ h => (reobserved_iff.2 h).agree_step

end Sys2Proof.Proofs

/-! # Memory accesses in numbers and by parts

A read of several bytes is a read of its first bytes and a read of the bytes after them. So an access that meets a write
in part is cut into the part the write sets and the parts it leaves alone. -/

namespace Sys2Proof.Proofs

open Sys2Proof Sys2Proof.Machine Sys2Proof.Claims

section Memory

variable (s : State) (addr v : Word)

/-! ## Addresses -/

theorem byteAddress_add (x : Xlen) (i j : Nat) :
    byteAddress x (addr + BitVec.ofNat 64 i) j = byteAddress x addr (i + j) := by
  unfold byteAddress
  rw [BitVec.add_assoc, ← BitVec.ofNat_add]

theorem byteAddress_wrap (x : Xlen) (i : Nat) : byteAddress x (wrap x addr) i = byteAddress x addr i := by
  rw [byteAddress_eq, byteAddress_eq, wrap_toNat, Nat.mod_add_mod]

/-- An access reads at its address modulo `2^XLEN` (R51). -/
theorem memRead_wrap (n : Nat) : s.memRead (wrap s.config.xlen addr) n = s.memRead addr n := by
  induction n with
  | zero => rfl
  | succ n ih => rw [State.memRead, State.memRead, ih, byteAddress_wrap]

/-! ## Reads -/

theorem memRead_eq_sum (n : Nat) :
    s.memRead addr n = ((List.range n).map fun i =>
      (Memory.byte s.mem (byteAddress s.config.xlen addr i)).toNat * 2 ^ (8 * i)).sum := by
  induction n with
  | zero => rfl
  | succ n ih => simp [State.memRead, List.range_succ, ih]

/-- A read of `m + n` bytes is a read of `m` and, above it, a read of the `n` that follow (R53, R55). -/
theorem memRead_add (m n : Nat) :
    s.memRead addr (m + n) = s.memRead addr m + s.memRead (addr + BitVec.ofNat 64 m) n * 2 ^ (8 * m) := by
  induction n with
  | zero => simp [State.memRead]
  | succ n ih =>
    rw [← Nat.add_assoc, State.memRead, State.memRead, ih, byteAddress_add]
    ring

/-- The low bytes of a read are the read of these bytes. -/
theorem memRead_add_mod (m n : Nat) : s.memRead addr (m + n) % 2 ^ (8 * m) = s.memRead addr m := by
  rw [memRead_add, Nat.add_mul_mod_self_right, Nat.mod_eq_of_lt (memRead_lt s addr m)]

/-- The high bytes of a read are the read of the bytes from there on. -/
theorem memRead_add_div (m n : Nat) :
    s.memRead addr (m + n) / 2 ^ (8 * m) = s.memRead (addr + BitVec.ofNat 64 m) n := by
  rw [memRead_add, Nat.add_mul_div_right _ _ (Nat.two_pow_pos _), Nat.div_eq_of_lt (memRead_lt s addr m),
    Nat.zero_add]

/-! ## Reads after a write -/

/-- A read of bytes that lie within a write gives these bytes of the value (R53, R54). -/
theorem memRead_memWrite_within (i k : Nat) {n : Nat} (hik : i + k ≤ n) (hn : n ≤ 8) :
    (s.memWrite addr n v).memRead (addr + BitVec.ofNat 64 i) k = v.toNat / 2 ^ (8 * i) % 2 ^ (8 * k) := by
  induction k with
  | zero => simp [State.memRead, Nat.mod_one]
  | succ k ih =>
    have hbyte : (Memory.byte (storeBytes s.config.xlen s.mem addr v n)
        (byteAddress s.config.xlen addr (i + k))).toNat = v.toNat / 2 ^ (8 * i) / 2 ^ (8 * k) % 2 ^ 8 := by
      rw [storeBytes_byte _ _ _ _ hn (by omega), BitVec.extractLsb'_toNat, Nat.shiftRight_eq_div_pow,
        Nat.div_div_eq_div_mul, ← Nat.pow_add, Nat.mul_add]
    rw [State.memRead, ih (by omega), State.memWrite_mem, State.memWrite_config, byteAddress_add, hbyte,
      Nat.mul_succ, Nat.pow_add, Nat.mod_mul, Nat.mul_comm (2 ^ (8 * k))]

/-- A read of bytes that all lie before or all lie after those of a write gives what it gave before (R54). -/
theorem memRead_memWrite_apart {i m k l : Nat} (hm : i + m ≤ 8) (hl : k + l ≤ 8) (h : i + m ≤ k ∨ k + l ≤ i) :
    (s.memWrite (addr + BitVec.ofNat 64 i) m v).memRead (addr + BitVec.ofNat 64 k) l
      = s.memRead (addr + BitVec.ofNat 64 k) l := by
  refine memRead_congr _ _ _ l rfl fun b hb => storeBytes_other _ _ _ _ _ _ fun j hj heq => ?_
  rw [byteAddress_add, byteAddress_add] at heq
  have := byteAddress_inj _ addr (by omega) (by omega) heq
  omega

/-- A write of `m` bytes inside an access replaces bytes `i` to `i + m - 1` of what the access reads and no others
(R53, R54). -/
theorem memRead_memWrite_inside {i m l : Nat} (h : i + m + l ≤ 8) :
    (s.memWrite (addr + BitVec.ofNat 64 i) m v).memRead addr (i + m + l)
      = s.memRead addr (i + m + l) % 2 ^ (8 * i) + v.toNat % 2 ^ (8 * m) * 2 ^ (8 * i)
        + s.memRead addr (i + m + l) / 2 ^ (8 * (i + m)) * 2 ^ (8 * (i + m)) := by
  have hbefore : (s.memWrite (addr + BitVec.ofNat 64 i) m v).memRead addr i = s.memRead addr i := by
    simpa using memRead_memWrite_apart s addr v (i := i) (m := m) (k := 0) (l := i) (by omega) (by omega) (by omega)
  have hafter := memRead_memWrite_apart s addr v (i := i) (m := m) (k := i + m) (l := l) (by omega) h (by omega)
  have hlow : s.memRead addr (i + m + l) % 2 ^ (8 * i) = s.memRead addr i := by
    rw [Nat.add_assoc, memRead_add_mod]
  rw [hlow, memRead_add_div, memRead_add, memRead_add, hbefore, memRead_memWrite _ _ _ (by omega), hafter]

end Memory

/-- Settles O28: the sum holds for a read of any length, at the addresses `byteAddress_eq` gives in numbers. -/
theorem memReadIsLittleEndianSum : Obligations.MemReadIsLittleEndianSum := by
  intro s addr n _
  rw [memRead_eq_sum]
  simp only [byteAddress_eq]

/-- Settles O29: the bytes of one access lie at different addresses, so no later byte overwrites an earlier one. -/
theorem memWriteSetsItsBytesOnly : Obligations.MemWriteSetsItsBytesOnly := by
  intro s addr n v hn
  have hn8 : n ≤ 8 := (by decide : ∀ k ∈ [1, 2, 4, 8], k ≤ 8) n hn
  simp only [← byteAddress_eq, State.memWrite_mem]
  exact ⟨fun i hi => storeBytes_byte _ _ _ _ hn8 hi, fun b hb => storeBytes_other _ _ _ _ _ _ hb, rfl⟩

/-- Settles O30: the narrow reads lie within the wide write, the narrow write inside the wide read. -/
theorem mixedWidthAccessesCompose : Obligations.MixedWidthAccessesCompose := by
  intro s a v b
  have hlow := memRead_memWrite_within s a v 0 1 (n := 4) (by omega) (by omega)
  have hhigh := memRead_memWrite_within s a v 3 1 (n := 4) (by omega) (by omega)
  have hinside := memRead_memWrite_inside s a (b.setWidth 64) (i := 1) (m := 1) (l := 2) (by omega)
  have hb : (b.setWidth 64).toNat % 2 ^ (8 * 1) = b.toNat := by
    rw [BitVec.toNat_setWidth]; omega
  rw [hb] at hinside
  exact ⟨by simpa using hlow, hhigh, hinside⟩

/-! ## A stored word as the next instruction -/

/-- `stind` in a state in which its two operands are readable (R193). -/
theorem exec_stind_of_read {s : State} {a base : Word} (imm : Byte) (ha : s.read .a = .ok a)
    (hbase : s.read .ar = .ok base) :
    exec (.stind imm) s = .next
      ((s.memWrite (effectiveAddress s.config.xlen base (operandOf s.config (.stind imm)).value)
        (indirectBytes s.config) a).setPc (s.pc + 2)) :=
  (withRead_ok ha).trans (withRead_ok hbase)

/-- An indirect word holds an instruction word and is no longer than the longest access (R57). -/
theorem indirectBytes_bounds (c : Config) : instrBytes ≤ indirectBytes c ∧ indirectBytes c ≤ 8 := by
  unfold indirectBytes instrBytes
  split
  · omega
  · split <;> omega

theorem memRead_setPc (s : State) (target addr : Word) (n : Nat) :
    (s.setPc target).memRead addr n = s.memRead addr n :=
  memRead_congr _ _ addr n rfl fun _ _ => rfl

/-- A fetch reads the instruction word at `pc` (R231). -/
theorem setPc_fetch (s : State) (target : Word) :
    (s.setPc target).fetch = BitVec.ofNat 16 (s.memRead target instrBytes) := by
  rw [State.fetch, State.setPc_pc, memRead_setPc, memRead_wrap]

/-- Settles O31: the two bytes of the fetch lie within the word stored. -/
theorem storeIsSeenByFetch : Obligations.StoreIsSeenByFetch := by
  intro s imm a base ha hbase
  obtain ⟨htwo, height⟩ := indirectBytes_bounds s.config
  rw [exec_stind_of_read imm ha hbase, completes_next_iff, setPc_fetch, memRead_setPc]
  set target := effectiveAddress s.config.xlen base (operandOf s.config (.stind imm)).value
  have hread : (s.memWrite target (indirectBytes s.config) a).memRead target instrBytes = a.toNat % 2 ^ 16 := by
    simpa [instrBytes] using memRead_memWrite_within s target a 0 instrBytes (by omega) height
  rw [hread]
  apply BitVec.eq_of_toNat_eq
  simp

end Sys2Proof.Proofs

/-! # The decoder and the encoder

Both are read off the same opcode map. A map that passes the checks of log 10 is a partial bijection in each tier: five
selectors for five branches, and one row for every other kind of the build, with a byte of its own. So each tier is
described once, by what its rows decode to and encode to, and the two directions of the round trip are put together from
the tiers. -/

namespace Sys2Proof.Proofs

open Sys2Proof Sys2Proof.Machine Sys2Proof.Claims

/-! ## What the checks of a map say -/

/-- The checks of `OpcodeMap.wellFormed` that the two tiers of the decoder rest on, as propositions (R77, R78, R80). -/
structure SoundMap (m : OpcodeMap) (x : Xlen) : Prop where
  selectors_nodup : m.branches.all.Nodup
  kinds_nodup : ((m.rowsAt x).map (·.kind)).Nodup
  kind_dense : ∀ r ∈ m.rowsAt x, r.kind ∈ Kind.denseKinds
  row_exists : ∀ k ∈ Kind.denseKinds, k.existsAt x = true → ∃ r ∈ m.rowsAt x, r.kind = k
  bytes_nodup : ((m.rowsAt x).map (·.byte)).Nodup
  byte_outside : ∀ r ∈ m.rowsAt x, r.byte.extractLsb' 4 4 ∉ m.branches.all
  own_pattern : ∀ r ∈ m.rowsAt x, r.patMatches r.byte = true
  other_shorter : ∀ r ∈ m.rowsAt x, ∀ q ∈ m.rowsAt x, q.kind ≠ r.kind → q.patMatches r.byte = true →
    q.tested < r.tested

theorem soundMap_of_wellFormed {c : Config} (h : c.wellFormed = true) : SoundMap c.opcodes c.xlen := by
  simp only [Config.wellFormed, OpcodeMap.wellFormed, OpcodeMap.selectorsDistinct, OpcodeMap.rowsComplete,
    OpcodeMap.bytesDistinct, OpcodeMap.bytesOutsideBranches, OpcodeMap.prefixesAgree, Bool.and_eq_true,
    decide_eq_true_eq, List.all_eq_true] at h
  obtain ⟨⟨⟨⟨⟨hsel, ⟨hkinds, hdense⟩, hrows⟩, hbytes⟩, houtside⟩, -⟩, hprefix⟩ := h
  exact {
    selectors_nodup := hsel
    kinds_nodup := hkinds
    kind_dense := fun r hr => by simpa using hdense r hr
    row_exists := fun k hk hx => by simpa [hx] using hrows k hk
    bytes_nodup := hbytes
    byte_outside := fun r hr => by simpa using houtside r hr
    own_pattern := fun r hr => (hprefix r hr).1
    other_shorter := fun r hr q hq hne hmatch => by simpa [hne, hmatch] using (hprefix r hr).2 q hq }

section Tiers

variable {c : Config} {m : OpcodeMap} {x : Xlen} {k : Kind} {sel : BitVec 4} {op : Byte} {r : OpcodeRow}

/-! ## The branch tier -/

theorem selectorOf_eq_some_iff : m.selectorOf k = some sel ↔
    (k = .br ∧ m.branches.br = sel) ∨ (k = .brz ∧ m.branches.brz = sel) ∨ (k = .brnz ∧ m.branches.brnz = sel) ∨
      (k = .brp ∧ m.branches.brp = sel) ∨ (k = .brn ∧ m.branches.brn = sel) := by
  cases k <;> simp [OpcodeMap.selectorOf]

theorem mem_selectors_iff : sel ∈ m.branches.all ↔ ∃ k, m.selectorOf k = some sel := by
  simp [selectorOf_eq_some_iff, BranchSelectors.all, exists_or, @eq_comm _ sel]

theorem not_mem_selectors_iff : sel ∉ m.branches.all ↔ ∀ k s, m.selectorOf k = some s → sel ≠ s := by
  rw [mem_selectors_iff]
  exact ⟨fun h k s hs heq => h ⟨k, heq ▸ hs⟩, fun h ⟨k, hk⟩ => h k sel hk rfl⟩

/-- Different selectors: each is found as its own branch's, past the branches tested before it (R77). -/
theorem branchKind_of_selectorOf (hnodup : m.branches.all.Nodup) (h : m.selectorOf k = some sel) :
    m.branchKind sel = some k := by
  simp only [BranchSelectors.all, List.nodup_cons, List.mem_cons, List.not_mem_nil, not_or] at hnodup
  rcases selectorOf_eq_some_iff.1 h with ⟨rfl, rfl⟩ | ⟨rfl, rfl⟩ | ⟨rfl, rfl⟩ | ⟨rfl, rfl⟩ | ⟨rfl, rfl⟩ <;>
    simp [OpcodeMap.branchKind, hnodup, Ne.symm]

theorem decodeOpcode_of_selectorOf (hnodup : c.opcodes.branches.all.Nodup)
    (h : c.opcodes.selectorOf k = some (op.extractLsb' 4 4)) : decodeOpcode c op = k := by
  rw [decodeOpcode, branchKind_of_selectorOf hnodup h]

/-! ## The dense tier -/

theorem decodeOpcode_exact (hop : op.extractLsb' 4 4 ∉ c.opcodes.branches.all) (hpolicy : c.dontCare = .exact) :
    decodeOpcode c op = c.opcodes.exactKind c.xlen op := by
  rw [decodeOpcode, branchKind_eq_none.2 hop, hpolicy]

theorem decodeOpcode_prefix (hop : op.extractLsb' 4 4 ∉ c.opcodes.branches.all)
    (hpolicy : c.dontCare = .prefixMatch) : decodeOpcode c op = c.opcodes.prefixKind c.xlen op := by
  rw [decodeOpcode, branchKind_eq_none.2 hop, hpolicy]

theorem exactKind_of_row (hnodup : ((m.rowsAt x).map (·.byte)).Nodup) (hr : r ∈ m.rowsAt x) :
    m.exactKind x r.byte = r.kind := by
  rw [OpcodeMap.exactKind, find_of_nodup (·.byte) hnodup hr]

theorem exactKind_unknown (h : ∀ r ∈ m.rowsAt x, r.byte ≠ op) : m.exactKind x op = .unknown := by
  have hnone : (m.rowsAt x).find? (fun r => r.byte == op) = none := by simpa using h
  rw [OpcodeMap.exactKind, hnone]

/-- Of the rows that match, the one with strictly the most tested bits decides (R80). -/
theorem prefixKind_of_row (hr : r ∈ m.rowsAt x) (hmatch : r.patMatches op = true)
    (hlongest : ∀ q ∈ m.rowsAt x, q ≠ r → q.patMatches op = true → q.tested < r.tested) :
    m.prefixKind x op = r.kind := by
  obtain ⟨-, hnone⟩ | ⟨q, hq, hfound, hqmatch, hmax⟩ := longestMatch_spec op (m.rowsAt x)
  · rw [hnone r hr] at hmatch
    cases hmatch
  · have hqr : q = r := by
      by_contra hne
      exact absurd (hlongest q hq hne hqmatch) (Nat.not_lt.2 (hmax r hr hmatch))
    rw [OpcodeMap.prefixKind, hfound, hqr]

theorem prefixKind_unknown (h : ∀ r ∈ m.rowsAt x, r.patMatches op = false) : m.prefixKind x op = .unknown := by
  obtain ⟨hnone, -⟩ | ⟨q, hq, -, hqmatch, -⟩ := longestMatch_spec op (m.rowsAt x)
  · rw [OpcodeMap.prefixKind, hnone]
  · rw [h q hq] at hqmatch
    cases hqmatch

/-- A row's own byte decodes to its kind, under either policy (R79, R80). -/
theorem decodeOpcode_of_row (hm : SoundMap c.opcodes c.xlen) (hr : r ∈ c.opcodes.rowsAt c.xlen) :
    decodeOpcode c r.byte = r.kind := by
  have houtside := hm.byte_outside r hr
  cases hpolicy : c.dontCare with
  | exact => rw [decodeOpcode_exact houtside hpolicy, exactKind_of_row hm.bytes_nodup hr]
  | prefixMatch =>
    rw [decodeOpcode_prefix houtside hpolicy]
    refine prefixKind_of_row hr (hm.own_pattern r hr) fun q hq hne => hm.other_shorter r hr q hq fun hkind => hne ?_
    exact List.inj_on_of_nodup_map hm.kinds_nodup hq hr hkind

/-- What an opcode byte can be under the exact policy: a branch, the byte of a row, or unknown (R77, R79). -/
theorem decodeOpcode_exact_cases (hm : SoundMap c.opcodes c.xlen) (hpolicy : c.dontCare = .exact) (op : Byte) :
    c.opcodes.selectorOf (decodeOpcode c op) = some (op.extractLsb' 4 4) ∨
    (∃ r ∈ c.opcodes.rowsAt c.xlen, r.byte = op ∧ decodeOpcode c op = r.kind) ∨
    (op.extractLsb' 4 4 ∉ c.opcodes.branches.all ∧ (∀ r ∈ c.opcodes.rowsAt c.xlen, r.byte ≠ op) ∧
      decodeOpcode c op = .unknown) := by
  by_cases hsel : op.extractLsb' 4 4 ∈ c.opcodes.branches.all
  · obtain ⟨k, hk⟩ := mem_selectors_iff.1 hsel
    exact .inl ((decodeOpcode_of_selectorOf hm.selectors_nodup hk).symm ▸ hk)
  · by_cases hrow : ∃ r ∈ c.opcodes.rowsAt c.xlen, r.byte = op
    · obtain ⟨r, hr, rfl⟩ := hrow
      exact .inr (.inl ⟨r, hr, rfl, decodeOpcode_of_row hm hr⟩)
    · push Not at hrow
      exact .inr (.inr ⟨hsel, hrow, by rw [decodeOpcode_exact hsel hpolicy, exactKind_unknown hrow]⟩)

/-- The decodable bytes under the exact policy (R79). -/
theorem decodeOpcode_exact_ne_unknown_iff (hm : SoundMap c.opcodes c.xlen) (hpolicy : c.dontCare = .exact) (op : Byte) :
    decodeOpcode c op ≠ .unknown ↔
      op.extractLsb' 4 4 ∈ c.opcodes.branches.all ∨ op ∈ (c.opcodes.rowsAt c.xlen).map (·.byte) := by
  obtain hsel | ⟨r, hr, hbyte, hkind⟩ | ⟨hsel, hrow, hunknown⟩ := decodeOpcode_exact_cases hm hpolicy op
  · refine iff_of_true (fun hunknown => ?_) (.inl (mem_selectors_iff.2 ⟨_, hsel⟩))
    rw [hunknown] at hsel
    cases hsel
  · refine iff_of_true (fun hunknown => ?_) (.inr (List.mem_map.2 ⟨r, hr, hbyte⟩))
    have hdense := hm.kind_dense r hr
    rw [← hkind, hunknown] at hdense
    exact absurd hdense (by decide)
  · refine iff_of_false (not_not_intro hunknown) (not_or.2 ⟨hsel, fun hmem => ?_⟩)
    obtain ⟨r, hr, hbyte⟩ := List.mem_map.1 hmem
    exact hrow r hr hbyte

/-! ## The encoder -/

theorem selectorOf_of_mem_denseKinds (hk : k ∈ Kind.denseKinds) : m.selectorOf k = none := by
  cases k <;> simp_all [OpcodeMap.selectorOf, Kind.denseKinds]

/-- A kind of a build is in one of the two tiers (R77, R78). -/
theorem selectorOf_or_mem_denseKinds (m : OpcodeMap) (hk : k.existsAt x = true) :
    (∃ sel, m.selectorOf k = some sel) ∨ k ∈ Kind.denseKinds := by
  cases k <;> simp_all [OpcodeMap.selectorOf, Kind.denseKinds, Kind.existsAt]

theorem byteOf_of_row (hnodup : ((m.rowsAt x).map (·.kind)).Nodup) (hr : r ∈ m.rowsAt x) :
    m.byteOf x r.kind = some r.byte := by
  rw [OpcodeMap.byteOf, find_of_nodup (·.kind) hnodup hr, Option.map_some]

end Tiers

section RoundTrip

variable {c : Config} {i : Instr} {w : InstrWord} {sel : BitVec 4} {r : OpcodeRow}

theorem encode_of_selectorOf (h : c.opcodes.selectorOf i.kind = some sel) : encode c i = some (sel ++ i.off12) := by
  rw [encode, h]

theorem encode_of_row (hm : SoundMap c.opcodes c.xlen) (hr : r ∈ c.opcodes.rowsAt c.xlen) (hkind : r.kind = i.kind) :
    encode c i = some (r.byte ++ i.imm8) := by
  rw [encode, ← hkind, selectorOf_of_mem_denseKinds (hm.kind_dense r hr), byteOf_of_row hm.kinds_nodup hr]

/-! ## The operand fields -/

/-- A branch is its kind and the displacement field of its word (R71). -/
theorem build_branch_iff {m : OpcodeMap} (h : m.selectorOf i.kind = some sel) :
    i.kind.build w = some i ↔ off12Of w = i.off12 := by
  cases i <;> simp_all [Instr.kind, OpcodeMap.selectorOf, Kind.build, Instr.off12]

/-- Any other instruction is its kind and the immediate byte of its word, where that byte means anything (R71, R82). -/
theorem build_dense_iff (h : i.kind ∈ Kind.denseKinds) :
    i.kind.build w = some i ↔ ignoresImm8 i = true ∨ imm8Of w = i.imm8 := by
  cases i <;> simp_all [Instr.kind, Kind.denseKinds, Kind.build, Instr.imm8, ignoresImm8]

/-! ## The round trip -/

/-- A word decodes to an instruction when its opcode byte decodes to the kind and its fields are the operand. -/
theorem decodeWord_of_kind (hkind : decodeOpcode c (opcodeOf w) = i.kind) (hbuild : i.kind.build w = some i) :
    decodeWord c w = .ok i :=
  decodeWord_ok.2 (hkind ▸ hbuild)

/-- Every instruction of the build has a word, in the tier of its kind, and the word decodes to it. -/
theorem exists_encode (hm : SoundMap c.opcodes c.xlen) (hi : i.wellFormed c = true) :
    ∃ w, encode c i = some w ∧ decodeWord c w = .ok i := by
  obtain ⟨sel, hsel⟩ | hdense := selectorOf_or_mem_denseKinds c.opcodes hi
  · refine ⟨_, encode_of_selectorOf hsel, decodeWord_of_kind ?_ ((build_branch_iff hsel).2 (off12Of_append ..))⟩
    exact decodeOpcode_of_selectorOf hm.selectors_nodup (by rw [selector_append, hsel])
  · obtain ⟨r, hr, hkind⟩ := hm.row_exists i.kind hdense hi
    refine ⟨_, encode_of_row hm hr hkind, decodeWord_of_kind ?_ ((build_dense_iff hdense).2 (.inr (imm8Of_append ..)))⟩
    rw [opcodeOf_append, decodeOpcode_of_row hm hr, hkind]

theorem decodeWord_of_encode (hm : SoundMap c.opcodes c.xlen) (hi : i.wellFormed c = true) (h : encode c i = some w) :
    decodeWord c w = .ok i := by
  obtain ⟨w', henc, hdec⟩ := exists_encode hm hi
  obtain rfl : w' = w := Option.some.inj (henc.symm.trans h)
  exact hdec

theorem decode_bytesOfWord (h : decodeWord c w = .ok i) : decode c (bytesOfWord w) = .ok (i, []) := by
  rw [bytesOfWord, decode, wordOfBytes_bytesOfWord, h]

end RoundTrip

/-- Settles O48: the word of an instruction is made for one tier, and its bytes in memory order are the word again. -/
theorem decodeOfEncodeIsIdentity : Obligations.DecodeOfEncodeIsIdentity := by
  intro c i hc hi
  obtain ⟨w, henc, hdec⟩ := exists_encode (soundMap_of_wellFormed hc) hi
  exact ⟨w, henc, hdec, decode_bytesOfWord hdec⟩

/-- Settles O49: the word's tier is the one its instruction is encoded in, and what was decoded are its fields. -/
theorem encodeOfDecodeIsTheWord : Obligations.EncodeOfDecodeIsTheWord := by
  intro c w i hc hpolicy hdec
  have hm := soundMap_of_wellFormed hc
  have hbuild := decodeWord_ok.1 hdec
  have hkind := kind_of_build hbuild
  rw [← hkind] at hbuild
  obtain hsel | ⟨r, hr, hbyte, hrow⟩ | ⟨-, -, hunknown⟩ := decodeOpcode_exact_cases hm hpolicy (opcodeOf w)
  · rw [← hkind] at hsel
    have hword : encode c i = some w := by
      rw [encode_of_selectorOf hsel, ← (build_branch_iff hsel).1 hbuild, selector_off12]
    exact ⟨w, hword, rfl, fun _ => rfl⟩
  · have hri : r.kind = i.kind := hrow.symm.trans hkind.symm
    refine ⟨_, encode_of_row hm hr hri, by rw [opcodeOf_append, hbyte], fun huses => ?_⟩
    obtain hignores | himm := (build_dense_iff (hri ▸ hm.kind_dense r hr)).1 hbuild
    · rw [huses] at hignores
      cases hignores
    · rw [← himm, hbyte, opcode_imm8]
  · rw [hkind, hunknown] at hbuild
    cases hbuild

/-- Settles O50: the selectors differ, and so do the bytes, so a byte has one kind in each tier. -/
theorem branchTierThenDenseTier : Obligations.BranchTierThenDenseTier := by
  intro c op hc
  have hm := soundMap_of_wellFormed hc
  refine ⟨fun k sel hsel hop => decodeOpcode_of_selectorOf hm.selectors_nodup (hop ▸ hsel), fun hdense hpolicy => ?_⟩
  rw [decodeOpcode_exact (not_mem_selectors_iff.2 hdense) hpolicy]
  exact ⟨fun r hr hbyte => hbyte ▸ exactKind_of_row hm.bytes_nodup hr, exactKind_unknown⟩

/-- Settles O51: the longest match is unique where one matching row tests more bits than the others. The number of
decodable bytes is counted over all 256. -/
theorem prefixPolicyTakesLongestMatch : Obligations.PrefixPolicyTakesLongestMatch := by
  refine ⟨fun c op hpolicy hdense => ?_, fun x => ?_⟩
  · rw [decodeOpcode_prefix (not_mem_selectors_iff.2 hdense) hpolicy]
    exact ⟨fun r => prefixKind_of_row, prefixKind_unknown⟩
  · cases x <;> decide +kernel

end Sys2Proof.Proofs

/-! # The default map

What R78's map decodes: the words of its instructions in every build, and the set of its decodable bytes. -/

namespace Sys2Proof.Proofs

open Sys2Proof Sys2Proof.Machine Sys2Proof.Claims

/-! ## Its words -/

theorem soundMap_specDefault (x : Xlen) : SoundMap (Config.specDefault x).opcodes (Config.specDefault x).xlen :=
  soundMap_of_wellFormed (by cases x <;> decide)

/-- A kind that a build has, has the same byte there as in any other build (R78). -/
theorem byteOf_of_existsAt {k : Kind} {x : Xlen} (m : OpcodeMap) (hk : k.existsAt x = true) :
    m.byteOf x k = (m.dense.find? (fun r => r.kind == k)).map (·.byte) := by
  rw [OpcodeMap.byteOf, OpcodeMap.rowsAt, List.find?_filter]
  congr 2
  funext r
  by_cases h : r.kind = k <;> simp [h, hk]

theorem existsAt_x64 {k : Kind} {x : Xlen} (hk : k.existsAt x = true) : k.existsAt .x64 = true := by
  cases k <;> simp_all [Kind.existsAt]

theorem encode_specDefault {x : Xlen} {i : Instr} (hi : i.wellFormed (Config.specDefault x) = true) :
    encode (Config.specDefault x) i = encode (Config.specDefault .x64) i := by
  have hbyte : OpcodeMap.default.byteOf x i.kind = OpcodeMap.default.byteOf .x64 i.kind :=
    (byteOf_of_existsAt _ hi).trans (byteOf_of_existsAt _ (existsAt_x64 hi)).symm
  simp only [encode, Config.specDefault, hbyte]

/-- The word of an instruction under the default map decodes to it in every build that has it. -/
theorem decodesTo_of_encode {i : Instr} {w : InstrWord} (h : encode (Config.specDefault .x64) i = some w) :
    DecodesTo w i :=
  fun x hi => decodeWord_of_encode (soundMap_specDefault x) hi ((encode_specDefault hi).trans h)

theorem kind_dense_of_ignoresImm8 {i : Instr} (h : ignoresImm8 i = true) : i.kind ∈ Kind.denseKinds := by
  cases i <;> simp_all [ignoresImm8, Instr.kind, Kind.denseKinds]

/-- `nop`, `sra`, `in` and `out` decode from their opcode byte with any immediate byte (R82). -/
theorem decodesTo_of_ignoresImm8 {i : Instr} {w w' : InstrWord} (hi : ignoresImm8 i = true) (h : DecodesTo w i)
    (hop : opcodeOf w' = opcodeOf w) : DecodesTo w' i := by
  intro x hx
  have hkind := kind_of_build (decodeWord_ok.1 (h x hx))
  exact decodeWord_of_kind (hop ▸ hkind.symm) ((build_dense_iff (kind_dense_of_ignoresImm8 hi)).2 (.inl hi))

/-! ## Its decodable bytes -/

/-- The default branch tier is one range of opcode bytes (R79). -/
theorem selector_default_iff (op : Byte) :
    op.extractLsb' 4 4 ∈ BranchSelectors.default.all ↔ 0x80 ≤ op.toNat ∧ op.toNat ≤ 0xCF := by
  have hlt := op.isLt
  have htop : (op.extractLsb' 4 4).toNat = op.toNat / 16 := by
    rw [BitVec.extractLsb'_toNat, Nat.shiftRight_eq_div_pow]
    omega
  have hmem : op.extractLsb' 4 4 ∈ BranchSelectors.default.all ↔ op.toNat / 16 = 8 ∨ op.toNat / 16 = 9 ∨
      op.toNat / 16 = 10 ∨ op.toNat / 16 = 11 ∨ op.toNat / 16 = 12 := by
    simp [BranchSelectors.all, BranchSelectors.default, ← BitVec.toNat_inj, htop]
  rw [hmem]
  omega

/-- The bytes from `first` to `last`. -/
def bytesBetween (first last : Nat) : List Byte := (List.range' first (last + 1 - first)).map (BitVec.ofNat 8)

theorem mem_bytesBetween_iff {first last : Nat} {op : Byte} (h : last < 256) :
    op ∈ bytesBetween first last ↔ first ≤ op.toNat ∧ op.toNat ≤ last := by
  simp only [bytesBetween, List.mem_map, List.mem_range'_1]
  constructor
  · rintro ⟨n, hn, rfl⟩
    rw [BitVec.toNat_ofNat]
    omega
  · exact fun hop => ⟨op.toNat, by omega, BitVec.ofNat_toNat 8 op ▸ by simp⟩

/-- The exact bytes of the default map, as R79 groups them. -/
theorem bytes_default_perm (x : Xlen) : ((OpcodeMap.default.rowsAt x).map (·.byte)).Perm
    ([0x00#8, 0x05, 0x08, 0x09, 0x0C, 0x0D, 0x10, 0x30, 0x39, 0x40, 0x50, 0x60, 0x61, 0x70, 0x71, 0xFF]
      ++ bytesBetween 0x20 0x27 ++ bytesBetween 0x29 0x2B ++ if x = .x64 then bytesBetween 0x2C 0x2F else []) := by
  cases x <;> decide

/-- Settles O52: each word is the encoding of its instruction, but for the ignored immediates of `nop` and `sra`, and
the decodable bytes are those of the selectors and those of the rows. -/
theorem sampleWordsDecode : Obligations.SampleWordsDecode := by
  refine ⟨?_, fun x op => ?_⟩
  · have hnop : DecodesTo 0x00AB .nop := decodesTo_of_ignoresImm8 rfl (decodesTo_of_encode (w := 0x0000) rfl) rfl
    have hsra : DecodesTo 0x10AB .sra := decodesTo_of_ignoresImm8 rfl (decodesTo_of_encode (w := 0x1000) rfl) rfl
    refine ⟨hnop, ?_, ?_, hsra, ?_, ?_, ?_, ?_, ?_, ?_, ?_, ?_, ?_, ?_, ?_⟩ <;> exact decodesTo_of_encode rfl
  · have hdecodable : decodeOpcode (Config.specDefault x) op ≠ .unknown ↔
        op.extractLsb' 4 4 ∈ BranchSelectors.default.all ∨ op ∈ (OpcodeMap.default.rowsAt x).map (·.byte) :=
      decodeOpcode_exact_ne_unknown_iff (soundMap_specDefault x) rfl op
    have hwide : op ∈ (if x = .x64 then bytesBetween 0x2C 0x2F else []) ↔
        x = .x64 ∧ 0x2C ≤ op.toNat ∧ op.toNat ≤ 0x2F := by
      cases x <;> simp [mem_bytesBetween_iff]
    rw [hdecodable, selector_default_iff, (bytes_default_perm x).mem_iff, List.mem_append, List.mem_append,
      List.mem_append, mem_bytesBetween_iff (by decide), mem_bytesBetween_iff (by decide), hwide]
    exact iff_of_eq (by ac_rfl)

end Sys2Proof.Proofs

/-! # Displacements and indirect addresses in numbers

Every offset of the model is some integer modulo `2^XLEN`, and adding it adds that integer. -/

namespace Sys2Proof.Proofs

open Sys2Proof Sys2Proof.Machine Sys2Proof.Claims

section Addresses

variable (x : Xlen)

/-- Adding a word adds any integer of its residue modulo `2^XLEN` (R9). -/
theorem wrap_add_toNat_int {n : Int} {b : Word} (a : Word) (hb : (b.toNat : Int) % 2 ^ x.bits = n % 2 ^ x.bits) :
    ((wrap x (a + b)).toNat : Int) = (a.toNat + n) % 2 ^ x.bits := by
  rw [wrap_toNat_int, toNat_add_emod, Int.add_emod, hb, ← Int.add_emod]

/-- The displacement of a branch is twice its signed field (R74). -/
theorem sextDisp_toNat_int (off : BitVec 12) : ((sextDisp x off).toNat : Int) = (2 * off.toInt) % 2 ^ x.bits := by
  have hdouble : (off ++ 0#1).toInt = 2 * off.toInt := by
    rw [BitVec.toInt_append]
    simp
  rw [sextDisp, wrap_toNat_int, toNat_signExtend_emod x (by decide), hdouble]

theorem sext8_toNat_int (imm : Byte) : ((sext8 x imm).toNat : Int) = imm.toInt % 2 ^ x.bits := by
  rw [sext8, wrap_toNat_int, toNat_signExtend_emod x (by decide)]

theorem wrap_shiftLeft_toNat_int (v : Word) (k : Nat) :
    ((wrap x (v <<< k)).toNat : Int) = (2 ^ k * v.toNat) % 2 ^ x.bits := by
  rw [wrap_toNat, BitVec.toNat_shiftLeft, Nat.shiftLeft_eq, Nat.mod_mod_of_dvd _ (Nat.pow_dvd_pow 2 (bits_le x)),
    Nat.mul_comm]
  push_cast
  rfl

/-- The offset of a word form is four times its signed immediate (R75). -/
theorem scaled_sext8_toNat_int (imm : Byte) :
    ((wrap x (sext8 x imm <<< 2)).toNat : Int) = (4 * imm.toInt) % 2 ^ x.bits := by
  rw [wrap_shiftLeft_toNat_int, sext8_toNat_int]
  exact (Int.mod_modEq imm.toInt _).mul_left 4

end Addresses

/-! ## A branch -/

theorem exec_br (off : BitVec 12) (s : State) :
    exec (.br off) s = .next (s.setPc (s.pc + sextDisp s.config.xlen off)) := rfl

/-- An even displacement in range is twice the field that encodes it (R74). -/
theorem off12OfDisp_toInt {d : Int} (heven : d % 2 = 0) (hlow : -4096 ≤ d) (hhigh : d ≤ 4094) :
    2 * (off12OfDisp d).toInt = d := by
  rw [off12OfDisp, BitVec.toInt_ofInt, Int.bmod_eq_of_le (by norm_num; omega) (by norm_num; omega)]
  omega

/-- Settles O20: the operand is twice the field, and the field of an even displacement is half of it. -/
theorem branchDisplacementRoundTrip : Obligations.BranchDisplacementRoundTrip := by
  refine ⟨fun c off => ?_, fun d s heven hlow hhigh => ?_⟩
  · have hlow := BitVec.le_two_mul_toInt (x := off)
    have hhigh := BitVec.two_mul_toInt_lt (x := off)
    exact ⟨by omega, by omega, sextDisp_toNat_int c.xlen off⟩
  · rw [exec_br, completes_next_iff, State.setPc_pc]
    refine wrap_add_toNat_int _ _ ?_
    rw [sextDisp_toNat_int, Int.emod_emod, off12OfDisp_toInt heven hlow hhigh]

/-- Settles O22: the address is taken modulo `2^XLEN` once, whichever way the offset was reduced before. -/
theorem effectiveAddressWraps : Obligations.EffectiveAddressWraps := by
  intro c base imm
  have hword : ((effectiveAddress c.xlen base (wrap c.xlen (sext8 c.xlen imm <<< 2))).toNat : Int)
      = (base.toNat + 4 * imm.toInt) % 2 ^ c.xlen.bits :=
    wrap_add_toNat_int _ _ (by rw [scaled_sext8_toNat_int, Int.emod_emod])
  have hbyte : ((effectiveAddress c.xlen base (sext8 c.xlen imm)).toNat : Int)
      = (base.toNat + imm.toInt) % 2 ^ c.xlen.bits :=
    wrap_add_toNat_int _ _ (by rw [sext8_toNat_int, Int.emod_emod])
  exact ⟨List.forall_mem_cons.2 ⟨hword, List.forall_mem_singleton.2 hword⟩,
    List.forall_mem_cons.2 ⟨hbyte, List.forall_mem_singleton.2 hbyte⟩⟩

end Sys2Proof.Proofs

/-! # The checked reads of an instruction and what ends it

One inversion of `exec` by what it reads: the checked reads of its pseudocode come first and in order, the first
unwritten one ends the run, and after them the instruction continues or ends by a cause that is no read. -/

namespace Sys2Proof.Proofs

open Sys2Proof Sys2Proof.Machine Sys2Proof.Claims

/-- The answer is the error of the first location of the list that cannot be read, and satisfies `Q` where all of them
can (R103). -/
def AfterReads (s : State) (Q : Answer → Prop) : List Loc → Answer → Prop
  | [], o => Q o
  | l :: ls, o => (∀ e, s.read l = .error e → o = s.raise e) ∧ (∀ v, s.read l = .ok v → AfterReads s Q ls o)

section AfterReads

variable {s : State} {Q : Answer → Prop} {l : Loc} {ls before : List Loc} {o : Answer}

theorem read_of_unwritten (h : Unwritten s l) : s.read l = .error (.uninitialisedRead l) :=
  read_fault h.1 h.2

/-- A meaning that begins with a checked read has that read before those of what follows. -/
theorem afterReads_withRead {k : Word → Answer} (hk : ∀ v, s.read l = .ok v → AfterReads s Q ls (k v)) :
    AfterReads s Q (l :: ls) (s.withRead l k) :=
  ⟨fun _ herr => withRead_error herr, fun v hv => withRead_ok (k := k) hv ▸ hk v hv⟩

/-- Reads that succeed can be dropped from the front. -/
theorem AfterReads.drop (h : AfterReads s Q (before ++ ls) o) (hok : ∀ m ∈ before, ∃ v, s.read m = .ok v) :
    AfterReads s Q ls o := by
  induction before with
  | nil => exact h
  | cons m before ih =>
    obtain ⟨⟨v, hv⟩, hrest⟩ := List.forall_mem_cons.1 hok
    exact ih (h.2 v hv) hrest

theorem AfterReads.of_reads_ok (h : AfterReads s Q ls o) (hok : ∀ m ∈ ls, ∃ v, s.read m = .ok v) : Q o :=
  AfterReads.drop (ls := []) (by rwa [List.append_nil]) hok

/-- Everything an answer after checked reads can be. -/
theorem AfterReads.cases (h : AfterReads s Q ls o) :
    Q o ∨ ∃ l ∈ ls, Unwritten s l ∧ o = s.raise (.uninitialisedRead l) := by
  induction ls with
  | nil => exact .inl h
  | cons l ls ih =>
    rcases hread : s.read l with e | v
    · obtain ⟨rfl, hclear, hpolicy⟩ := read_error hread
      exact .inr ⟨l, List.mem_cons_self, ⟨hclear, hpolicy⟩, h.1 _ hread⟩
    · refine (ih (h.2 v hread)).imp_right ?_
      rintro ⟨m, hm, hend⟩
      exact ⟨m, List.mem_cons_of_mem _ hm, hend⟩

end AfterReads

/-- What an instruction can do once its reads have succeeded: complete with the status as it was, or end the run by a
cause other than a read (R101, R250). -/
inductive Finish (i : Instr) (s : State) : State → Prop
  | continued {t : State} : t.status = s.status → Finish i s t
  | systemCall : i = .scall 0 → Finish i s (s.halt .systemCall)
  | returned (t : State) : i = .jal 0 → s.config.exitOnJalR0 = true → Finish i s (t.halt .returnToCaller)
  | failed (e : Error) : (∀ l, e ≠ .uninitialisedRead l) → CauseOf i s e → Finish i s (s.halt (.error e))

/-- `Finishes i s ls o`: the answer `o` begins with the checked reads `ls` and goes on as `i` may. -/
abbrev Finishes (i : Instr) (s : State) (ls : List Loc) (o : Answer) : Prop :=
  AfterReads s (fun answer => Completes answer (Finish i s)) ls o

/-- The checked read of a source operand, if it has one (R73). -/
def sourceReads : Operand → List Loc
  | .register r => [.x r]
  | .immediate _ | .none => []

section Finishes

variable {i : Instr} {s t u : State} {ls : List Loc}

theorem finishes_next (h : t.status = s.status) : Finishes i s [] (.next t) :=
  completes_next_iff.2 (.continued h)

theorem finishes_raise {e : Error} (hkind : ∀ l, e ≠ .uninitialisedRead l) (hcause : CauseOf i s e) :
    Finishes i s [] (s.raise e) :=
  completes_next_iff.2 (.failed e hkind hcause)

theorem finishes_advance (h : u.status = s.status) : Finishes i s [] u.advance :=
  finishes_next h

theorem finishes_withSource (op : Operand) {k : Word → Answer} (hk : ∀ v, Finishes i s [] (k v)) :
    Finishes i s (sourceReads op) (s.withSource op k) := by
  cases op with
  | none => exact hk 0
  | register r => exact afterReads_withRead fun v _ => hk v
  | immediate v => exact hk v

theorem finishes_loadA (op : Operand) : Finishes i s (sourceReads op) (s.loadA op) :=
  finishes_withSource op fun _ => finishes_advance rfl

theorem finishes_accumulate (f : Word → Word → Word) (op : Operand) :
    Finishes i s (.a :: sourceReads op) (s.accumulate f op) :=
  afterReads_withRead fun _ _ => finishes_withSource op fun _ => finishes_advance rfl

theorem finishes_branchIf (cond : Word → Bool) (op : Operand) : Finishes i s [.a] (s.branchIf cond op) := by
  refine afterReads_withRead fun a _ => ?_
  split <;> exact finishes_next rfl

theorem finishes_execSra : Finishes .sra s [.a] (execSra s) := by
  refine afterReads_withRead fun a _ => ?_
  split <;> exact finishes_advance rfl

/-- The jump's errors in the order of its checks: the window, then the parity of a target inside it (R170). -/
theorem finishes_execJal (r : RegIdx) : Finishes (.jal r) s [.a] (execJal r s) := by
  refine afterReads_withRead fun target hread => ?_
  split
  next hout =>
    refine finishes_raise nofun ⟨⟨r, rfl⟩, hread, ?_⟩
    rw [Bool.not_eq_true', ← Bool.not_eq_true, inJalWindow_iff] at hout
    omega
  next hin =>
    rw [Bool.not_eq_true, Bool.not_eq_false', inJalWindow_iff] at hin
    split
    next hodd =>
      rw [Bool.and_eq_true, beq_iff_eq] at hodd
      have hparity : target.toNat % 2 ≠ 0 := fun heven =>
        Bool.false_ne_true (((toNat_mod_two_eq_zero_iff target).1 heven).symm.trans hodd.1)
      exact finishes_raise nofun ⟨⟨r, rfl⟩, hread, hin.1, hin.2, Nat.mod_two_ne_zero.1 hparity, hodd.2⟩
    split
    next hexit =>
      rw [Bool.and_eq_true, beq_iff_eq] at hexit
      exact completes_next_iff.2 (.returned _ (hexit.2 ▸ rfl) hexit.1)
    · exact finishes_next rfl

/-- Only subfunction 2 reads, and only those from 3 on can be unknown (R210). -/
theorem finishes_execScall (imm : Byte) : Finishes (.scall imm) s (readsOf (.scall imm)) (execScall imm s) := by
  by_cases hemit : imm = 2
  · subst hemit
    exact afterReads_withRead fun _ _ => finishes_advance rfl
  rw [readsOf, if_neg hemit, execScall]
  split
  next hexit => exact completes_next_iff.2 (.systemCall (hexit ▸ rfl))
  split
  · exact finishes_advance rfl
  next hexit hcount =>
    split
    next hpolicy => exact finishes_raise nofun ⟨rfl, by bv_omega, hpolicy⟩
    · exact finishes_advance rfl

/-- Every instruction makes the checked reads that `readsOf` lists, in that order, and then continues or ends by a cause
of its own (R100, R103). -/
theorem exec_finishes (i : Instr) (s : State) : Finishes i s (readsOf i) (exec i s) := by
  cases i with
  | nop => exact finishes_advance rfl
  | inPort | outPort => exact finishes_raise nofun rfl
  | load r => exact finishes_loadA (operandOf s.config (.load r))
  | loadi imm => exact finishes_loadA (operandOf s.config (.loadi imm))
  | add r | sub r | and r | or r | xor r => exact finishes_accumulate _ (.register r)
  | addi | subi | andi | ori | xori => exact finishes_accumulate _ (.immediate _)
  | loadh | loadh2 | loadh3 | loadh4 | loadh5 | loadh6 | loadh7 => exact finishes_accumulate _ (.immediate _)
  | sra => exact finishes_execSra
  | store | ldaddr | ldind | ldindbu => exact afterReads_withRead fun _ _ => finishes_advance rfl
  | stind | stindb =>
    exact afterReads_withRead fun _ _ => afterReads_withRead fun _ _ => finishes_advance rfl
  | br => exact finishes_next rfl
  | brz | brnz | brp | brn => exact finishes_branchIf _ _
  | jal r => exact finishes_execJal r
  | scall imm => exact finishes_execScall imm

/-- After its reads, no instruction ends with the error of a read. -/
theorem Finish.status_ne_uninitialisedRead (h : Finish i s t) (hs : s.status = .running) (l : Loc) :
    t.status ≠ .halted (.error (.uninitialisedRead l)) := by
  cases h with
  | continued hsame => simp [hsame, hs]
  | systemCall | returned => simp
  | failed e hkind => simpa using hkind l

/-- Everything a completed instruction can be: after its reads as `Finish` says, or ended by an unwritten one. -/
theorem exec_completes_cases (i : Instr) (s : State) : Completes (exec i s) fun t =>
    Finish i s t ∨ ∃ l ∈ readsOf i, Unwritten s l ∧ t = s.halt (.error (.uninitialisedRead l)) := by
  rcases (exec_finishes i s).cases with ⟨t, hexec, hfinish⟩ | ⟨l, hl, hunwritten, hraise⟩
  · exact ⟨t, hexec, .inl hfinish⟩
  · exact ⟨_, hraise, .inr ⟨l, hl, hunwritten, rfl⟩⟩

end Finishes

/-- Settles O35: the reads before the location drop out, so its own is the first, and where all succeed what remains is
no read. -/
theorem unwrittenReadEndsTheRun : Obligations.UnwrittenReadEndsTheRun := by
  refine ⟨fun s l => ⟨read_of_initialised, read_zero⟩, ?_, ?_⟩
  · intro i s before after l hreads hbefore hunwritten
    have hfirst : Finishes i s (l :: after) (exec i s) := (hreads ▸ exec_finishes i s).drop hbefore
    exact hfirst.1 _ (read_of_unwritten hunwritten)
  · intro i s t l hs hok hexec
    have hfinish : Completes (exec i s) (Finish i s) := (exec_finishes i s).of_reads_ok hok
    exact (completes_next_iff.1 (hexec ▸ hfinish)).status_ne_uninitialisedRead hs l

/-- Settles O37: an unwritten read is the cause of its own error, and every other end carries its cause. -/
theorem outcomesOnlyFromTheirCauses : Obligations.OutcomesOnlyFromTheirCauses := by
  intro i s hs
  obtain ⟨t, hexec, hcases⟩ := exec_completes_cases i s
  refine ⟨t, hexec, ?_⟩
  rcases hcases with hfinish | ⟨l, hl, hunwritten, rfl⟩
  · cases hfinish with
    | continued hsame => exact .inl (hsame.trans hs)
    | systemCall hi => exact .inr (.inl ⟨rfl, hi, rfl⟩)
    | returned _ hi hexit => exact .inr (.inr (.inl ⟨rfl, hi, hexit⟩))
    | failed e _ hcause => exact .inr (.inr (.inr ⟨e, rfl, hcause, rfl⟩))
  · exact .inr (.inr (.inr ⟨_, rfl, ⟨hl, hunwritten⟩, rfl⟩))

end Sys2Proof.Proofs

/-! # Accumulator instructions

An accumulator instruction reads its operands, writes one word to `A` and advances. The frame and the errors of all of
them are proved once, for any word written. What is left of an instruction is its word and its result. -/

namespace Sys2Proof.Proofs

open Sys2Proof Sys2Proof.Machine Sys2Proof.Claims

/-- What a source operand reads as (R73, R103). -/
def sourceValue (s : State) : Operand → Except Error Word
  | .register r => s.read (.x r)
  | .immediate v => .ok v
  | .none => .ok 0

section Accumulator

variable {s : State} {op : Operand} {a b v : Word}

theorem withSource_of_value {k : Word → Answer} (hb : sourceValue s op = .ok b) : s.withSource op k = k b := by
  cases op with
  | register r => exact withRead_ok hb
  | immediate v => exact congrArg k (Except.ok.inj hb)
  | none => exact congrArg k (Except.ok.inj hb)

theorem accumulate_of_reads {f : Word → Word → Word} (ha : s.read .a = .ok a) (hb : sourceValue s op = .ok b) :
    s.accumulate f op = (s.writeA (f a b)).advance :=
  (withRead_ok ha).trans (withSource_of_value hb)

theorem loadA_of_source (hb : sourceValue s op = .ok b) : s.loadA op = (s.writeA b).advance :=
  withSource_of_value hb

/-! ## Frames and errors -/

/-- The default advance is by 2 modulo `2^XLEN` (R105). -/
theorem wrap_pc_add_two (s : State) :
    ((wrap s.config.xlen (s.pc + 2)).toNat : Int) = (s.pc.toNat + 2) % modulus s := by
  rw [wrap_toNat_int, toNat_add_emod]
  rfl

/-- The frame of an instruction that writes nothing: the frame of one that writes `A` and `pc` is this one, read off the
fields that neither write touches. -/
theorem allButA_refl (s : State) : AllButA s s :=
  ⟨⟨rfl, rfl, rfl, rfl, rfl⟩, ⟨rfl, rfl⟩, fun _ => ⟨rfl, rfl, Iff.rfl⟩, fun _ => rfl, rfl, rfl⟩

/-- A write to `A`, then the default advance: `A` holds the word modulo `2^XLEN`, and all else is as before (R104,
R105). -/
theorem completes_writeA_advance (P : Word → Prop) (hv : P (wrap s.config.xlen v)) :
    Completes (s.writeA v).advance fun t => P t.a ∧ t.initA = true ∧ Advanced s t ∧ AllButA s t := by
  have hframe : AllButA s ((s.writeA v).setPc (s.pc + 2)) := allButA_refl s
  exact completes_next_iff.2 ⟨hv, rfl, wrap_pc_add_two s, hframe⟩

theorem completes_accumulate_of_reads {f : Word → Word → Word} (P : Word → Prop) (ha : s.read .a = .ok a)
    (hb : sourceValue s op = .ok b) (hv : P (wrap s.config.xlen (f a b))) :
    Completes (s.accumulate f op) fun t => P t.a ∧ t.initA = true ∧ Advanced s t ∧ AllButA s t :=
  accumulate_of_reads ha hb ▸ completes_writeA_advance P hv

theorem completes_loadA_of_source (P : Word → Prop) (hb : sourceValue s op = .ok b)
    (hv : P (wrap s.config.xlen b)) :
    Completes (s.loadA op) fun t => P t.a ∧ t.initA = true ∧ Advanced s t ∧ AllButA s t :=
  loadA_of_source hb ▸ completes_writeA_advance P hv

/-- A checked read of an unwritten location ends the run, and changes nothing but the status (R102, R253). -/
theorem withRead_unwritten {l : Loc} {k : Word → Answer} (h : Unwritten s l) :
    s.withRead l k = .next { s with status := .halted (.error (.uninitialisedRead l)) } :=
  withRead_error (read_of_unwritten h)

end Accumulator

/-- The rule of a register instruction, from its word, its meaning and its result on `XLEN`-bit operands. -/
theorem registerRule_of_exec {op : Byte} {mk : RegIdx → Instr} {res : State → Word → Word → Word → Prop}
    {f : Word → Word → Word} (hword : ∀ r, encode (Config.specDefault .x64) (mk r) = some (op ++ r))
    (hexec : ∀ r s, exec (mk r) s = s.accumulate f (.register r))
    (hres : ∀ s a b, fits s.config.xlen a → fits s.config.xlen b → res s a b (wrap s.config.xlen (f a b))) :
    RegisterRule op mk res := by
  refine fun r => ⟨decodesTo_of_encode (hword r), fun s => ⟨fun a b ha hb => ?_, fun hunwritten => ?_,
    fun a ha hunwritten => ?_⟩⟩
  · rw [hexec]
    exact completes_accumulate_of_reads (res s a b) ha hb (hres s a b (read_fits ha) (read_fits hb))
  · exact (hexec r s).trans (withRead_unwritten hunwritten)
  · exact (hexec r s).trans ((withRead_ok ha).trans (withRead_unwritten hunwritten))

/-- The rule of an immediate instruction, from its word, its meaning and its result on an `XLEN`-bit operand. -/
theorem immediateRuleIn_of_exec {built : State → Prop} {op : Byte} {mk : Byte → Instr}
    {res : State → Word → Byte → Word → Prop} {f : Config → Word → Word → Word} {value : Config → Byte → Word}
    (hword : ∀ imm, encode (Config.specDefault .x64) (mk imm) = some (op ++ imm))
    (hexec : ∀ imm s, exec (mk imm) s = s.accumulate (f s.config) (.immediate (value s.config imm)))
    (hres : ∀ s a imm, fits s.config.xlen a →
      res s a imm (wrap s.config.xlen (f s.config a (value s.config imm)))) :
    ImmediateRuleIn built op mk res := by
  refine fun imm => ⟨decodesTo_of_encode (hword imm), fun s _ => ⟨fun a ha => ?_, fun hunwritten => ?_⟩⟩
  · rw [hexec]
    exact completes_accumulate_of_reads (res s a imm) ha rfl (hres s a imm (read_fits ha))
  · exact (hexec imm s).trans (withRead_unwritten hunwritten)

/-! ## Addition and subtraction -/

/-- Subtracting a word subtracts any integer of its residue modulo `2^XLEN` (R9). -/
theorem wrap_sub_toNat_int (x : Xlen) {n : Int} {b : Word} (a : Word)
    (hb : (b.toNat : Int) % 2 ^ x.bits = n % 2 ^ x.bits) :
    ((wrap x (a - b)).toNat : Int) = (a.toNat - n) % 2 ^ x.bits := by
  rw [wrap_toNat_int, toNat_sub_emod, Int.sub_emod, hb, ← Int.sub_emod]

theorem sext8_toNat_emod (x : Xlen) (imm : Byte) :
    ((sext8 x imm).toNat : Int) % 2 ^ x.bits = imm.toInt % 2 ^ x.bits := by
  rw [sext8_toNat_int, Int.emod_emod]

/-- Settles O1: the operands enter the sum as they were read. -/
theorem addStoresSumModuloWidth : Obligations.AddStoresSumModuloWidth :=
  registerRule_of_exec (fun _ => rfl) (fun _ _ => rfl) fun s a _ _ _ => wrap_add_toNat_int s.config.xlen a rfl

/-- Settles O2: the immediate is its signed value modulo `2^XLEN`. -/
theorem addiAddsSignedImmediate : Obligations.AddiAddsSignedImmediate := by
  unfold Obligations.AddiAddsSignedImmediate
  exact immediateRuleIn_of_exec (f := fun _ a b => a + b) (value := fun c imm => sext8 c.xlen imm) (fun _ => rfl)
    (fun _ _ => rfl) fun s a imm _ => wrap_add_toNat_int _ a (sext8_toNat_emod s.config.xlen imm)

/-- Settles O3: the operands enter the difference as they were read. -/
theorem subStoresDifferenceModuloWidth : Obligations.SubStoresDifferenceModuloWidth :=
  registerRule_of_exec (fun _ => rfl) (fun _ _ => rfl) fun s a _ _ _ => wrap_sub_toNat_int s.config.xlen a rfl

/-- Settles O4: the immediate is its signed value modulo `2^XLEN`. -/
theorem subiSubtractsSignedImmediate : Obligations.SubiSubtractsSignedImmediate := by
  unfold Obligations.SubiSubtractsSignedImmediate
  exact immediateRuleIn_of_exec (f := fun _ a b => a - b) (value := fun c imm => sext8 c.xlen imm) (fun _ => rfl)
    (fun _ _ => rfl) fun s a imm _ => wrap_sub_toNat_int _ a (sext8_toNat_emod s.config.xlen imm)

/-! ## Logic -/

/-- `f` combines two words bit by bit as `bit` says, and clear bits to a clear bit. -/
structure Bitwise (f : Word → Word → Word) (bit : Bool → Bool → Bool) : Prop where
  getLsbD : ∀ u v i, (f u v).getLsbD i = bit (u.getLsbD i) (v.getLsbD i)
  clear : bit false false = false

theorem bitwise_and : Bitwise (fun a b => a &&& b) (fun p q => p && q) := ⟨fun _ _ _ => BitVec.getLsbD_and, rfl⟩

theorem bitwise_or : Bitwise (fun a b => a ||| b) (fun p q => p || q) := ⟨fun _ _ _ => BitVec.getLsbD_or, rfl⟩

theorem bitwise_xor : Bitwise (fun a b => a ^^^ b) (fun p q => p ^^ q) := ⟨fun _ _ _ => BitVec.getLsbD_xor, rfl⟩

theorem getLsbD_of_fits {x : Xlen} {v : Word} {i : Nat} (hv : fits x v) (hi : x.bits ≤ i) : v.getLsbD i = false := by
  rw [← wrap_of_fits hv, wrap_getLsbD, decide_eq_false (by omega), Bool.false_and]

theorem zext8_toNat (imm : Byte) : (zext8 imm).toNat = imm.toNat := by
  rw [zext8, BitVec.toNat_setWidth]
  omega

theorem fits_zext8 (x : Xlen) (imm : Byte) : fits x (zext8 imm) := by
  have hbyte := imm.isLt
  rw [fits, zext8_toNat]
  cases x <;> simp only [Xlen.bits] <;> omega

/-- A zero-extended byte has the bits of the byte and no other (R72). -/
theorem zext8_getLsbD (imm : Byte) (i : Nat) : (zext8 imm).getLsbD i = imm.getLsbD i := by
  rw [zext8, BitVec.getLsbD_setWidth]
  by_cases hi : i < 64
  · simp [hi]
  · simp [hi, BitVec.getLsbD_of_ge imm i (by omega)]

namespace Bitwise

variable {f : Word → Word → Word} {bit : Bool → Bool → Bool} (h : Bitwise f bit)

include h

/-- A bitwise result of `XLEN`-bit words has no bit above the width, so `wrap` drops none. -/
theorem wrap_getLsbD {x : Xlen} {u v : Word} (hu : fits x u) (hv : fits x v) (i : Nat) :
    (wrap x (f u v)).getLsbD i = bit (u.getLsbD i) (v.getLsbD i) := by
  rw [Machine.wrap_getLsbD]
  by_cases hi : i < x.bits
  · rw [decide_eq_true hi, Bool.true_and, h.getLsbD]
  · rw [decide_eq_false hi, Bool.false_and, getLsbD_of_fits hu (by omega), getLsbD_of_fits hv (by omega), h.clear]

theorem registerRule {op : Byte} {mk : RegIdx → Instr}
    (hword : ∀ r, encode (Config.specDefault .x64) (mk r) = some (op ++ r))
    (hexec : ∀ r s, exec (mk r) s = s.accumulate f (.register r)) :
    RegisterRule op mk fun _ a b v => ∀ i, v.getLsbD i = bit (a.getLsbD i) (b.getLsbD i) :=
  registerRule_of_exec hword hexec fun _ _ _ ha hb => h.wrap_getLsbD ha hb

theorem immediateRule {op : Byte} {mk : Byte → Instr}
    (hword : ∀ imm, encode (Config.specDefault .x64) (mk imm) = some (op ++ imm))
    (hexec : ∀ imm s, exec (mk imm) s = s.accumulate f (.immediate (zext8 imm))) :
    ImmediateRule op mk fun _ a imm v => ∀ i, v.getLsbD i = bit (a.getLsbD i) (imm.getLsbD i) :=
  immediateRuleIn_of_exec (f := fun _ => f) (value := fun _ => zext8) hword hexec fun _ _ imm ha i => by
    rw [h.wrap_getLsbD ha (fits_zext8 _ imm), zext8_getLsbD]

end Bitwise

/-- Settles O8: one rule, for three bitwise operations. -/
theorem registerLogicIsBitwise : Obligations.RegisterLogicIsBitwise :=
  ⟨bitwise_and.registerRule (fun _ => rfl) fun _ _ => rfl, bitwise_or.registerRule (fun _ => rfl) fun _ _ => rfl,
    bitwise_xor.registerRule (fun _ => rfl) fun _ _ => rfl⟩

/-- Settles O9: one rule, for the same operations on a byte that adds no bit above its own. -/
theorem immediateLogicZeroExtends : Obligations.ImmediateLogicZeroExtends :=
  ⟨bitwise_and.immediateRule (fun _ => rfl) fun _ _ => rfl, bitwise_or.immediateRule (fun _ => rfl) fun _ _ => rfl,
    bitwise_xor.immediateRule (fun _ => rfl) fun _ _ => rfl⟩

/-! ## The shift -/

section Shift

variable {x : Xlen} {a : Word}

/-- The signed reading of an `XLEN`-bit word, in numbers (R9). -/
theorem sval_eq_signed (ha : fits x a) : sval x a = signed x a := by
  cases x with
  | x32 =>
    have hlow : (a.setWidth 32).toNat = a.toNat := by
      rw [BitVec.toNat_setWidth]
      exact Nat.mod_eq_of_lt ha
    simp only [sval, signed, Xlen.bits, BitVec.toInt_eq_toNat_cond, hlow]
    split_ifs <;> omega
  | x64 =>
    simp only [sval, signed, Xlen.bits, BitVec.toInt_eq_toNat_cond]
    split_ifs <;> omega

/-- A word is its signed reading modulo its width. -/
theorem toNat_eq_toInt_emod {n : Nat} (v : BitVec n) : (v.toNat : Int) = v.toInt % (2 ^ n : Nat) := by
  rw [BitVec.toInt_eq_toNat_bmod, Int.bmod_emod]
  exact (Int.emod_eq_of_lt (Int.natCast_nonneg _) (Int.ofNat_lt.2 v.isLt)).symm

/-- `>>u 1` halves the unsigned value (R125). -/
theorem shiftRightLogical_toNat (ha : fits x a) : (shiftRightLogical x a).toNat = a.toNat / 2 := by
  rw [shiftRightLogical, wrap_of_fits ha, BitVec.toNat_ushiftRight, Nat.shiftRight_eq_div_pow, pow_one]

/-- `>>s 1` halves the signed value, rounded down (R125). -/
theorem shiftRightArithmetic_toNat (x : Xlen) (a : Word) :
    ((shiftRightArithmetic x a).toNat : Int) = signed x a / 2 % 2 ^ x.bits := by
  cases x with
  | x32 =>
    have hlow : (shiftRightArithmetic .x32 a).toNat = ((a.setWidth 32).sshiftRight 1).toNat := by
      rw [shiftRightArithmetic, BitVec.toNat_setWidth]
      omega
    rw [hlow, toNat_eq_toInt_emod, BitVec.toInt_sshiftRight, Int.shiftRight_eq_div_pow]
    rfl
  | x64 =>
    rw [shiftRightArithmetic, toNat_eq_toInt_emod, BitVec.toInt_sshiftRight, Int.shiftRight_eq_div_pow]
    rfl

end Shift

/-- Settles O5: half of an `XLEN`-bit value is an `XLEN`-bit value in either reading. -/
theorem sraShiftsByOneInBothModes : Obligations.SraShiftsByOneInBothModes := by
  refine ⟨fun imm => decodesTo_of_ignoresImm8 rfl (decodesTo_of_encode (w := 0x1000) rfl) (opcodeOf_append _ _),
    fun s => ⟨fun a ha hmode => ?_, fun a ha hmode => ?_, fun hunwritten => withRead_unwritten hunwritten⟩⟩
  · have hexec : exec .sra s = (s.writeA (shiftRightLogical s.config.xlen a)).advance :=
      (withRead_ok ha).trans (by rw [hmode])
    rw [hexec]
    refine completes_writeA_advance (fun v => (v.toNat : Int) = a.toNat / 2) ?_
    have hfits := read_fits ha
    have hhalf := shiftRightLogical_toNat hfits
    rw [wrap_of_fits (by unfold fits at *; omega), hhalf]
    rfl
  · have hexec : exec .sra s = (s.writeA (shiftRightArithmetic s.config.xlen a)).advance :=
      (withRead_ok ha).trans (by rw [hmode])
    rw [hexec]
    refine completes_writeA_advance (fun v => (v.toNat : Int) = sval s.config.xlen a / 2 % modulus s) ?_
    rw [wrap_toNat_int, shiftRightArithmetic_toNat, Int.emod_emod, sval_eq_signed (read_fits ha)]
    rfl

/-! ## Loads into `A`, and `nop` -/

/-- Settles O6: `A` is written without being read. -/
theorem loadCopiesRegister : Obligations.LoadCopiesRegister := by
  refine fun r => ⟨decodesTo_of_encode rfl, fun s => ⟨fun b hb => ?_, fun hunwritten => withRead_unwritten hunwritten⟩⟩
  exact completes_loadA_of_source (op := .register r) (· = b) hb (wrap_of_fits (read_fits hb))

theorem exec_loadi (imm : Byte) (s : State) :
    exec (.loadi imm) s = s.loadA (.immediate (extend8 s.config.xlen s.config.loadiExt imm)) := rfl

/-- Settles O7: either extension of the byte is an `XLEN`-bit word. -/
theorem loadiWritesExtendedImmediate : Obligations.LoadiWritesExtendedImmediate := by
  refine fun imm => ⟨decodesTo_of_encode rfl, fun s => ⟨fun hext => ?_, fun hext => ?_⟩⟩
  · rw [exec_loadi, hext]
    refine completes_loadA_of_source (fun v => (v.toNat : Int) = imm.toInt % modulus s) rfl ?_
    rw [wrap_toNat_int, extend8, sext8_toNat_emod]
    rfl
  · rw [exec_loadi, hext]
    refine completes_loadA_of_source (fun v => v.toNat = imm.toNat) rfl ?_
    rw [extend8, wrap_of_fits (fits_zext8 _ imm), zext8_toNat]

/-- Settles O15: the advance alone, with the frame of no write. -/
theorem nopOnlyAdvances : Obligations.NopOnlyAdvances := by
  refine ⟨fun imm => decodesTo_of_ignoresImm8 rfl (decodesTo_of_encode (w := 0x0000) rfl) (opcodeOf_append _ _),
    fun s => completes_next_iff.2 ⟨wrap_pc_add_two s, ⟨rfl, rfl⟩, allButA_refl s⟩⟩

end Sys2Proof.Proofs

/-! # Byte lanes

`LoadH(k)` bit by bit, for every lane and either fill. One rule serves the seven instructions. -/

namespace Sys2Proof.Proofs

open Sys2Proof Sys2Proof.Machine Sys2Proof.Claims

section Lanes

variable (x : Xlen) (imm : Byte)

/-- The bits of a sign-extended field, as far as the width goes (R9). -/
theorem wrap_signExtend_getLsbD {n : Nat} (v : BitVec n) {i : Nat} (hi : i < x.bits) :
    (wrap x (v.signExtend 64)).getLsbD i = if i < n then v.getLsbD i else v.msb := by
  have hi64 : i < 64 := hi.trans_le (bits_le x)
  rw [wrap_getLsbD, BitVec.getLsbD_signExtend]
  simp [hi, hi64]

theorem msb_byte : imm.msb = imm.getLsbD 7 := BitVec.msb_eq_getLsbD_last imm

/-- The bits of an extended immediate byte (R9, R72). -/
theorem extend8_getLsbD (e : Ext) {i : Nat} (hi : i < x.bits) :
    (extend8 x e imm).getLsbD i =
      if i < 8 then imm.getLsbD i else (decide (e = .sign) && imm.getLsbD 7) := by
  cases e with
  | sign => rw [extend8, sext8, wrap_signExtend_getLsbD _ _ hi, msb_byte, decide_eq_true rfl, Bool.true_and]
  | zero =>
    rw [extend8, zext8_getLsbD]
    split
    · rfl
    next hge => simp [BitVec.getLsbD_of_ge imm i (by omega)]

/-- The bits of `LoadH(k)`: those of the old word below lane `k`, those of the extended immediate from it up. -/
theorem loadLane_getLsbD (k : Nat) (fill a : Word) {i : Nat} (hi : i < x.bits) :
    (loadLane x k fill a).getLsbD i = if i < 8 * k then a.getLsbD i else fill.getLsbD (i - 8 * k) := by
  have hi64 : i < 64 := hi.trans_le (bits_le x)
  rw [loadLane, wrap_getLsbD, BitVec.getLsbD_or, BitVec.getLsbD_shiftLeft, BitVec.getLsbD_setWidth,
    BitVec.getLsbD_extractLsb']
  by_cases hlow : i < 8 * k <;> simp [hi, hi64, hlow]

theorem wrap_loadLane (k : Nat) (fill a : Word) : wrap x (loadLane x k fill a) = loadLane x k fill a :=
  wrap_wrap x _

end Lanes

theorem laneResult_loadLane (k : Nat) (s : State) (a : Word) (imm : Byte) :
    LaneResult k s a imm
      (wrap s.config.xlen (loadLane s.config.xlen k (extend8 s.config.xlen s.config.loadhFill imm) a)) := by
  intro i
  by_cases hi : s.config.xlen.bits ≤ i
  · rw [if_pos hi, getLsbD_of_fits (wrap_fits _ _) hi]
  rw [if_neg hi, wrap_loadLane, loadLane_getLsbD _ _ _ _ (by omega)]
  by_cases hlow : i < 8 * k
  · rw [if_pos hlow, if_pos hlow]
  rw [if_neg hlow, if_neg hlow, extend8_getLsbD _ _ _ (by omega)]
  by_cases hlane : i < 8 * k + 8
  · rw [if_pos hlane, if_pos (by omega)]
  · rw [if_neg hlane, if_neg (by omega)]

/-- The rule of `LoadH(k)` in any build, from its word and its meaning. -/
theorem laneRule_of_exec {built : State → Prop} {op : Byte} {mk : Byte → Instr} (k : Nat)
    (hword : ∀ imm, encode (Config.specDefault .x64) (mk imm) = some (op ++ imm))
    (hexec : ∀ imm s, exec (mk imm) s =
      s.loadHigh k (.immediate (extend8 s.config.xlen s.config.loadhFill imm))) :
    ImmediateRuleIn built op mk (LaneResult k) :=
  immediateRuleIn_of_exec (f := fun c a fill => loadLane c.xlen k fill a)
    (value := fun c imm => extend8 c.xlen c.loadhFill imm) hword hexec fun s a imm _ => laneResult_loadLane k s a imm

/-- Settles O10: one rule, for the lanes 1 to 3. -/
theorem lowLanesOverwriteFromTheirLaneUp : Obligations.LowLanesOverwriteFromTheirLaneUp :=
  ⟨laneRule_of_exec 1 (fun _ => rfl) fun _ _ => rfl, laneRule_of_exec 2 (fun _ => rfl) fun _ _ => rfl,
    laneRule_of_exec 3 (fun _ => rfl) fun _ _ => rfl⟩

/-- The bytes of the lanes 4 to 7 have no row in the 32-bit build (R78). -/
theorem decodeOpcode_high_lanes_x32 :
    ∀ op ∈ [0x2C#8, 0x2D#8, 0x2E#8, 0x2F#8], decodeOpcode (Config.specDefault .x32) op = .unknown := by
  decide

/-- Settles O11: the same rule for the lanes 4 to 7, and in the 32-bit build no row for their bytes. -/
theorem highLanesOverwriteFromTheirLaneUp : Obligations.HighLanesOverwriteFromTheirLaneUp := by
  refine ⟨⟨laneRule_of_exec 4 (fun _ => rfl) fun _ _ => rfl, laneRule_of_exec 5 (fun _ => rfl) fun _ _ => rfl,
    laneRule_of_exec 6 (fun _ => rfl) fun _ _ => rfl, laneRule_of_exec 7 (fun _ => rfl) fun _ _ => rfl⟩,
    fun op hop imm => ?_⟩
  have hop' := decodeOpcode_high_lanes_x32 op hop
  rw [decodeWord_error, opcodeOf_append]
  exact ⟨hop', rfl⟩

end Sys2Proof.Proofs

/-! # Instructions one after the other

What short sequences leave behind: a difference undoes a sum, and lane loads build a constant. -/

namespace Sys2Proof.Proofs

open Sys2Proof Sys2Proof.Machine Sys2Proof.Claims

section Sequences

variable {i : Instr} {is js : List Instr} {s t : State} {P Q : State → Prop}

theorem execAll_cons_of_next (h : exec i s = .next t) : execAll (i :: is) s = execAll is t := by
  rw [execAll, h]

/-- An instruction that completes as `P` says, then a sequence that completes from there. -/
theorem completes_execAll_cons (hi : Completes (exec i s) P) (his : ∀ t, P t → Completes (execAll is t) Q) :
    Completes (execAll (i :: is) s) Q := by
  obtain ⟨t, hexec, ht⟩ := hi
  exact execAll_cons_of_next hexec ▸ his t ht

/-- A sequence that completes as `P` says, then a sequence that completes from there. -/
theorem completes_execAll_append (his : Completes (execAll is s) P)
    (hjs : ∀ t, P t → Completes (execAll js t) Q) : Completes (execAll (is ++ js) s) Q := by
  induction is generalizing s with
  | nil => exact hjs s (completes_next_iff.1 his)
  | cons i is ih =>
    obtain ⟨t, hexec, -⟩ := exec_completes_effect i s
    rw [execAll_cons_of_next hexec] at his
    exact execAll_cons_of_next hexec ▸ ih his

end Sequences

/-! ## A sum undone (R142) -/

section SumUndone

variable {s : State} {a b : Word}

theorem read_a_writeA (s : State) (v : Word) : (s.writeA v).read .a = .ok (wrap s.config.xlen v) := by
  rw [read_of_initialised (writeA_initialised_a s v), writeA_stored_a]

/-- No checked read depends on `pc` (R103). -/
theorem read_setPc (s : State) (target : Word) (l : Loc) : (s.setPc target).read l = s.read l := by
  cases l <;> rfl

/-- No operand is in `A`, so a write to `A` leaves every one of them as it was. -/
theorem sourceValue_writeA_setPc (s : State) (v target : Word) (op : Operand) :
    sourceValue ((s.writeA v).setPc target) op = sourceValue s op := by
  cases op <;> rfl

/-- A difference may be taken before or after its minuend is reduced modulo `2^XLEN` (R9). -/
theorem wrap_wrap_sub (x : Xlen) (u b : Word) : wrap x (wrap x u - b) = wrap x (u - b) := by
  have hmod : ((wrap x (wrap x u - b)).toNat : Int) = (wrap x (u - b)).toNat := by
    rw [wrap_toNat_int, wrap_toNat_int, toNat_sub_emod, toNat_sub_emod, wrap_toNat_int, Int.emod_sub_emod]
  exact BitVec.eq_of_toNat_eq (Int.ofNat_inj.1 hmod)

/-- A sum with an operand, then a difference with the same operand, leave `A` as it was read. -/
theorem completes_sum_then_difference {add sub : Instr} {operand : Config → Operand}
    (hadd : ∀ t, exec add t = t.accumulate (fun a b => a + b) (operand t.config))
    (hsub : ∀ t, exec sub t = t.accumulate (fun a b => a - b) (operand t.config))
    (ha : s.read .a = .ok a) (hb : sourceValue s (operand s.config) = .ok b) :
    Completes (execAll [add, sub] s) fun t => t.a = a := by
  have hsum : exec add s = .next ((s.writeA (a + b)).setPc (s.pc + 2)) :=
    (hadd s).trans (accumulate_of_reads ha hb)
  have hb' : sourceValue ((s.writeA (a + b)).setPc (s.pc + 2)) (operand s.config) = .ok b :=
    (sourceValue_writeA_setPc ..).trans hb
  have ha' : ((s.writeA (a + b)).setPc (s.pc + 2)).read .a = .ok (wrap s.config.xlen (a + b)) :=
    (read_setPc ..).trans (read_a_writeA ..)
  have hdifference := (hsub _).trans (accumulate_of_reads ha' hb')
  have hrestored : wrap s.config.xlen (wrap s.config.xlen (a + b) - b) = a := by
    rw [wrap_wrap_sub, BitVec.add_sub_cancel, wrap_of_fits (read_fits ha)]
  rw [execAll_cons_of_next hsum, execAll_cons_of_next hdifference]
  exact completes_next_iff.2 hrestored

end SumUndone

/-- Settles O12: one law, for a register operand and for a signed immediate. -/
theorem addThenSubRestoresAccumulator : Obligations.AddThenSubRestoresAccumulator := by
  refine fun s a ha => ⟨fun r b hb => ?_, fun imm => ?_⟩
  · exact completes_sum_then_difference (operand := fun _ => .register r) (fun _ => rfl) (fun _ => rfl) ha hb
  · exact completes_sum_then_difference (operand := fun c => .immediate (sext8 c.xlen imm)) (fun _ => rfl)
      (fun _ => rfl) ha rfl

/-! ## Constants built from bytes (R143) -/

/-- `A` is marked and holds the sign extension of `w` modulo `2^XLEN`, and the parameters are `c`. -/
def HoldsSigned {n : Nat} (c : Config) (w : BitVec n) (t : State) : Prop :=
  t.config = c ∧ t.initA = true ∧ t.a = wrap c.xlen (w.signExtend 64)

section Constants

variable {c : Config} {s t : State} {b : Byte}

theorem HoldsSigned.read_eq {n : Nat} {w : BitVec n} (h : HoldsSigned c w t) :
    t.read .a = .ok (wrap c.xlen (w.signExtend 64)) := by
  obtain ⟨hconfig, hinit, ha⟩ := h
  rw [read_of_initialised (l := .a) hinit, State.stored, hconfig, ha, wrap_wrap]

/-- Lane `k` of a word that fills the lanes below, sign-extended, is one more byte in front of the word. -/
theorem loadLane_signExtend (x : Xlen) (k : Nat) (w : BitVec (8 * k)) :
    loadLane x k (extend8 x .sign b) (wrap x (w.signExtend 64)) = wrap x ((b ++ w).signExtend 64) := by
  refine BitVec.eq_of_getLsbD_eq fun i hi64 => ?_
  by_cases hi : i < x.bits
  · rw [loadLane_getLsbD _ _ _ _ hi, extend8_getLsbD _ _ _ (by omega), wrap_signExtend_getLsbD _ _ hi,
      wrap_signExtend_getLsbD _ _ hi, BitVec.getLsbD_append, BitVec.msb_append, msb_byte]
    by_cases hlow : i < 8 * k
    · simp [hlow, show i < 8 + 8 * k by omega]
    by_cases hlane : i < 8 + 8 * k
    · simp [hlow, hlane, show i - 8 * k < 8 by omega]
    · simp [hlow, hlane, show ¬ i - 8 * k < 8 by omega]
  · exact (getLsbD_of_fits (wrap_fits _ _) (by omega)).trans (getLsbD_of_fits (wrap_fits _ _) (by omega)).symm

/-- `loadi` starts a constant from its low byte (R127). -/
theorem completes_loadi_signed (hs : s.config = c) (hext : c.loadiExt = .sign) :
    Completes (exec (.loadi b) s) (HoldsSigned c b) := by
  subst hs
  rw [exec_loadi, hext, loadA_of_source rfl]
  exact completes_next_iff.2 ⟨rfl, rfl, wrap_wrap _ _⟩

/-- `LoadH(k)` on a constant that fills the lanes below `k` adds the next byte (R134 to R140). -/
theorem completes_lane_signed {i : Instr} (k : Nat) {w : BitVec (8 * k)} (hfill : c.loadhFill = .sign)
    (hexec : exec i t = t.loadHigh k (.immediate (extend8 t.config.xlen t.config.loadhFill b)))
    (h : HoldsSigned c w t) : Completes (exec i t) (HoldsSigned c (b ++ w)) := by
  have hread := h.read_eq
  obtain ⟨rfl, -, -⟩ := h
  rw [hexec, hfill, State.loadHigh, accumulate_of_reads hread rfl, loadLane_signExtend]
  exact completes_next_iff.2 ⟨rfl, rfl, wrap_wrap _ _⟩

theorem completes_four_bytes (hs : s.config = c) (hext : c.loadiExt = .sign) (hfill : c.loadhFill = .sign)
    (b0 b1 b2 b3 : Byte) :
    Completes (execAll [.loadi b0, .loadh b1, .loadh2 b2, .loadh3 b3] s)
      (HoldsSigned c (b3 ++ (b2 ++ (b1 ++ b0)))) :=
  completes_execAll_cons (completes_loadi_signed hs hext) fun _ h0 =>
  completes_execAll_cons (completes_lane_signed 1 hfill rfl h0) fun _ h1 =>
  completes_execAll_cons (completes_lane_signed 2 hfill rfl h1) fun _ h2 =>
  completes_execAll_cons (completes_lane_signed 3 hfill rfl h2) fun _ h3 => completes_next_iff.2 h3

theorem completes_high_bytes (hfill : c.loadhFill = .sign) {w : BitVec 32} (h : HoldsSigned c w s)
    (b4 b5 b6 b7 : Byte) :
    Completes (execAll [.loadh4 b4, .loadh5 b5, .loadh6 b6, .loadh7 b7] s)
      (HoldsSigned c (b7 ++ (b6 ++ (b5 ++ (b4 ++ w))))) :=
  completes_execAll_cons (completes_lane_signed 4 hfill rfl h) fun _ h4 =>
  completes_execAll_cons (completes_lane_signed 5 hfill rfl h4) fun _ h5 =>
  completes_execAll_cons (completes_lane_signed 6 hfill rfl h5) fun _ h6 =>
  completes_execAll_cons (completes_lane_signed 7 hfill rfl h6) fun _ h7 => completes_next_iff.2 h7

/-- The lane loads put each byte in front of the word so far, so the constant comes bracketed to the right. -/
theorem append_bytes_four (b0 b1 b2 b3 : Byte) : b3 ++ (b2 ++ (b1 ++ b0)) = b3 ++ b2 ++ b1 ++ b0 :=
  calc (b3 ++ (b2 ++ (b1 ++ b0)) : BitVec 32)
    _ = b3 ++ b2 ++ (b1 ++ b0) := BitVec.append_assoc.symm
    _ = b3 ++ b2 ++ b1 ++ b0 := BitVec.append_assoc.symm

theorem append_bytes_eight (b0 b1 b2 b3 b4 b5 b6 b7 : Byte) :
    b7 ++ (b6 ++ (b5 ++ (b4 ++ (b3 ++ (b2 ++ (b1 ++ b0)))))) = b7 ++ b6 ++ b5 ++ b4 ++ b3 ++ b2 ++ b1 ++ b0 :=
  calc (b7 ++ (b6 ++ (b5 ++ (b4 ++ (b3 ++ (b2 ++ (b1 ++ b0)))))) : BitVec 64)
    _ = b7 ++ b6 ++ (b5 ++ (b4 ++ (b3 ++ (b2 ++ (b1 ++ b0))))) := BitVec.append_assoc.symm
    _ = b7 ++ b6 ++ b5 ++ (b4 ++ (b3 ++ (b2 ++ (b1 ++ b0)))) := BitVec.append_assoc.symm
    _ = b7 ++ b6 ++ b5 ++ b4 ++ (b3 ++ (b2 ++ (b1 ++ b0))) := BitVec.append_assoc.symm
    _ = b7 ++ b6 ++ b5 ++ b4 ++ b3 ++ (b2 ++ (b1 ++ b0)) := BitVec.append_assoc.symm
    _ = b7 ++ b6 ++ b5 ++ b4 ++ b3 ++ b2 ++ (b1 ++ b0) := BitVec.append_assoc.symm
    _ = b7 ++ b6 ++ b5 ++ b4 ++ b3 ++ b2 ++ b1 ++ b0 := BitVec.append_assoc.symm

/-- The 32-bit build keeps the word itself of its sign extension. -/
theorem wrap_x32_signExtend (w : BitVec 32) : wrap .x32 (w.signExtend 64) = w.setWidth 64 := by
  have hvalue : ((wrap .x32 (w.signExtend 64)).toNat : Int) = w.toNat := by
    rw [wrap_toNat_int, toNat_signExtend_emod .x32 (by decide), toNat_eq_toInt_emod w]
    rfl
  apply BitVec.eq_of_toNat_eq
  rw [BitVec.toNat_setWidth]
  omega

end Constants

/-- Settles O13: each lane load puts one byte in front of the word built so far, and the word of 64 bits is its own sign
extension. -/
theorem constantSynthesisByLanes : Obligations.ConstantSynthesisByLanes := by
  intro s b0 b1 b2 b3 b4 b5 b6 b7 hext hfill
  have hfour := completes_four_bytes rfl hext hfill b0 b1 b2 b3
  refine ⟨fun hx => ?_, fun hx => ?_, fun hx => ?_⟩
  · obtain ⟨t, hexec, -, -, ha⟩ := hfour
    rw [hx, append_bytes_four] at ha
    exact ⟨t, hexec, ha.trans (wrap_x32_signExtend _)⟩
  · obtain ⟨t, hexec, -, -, ha⟩ := hfour
    rw [hx, append_bytes_four] at ha
    exact ⟨t, hexec, ha⟩
  · obtain ⟨t, hexec, -, -, ha⟩ :=
      completes_execAll_append hfour fun u hu => completes_high_bytes hfill hu b4 b5 b6 b7
    rw [hx, append_bytes_eight] at ha
    exact ⟨t, hexec, ha.trans (BitVec.signExtend_eq _)⟩

end Sys2Proof.Proofs

/-! # A register stored, and the round trip through memory

A word stored through the address register is read back. -/

namespace Sys2Proof.Proofs

open Sys2Proof Sys2Proof.Machine Sys2Proof.Claims

section Store

variable {s : State} {a : Word}

theorem exec_store_of_read (r : RegIdx) (ha : s.read .a = .ok a) :
    exec (.store r) s = .next ((s.writeX r a).setPc (s.pc + 2)) :=
  withRead_ok ha

/-- A register written with an `XLEN`-bit word holds it, is marked and is in `W` (R104). -/
theorem holds_writeX (s : State) (r : RegIdx) (ha : fits s.config.xlen a) : Holds (s.writeX r a) r a.toNat := by
  refine ⟨?_, ?_, ?_⟩
  · rw [State.writeX_x, Sparse.get_set, if_pos rfl, wrap_of_fits ha]
  · rw [writeX_initialised_x, decide_eq_true rfl, Bool.or_true]
  · exact mem_addIndex.2 (.inl rfl)

theorem allButX_writeX (s : State) (r : RegIdx) (v : Word) : AllButX r s (s.writeX r v) :=
  ⟨⟨rfl, rfl, rfl, rfl, rfl⟩, ⟨rfl, rfl⟩, ⟨rfl, rfl⟩, fun _ hi => regSame_writeX v hi, fun _ => rfl, rfl, rfl⟩

end Store

/-- Settles O14: the write to one register, whatever its index, then the default advance. -/
theorem storeWritesRegisterAndMarks : Obligations.StoreWritesRegisterAndMarks := by
  refine fun r => ⟨decodesTo_of_encode rfl, fun s => ⟨fun a ha => ?_, fun hunwritten => withRead_unwritten hunwritten⟩⟩
  rw [exec_store_of_read r ha, completes_next_iff]
  exact ⟨holds_writeX s r (read_fits ha), addIndex_of_mem, wrap_pc_add_two s, allButX_writeX s r a⟩

/-! ## The indirect round trip (R196) -/

section RoundTrip

variable {s : State} {v base : Word}

theorem exec_ldaddr_of_read (r : RegIdx) (hv : s.read (.x r) = .ok v) :
    exec (.ldaddr r) s = .next ((s.writeAr v).setPc (s.pc + 2)) :=
  withRead_ok hv

theorem exec_ldind_of_read (imm : Byte) (hbase : s.read .ar = .ok base) :
    exec (.ldind imm) s = .next ((s.writeA (widenIndirect s.config
      (s.memRead (effectiveAddress s.config.xlen base (operandOf s.config (.ldind imm)).value)
        (indirectBytes s.config)))).setPc (s.pc + 2)) :=
  withRead_ok hbase

theorem read_x_writeX (r : RegIdx) (hv : fits s.config.xlen v) : (s.writeX r v).read (.x r) = .ok v := by
  have hmarked : (s.writeX r v).initialised (.x r) = true := by simp
  rw [read_of_initialised hmarked, writeX_stored_x, if_pos rfl, wrap_of_fits hv]

theorem read_ar_writeAr (hv : fits s.config.xlen v) : (s.writeAr v).read .ar = .ok v := by
  rw [read_of_initialised (writeAr_initialised_ar s v), writeAr_stored_ar, wrap_of_fits hv]

/-- The word forms with immediate 0 address their base (R75). -/
theorem effectiveAddress_zero (c : Config) (hbase : fits c.xlen base) :
    effectiveAddress c.xlen base (operandOf c (.stind 0)).value = base ∧
    effectiveAddress c.xlen base (operandOf c (.ldind 0)).value = base := by
  have hzero : wrap c.xlen (sext8 c.xlen 0 <<< 2) = 0 := by
    cases c.xlen <;> rfl
  have hbase' : effectiveAddress c.xlen base (wrap c.xlen (sext8 c.xlen 0 <<< 2)) = base := by
    rw [hzero, effectiveAddress, BitVec.ofNat_eq_ofNat, BitVec.add_zero, wrap_of_fits hbase]
  exact ⟨hbase', hbase'⟩

theorem completes_store_ldaddr (r : RegIdx) (hv : s.read .a = .ok v) :
    Completes (execAll [.store r, .ldaddr r] s) fun t =>
      t.config = s.config ∧ t.read .a = .ok v ∧ t.read .ar = .ok v := by
  have hfits := read_fits hv
  have hx : ((s.writeX r v).setPc (s.pc + 2)).read (.x r) = .ok v := (read_setPc ..).trans (read_x_writeX r hfits)
  rw [execAll_cons_of_next (exec_store_of_read r hv), execAll_cons_of_next (exec_ldaddr_of_read r hx)]
  exact completes_next_iff.2 ⟨rfl, hv, read_ar_writeAr (s := s.writeX r v) hfits⟩

/-- A word stored and loaded at one address: its bytes stand there, and `A` is what `ldind` forms of them (R191,
R193). -/
theorem completes_stind_ldind (hv : s.read .a = .ok v) (hbase : s.read .ar = .ok base) :
    Completes (execAll [.stind 0, .ldind 0] s) fun t =>
      t.a = wrap s.config.xlen (widenIndirect s.config (v.toNat % 2 ^ (8 * indirectBytes s.config))) ∧
      ∀ j < indirectBytes s.config,
        Memory.byte t.mem (byteAddress s.config.xlen base j) = v.extractLsb' (8 * j) 8 := by
  obtain ⟨hstind, hldind⟩ := effectiveAddress_zero s.config (read_fits hbase)
  have hspan := (indirectBytes_bounds s.config).2
  have hstore := exec_stind_of_read 0 hv hbase
  rw [hstind] at hstore
  have hload := exec_ldind_of_read (s := (s.memWrite base (indirectBytes s.config) v).setPc (s.pc + 2)) 0 hbase
  rw [memRead_setPc, State.setPc_config, State.memWrite_config, hldind, memRead_memWrite _ _ _ hspan] at hload
  rw [execAll_cons_of_next hstore, execAll_cons_of_next hload]
  exact completes_next_iff.2 ⟨rfl, fun j hj => storeBytes_byte _ _ _ _ hspan hj⟩

/-- The round trip in every configuration. -/
theorem completes_indirect_round_trip (r : RegIdx) (hv : s.read .a = .ok v) :
    Completes (execAll [.store r, .ldaddr r, .stind 0, .ldind 0] s) fun t =>
      t.a = wrap s.config.xlen (widenIndirect s.config (v.toNat % 2 ^ (8 * indirectBytes s.config))) ∧
      ∀ j < indirectBytes s.config,
        Memory.byte t.mem (byteAddress s.config.xlen v j) = v.extractLsb' (8 * j) 8 :=
  completes_execAll_append (completes_store_ldaddr r hv) fun _ ⟨hconfig, ha, har⟩ =>
    hconfig ▸ completes_stind_ldind ha har

/-! What the indirect word forms move in each build (R57, R191). -/

theorem indirectBytes_x32 {c : Config} (hx : c.xlen = .x32) : indirectBytes c = 4 := by
  rw [indirectBytes, hx]

theorem widenIndirect_x32 {c : Config} (hx : c.xlen = .x32) (n : Nat) :
    widenIndirect c n = BitVec.ofNat 64 n := by
  rw [widenIndirect, hx]

theorem indirectBytes_x64_four {c : Config} (hx : c.xlen = .x64) (hword : c.indWord = .four) :
    indirectBytes c = 4 := by
  rw [indirectBytes, hx, hword]

theorem widenIndirect_x64_zero {c : Config} (hx : c.xlen = .x64) (hword : c.indWord = .four)
    (hext : c.indLoadExt = .zero) (n : Nat) : widenIndirect c n = (BitVec.ofNat 32 n).setWidth 64 := by
  rw [widenIndirect, hx, hword, hext]

end RoundTrip

/-- Settles O27: the round trip leaves what `ldind` forms of the bytes of `A`, which are all of them when `XLEN = 32`
and the low 4 when `XLEN = 64` with 4-byte words. -/
theorem indirectRoundTrip : Obligations.IndirectRoundTrip := by
  intro s r v hv
  obtain ⟨t, hexec, ha, hbytes⟩ := completes_indirect_round_trip r hv
  refine ⟨fun hx => ⟨t, hexec, ?_, fun j hj => ?_⟩, fun hx hword hext => ⟨t, hexec, ?_⟩⟩
  · have hfits := read_fits hv
    have hbound : v.toNat < 2 ^ 32 := by rwa [fits, hx] at hfits
    rw [ha, indirectBytes_x32 hx, widenIndirect_x32 hx, Nat.mod_eq_of_lt hbound, BitVec.ofNat_toNat,
      BitVec.setWidth_eq, wrap_of_fits hfits]
  · have hbyte := hbytes j (by rw [indirectBytes_x32 hx]; exact hj)
    rw [byteAddress_eq, hx] at hbyte
    exact hbyte
  · have hlow : t.a.toNat = v.toNat % 2 ^ 32 := by
      rw [ha, indirectBytes_x64_four hx hword, widenIndirect_x64_zero hx hword hext, hx, wrap,
        BitVec.toNat_setWidth, BitVec.toNat_ofNat]
      omega
    refine ⟨hlow, ?_⟩
    rw [← BitVec.toNat_inj, hlow]
    omega

end Sys2Proof.Proofs

/-! # Control transfer

A branch moves `pc` and changes nothing else: one rule serves the four conditional branches, which differ in their test
of `A`. The jump checks its target first and then writes its link. -/

namespace Sys2Proof.Proofs

open Sys2Proof Sys2Proof.Machine Sys2Proof.Claims

section Branch

variable {s : State} {a : Word}

/-- A move of `pc` changes nothing else (R27). -/
theorem allButPc_setPc (s : State) (target : Word) : AllButPc s (s.setPc target) :=
  ⟨⟨rfl, rfl⟩, allButA_refl s⟩

/-- A taken branch adds twice its signed field to `pc`, modulo `2^XLEN` (R74, R171). -/
theorem wrap_pc_add_sextDisp (s : State) (off : BitVec 12) :
    ((wrap s.config.xlen (s.pc + sextDisp s.config.xlen off)).toNat : Int)
      = (s.pc.toNat + 2 * off.toInt) % modulus s :=
  wrap_add_toNat_int _ _ (by rw [sextDisp_toNat_int, Int.emod_emod])

theorem completes_branch_sextDisp (s : State) (off : BitVec 12) :
    Completes (s.branch (.immediate (sextDisp s.config.xlen off))) fun t =>
      (t.pc.toNat : Int) = (s.pc.toNat + 2 * off.toInt) % modulus s ∧ AllButPc s t :=
  completes_next_iff.2 ⟨wrap_pc_add_sextDisp s off, allButPc_setPc s _⟩

theorem completes_advance_allButPc (s : State) : Completes s.advance fun t => Advanced s t ∧ AllButPc s t :=
  completes_next_iff.2 ⟨wrap_pc_add_two s, allButPc_setPc s _⟩

theorem branchIf_of_read {test : Word → Bool} {op : Operand} (ha : s.read .a = .ok a) :
    s.branchIf test op = if test a then s.branch op else s.advance :=
  withRead_ok ha

end Branch

/-- The rule of a conditional branch, from its word, its meaning and what its test says of an `XLEN`-bit word. -/
theorem branchRule_of_exec {sel : BitVec 4} {mk : BitVec 12 → Instr} {cond : State → Word → Prop}
    {test : Xlen → Word → Bool} (hword : ∀ off, encode (Config.specDefault .x64) (mk off) = some (sel ++ off))
    (hexec : ∀ off s, exec (mk off) s = s.branchIf (test s.config.xlen) (.immediate (sextDisp s.config.xlen off)))
    (htest : ∀ s a, fits s.config.xlen a → (test s.config.xlen a = true ↔ cond s a)) : BranchRule sel mk cond := by
  refine fun off => ⟨decodesTo_of_encode (hword off), fun s => ⟨fun a ha hcond => ?_, fun a ha hcond => ?_,
    fun hunwritten => (hexec off s).trans (withRead_unwritten hunwritten)⟩⟩
  · rw [hexec, branchIf_of_read ha, if_pos ((htest s a (read_fits ha)).2 hcond)]
    exact completes_branch_sextDisp s off
  · rw [hexec, branchIf_of_read ha, if_neg (mt (htest s a (read_fits ha)).1 hcond)]
    exact completes_advance_allButPc s

/-! ## The tests of `A` -/

section Tests

variable {x : Xlen} {a : Word}

theorem isZero_iff (ha : fits x a) : isZero x a = true ↔ a = 0 := by
  rw [isZero, wrap_of_fits ha, beq_iff_eq]

theorem isNonZero_iff (ha : fits x a) : isNonZero x a = true ↔ a ≠ 0 := by
  rw [isNonZero_eq, Bool.not_eq_true', ← Bool.not_eq_true, isZero_iff ha]

theorem isNonNegative_iff (ha : fits x a) : isNonNegative x a = true ↔ 0 ≤ sval x a := by
  rw [isNonNegative, decide_eq_true_iff, sval_eq_signed ha]

theorem isNegative_iff (ha : fits x a) : isNegative x a = true ↔ sval x a < 0 := by
  rw [isNegative, decide_eq_true_iff, sval_eq_signed ha]

end Tests

/-- Settles O17: the branch that the conditional ones take, here without a test and so without a read. -/
theorem brAddsDisplacement : Obligations.BrAddsDisplacement :=
  fun off => ⟨decodesTo_of_encode rfl, fun s => completes_branch_sextDisp s off⟩

/-- Settles O18: a word read from `A` is its own residue, so the test for zero is the word's. -/
theorem brzAndBrnzTestForZero : Obligations.BrzAndBrnzTestForZero :=
  ⟨branchRule_of_exec (test := isZero) (fun _ => rfl) (fun _ _ => rfl) fun _ _ => isZero_iff,
    branchRule_of_exec (test := isNonZero) (fun _ => rfl) (fun _ _ => rfl) fun _ _ => isNonZero_iff⟩

/-- Settles O19: the tests are on the signed reading, which zero is on the side of `brp`. -/
theorem brpAndBrnTestTheSign : Obligations.BrpAndBrnTestTheSign :=
  ⟨branchRule_of_exec (test := isNonNegative) (fun _ => rfl) (fun _ _ => rfl) fun _ _ => isNonNegative_iff,
    branchRule_of_exec (test := isNegative) (fun _ => rfl) (fun _ _ => rfl) fun _ _ => isNegative_iff⟩

/-! ## The jump -/

section Jump

variable {s : State} {a : Word}

/-- A register write reduces its word modulo `2^XLEN` (R104), so reducing it before changes nothing. -/
theorem writeX_wrap (s : State) (r : RegIdx) (v : Word) : s.writeX r (wrap s.config.xlen v) = s.writeX r v := by
  simp only [State.writeX, wrap_wrap]

/-- The link is `pc + 2` modulo `2^XLEN` (R170). -/
theorem holds_link (s : State) (r : RegIdx) :
    Holds (s.writeX r (s.pc + 2)) r ((s.pc.toNat + 2) % modulus s) := by
  rw [← writeX_wrap, ← wrap_pc_add_two]
  exact holds_writeX s r (wrap_fits _ _)

/-- The status after a jump that is taken (R170). -/
def statusAfterJal (r : RegIdx) (s : State) : Status :=
  if s.config.exitOnJalR0 = true ∧ r = 0 then .halted .returnToCaller else s.status

theorem exec_jal_outside (r : RegIdx) (ha : s.read .a = .ok a) (hwindow : s.inJalWindow a = false) :
    exec (.jal r) s = s.raise (.outOfBoundsJump a) :=
  (withRead_ok ha).trans (if_pos (by rw [hwindow, Bool.not_false]))

theorem exec_jal_misaligned (r : RegIdx) (ha : s.read .a = .ok a) (hwindow : s.inJalWindow a = true)
    (hodd : a.getLsbD 0 = true) (hfault : s.config.jalOdd = .fault) :
    exec (.jal r) s = s.raise (.misalignedJump a) := by
  refine (withRead_ok ha).trans ?_
  simp [hwindow, hodd, hfault]

/-- A jump to an allowed target links, moves `pc`, and sets the status in the one case of `EXIT_ON_JAL_R0` (R170). -/
theorem exec_jal_taken (r : RegIdx) (ha : s.read .a = .ok a) (hwindow : s.inJalWindow a = true)
    (hparity : a.getLsbD 0 = false ∨ s.config.jalOdd = .allow) :
    exec (.jal r) s = .next { (s.writeX r (s.pc + 2)).setPc a with status := statusAfterJal r s } := by
  have hallowed : (a.getLsbD 0 && s.config.jalOdd == .fault) = false := by
    rcases hparity with heven | hallow
    · rw [heven, Bool.false_and]
    · rw [hallow]
      exact Bool.and_false _
  refine (withRead_ok ha).trans ?_
  rw [if_neg (by simp [hwindow]), if_neg (Bool.eq_false_iff.1 hallowed), statusAfterJal]
  by_cases hexit : s.config.exitOnJalR0 = true ∧ r = 0
  · rw [if_pos (by simpa using hexit), if_pos hexit]
    rfl
  · rw [if_neg (by simpa using hexit), if_neg hexit]
    rfl

end Jump

/-- Settles O16: the checks of the target in their order, then the write of the link and the move of `pc`. -/
theorem jalLinksAndJumpsInWindow : Obligations.JalLinksAndJumpsInWindow := by
  refine fun r => ⟨decodesTo_of_encode rfl, fun s => ⟨fun a ha hlow hhigh hparity => ?_, fun a ha hout => ?_,
    fun a ha hlow hhigh hodd hfault => ?_, fun hunwritten => withRead_unwritten hunwritten⟩⟩
  · have hfits : fits s.config.xlen a := read_fits ha
    have hparity' := hparity.imp_left (toNat_mod_two_eq_zero_iff a).1
    obtain ⟨hcycle, hacc, har, hregs, hmem, hsink, -⟩ := allButX_writeX s r (s.pc + 2)
    rw [exec_jal_taken r ha ((inJalWindow_iff s a).2 ⟨hlow, hhigh⟩) hparity', completes_next_iff]
    exact ⟨wrap_of_fits hfits, holds_link s r, hcycle, hacc, har, hregs, hmem, hsink, rfl⟩
  · refine exec_jal_outside r ha ?_
    rw [← Bool.not_eq_true, inJalWindow_iff]
    omega
  · have hbit : a.getLsbD 0 = true := by
      rw [← Bool.not_eq_false, ← toNat_mod_two_eq_zero_iff]
      omega
    exact exec_jal_misaligned r ha ((inJalWindow_iff s a).2 ⟨hlow, hhigh⟩) hbit hfault

end Sys2Proof.Proofs

/-! # Indirect loads and stores

The address of an access in numbers, what a load makes of the bytes it reads, and the frame of a write to memory. -/

namespace Sys2Proof.Proofs

open Sys2Proof Sys2Proof.Machine Sys2Proof.Claims

/-! ## The bytes of an access -/

section IndirectAddress

variable (c : Config) (base : Word) (imm : Byte)

/-- Byte `j` of an access at the residue of an integer is `j` further on (R51). -/
theorem byteAddress_of_emod {x : Xlen} {addr : Word} {n : Int} (h : (addr.toNat : Int) = n % 2 ^ x.bits) (j : Nat) :
    (byteAddress x addr j : Int) = (n + j) % 2 ^ x.bits := by
  rw [byteAddress_eq]
  push_cast
  rw [h, Int.emod_add_emod]

/-- The addresses of an indirect word (R191, R193). -/
theorem byteAddress_word {i : Instr} (hi : i ∈ [Instr.ldind imm, Instr.stind imm]) (j : Nat) :
    (byteAddress c.xlen (effectiveAddress c.xlen base (operandOf c i).value) j : Int)
      = (base.toNat + 4 * imm.toInt + j) % 2 ^ c.xlen.bits :=
  byteAddress_of_emod ((effectiveAddressWraps c base imm).1 i hi) j

/-- The address of an indirect byte (R192, R194). -/
theorem byteAddress_byte {i : Instr} (hi : i ∈ [Instr.ldindbu imm, Instr.stindb imm]) :
    (byteAddress c.xlen (effectiveAddress c.xlen base (operandOf c i).value) 0 : Int)
      = (base.toNat + imm.toInt) % 2 ^ c.xlen.bits := by
  simpa using byteAddress_of_emod ((effectiveAddressWraps c base imm).2 i hi) 0

/-- The bytes an indirect word access moves (R57). -/
theorem indirectBytes_eq_wordSpan : indirectBytes c = wordSpan c := by
  cases hx : c.xlen with
  | x32 => simp [indirectBytes, wordSpan, hx]
  | x64 => cases hword : c.indWord <;> simp [indirectBytes, wordSpan, hx, hword]

theorem wordSpan_bounds : 4 ≤ wordSpan c ∧ wordSpan c ≤ 8 := by
  unfold wordSpan
  split <;> omega

end IndirectAddress

/-! ## The address register -/

/-- Settles O21: the one write to `AR`, with the frame of no write elsewhere. -/
theorem ldaddrSetsAddressRegister : Obligations.LdaddrSetsAddressRegister := by
  refine fun r => ⟨decodesTo_of_encode rfl, fun s => ⟨fun b hb => ?_, fun hunwritten => withRead_unwritten hunwritten⟩⟩
  obtain ⟨hcycle, -, hregs, hmem, hout, hstatus⟩ := allButA_refl s
  rw [exec_ldaddr_of_read r hb, completes_next_iff]
  exact ⟨wrap_of_fits (read_fits hb), rfl, wrap_pc_add_two s, hcycle, ⟨rfl, rfl⟩, hregs, hmem, hout, hstatus⟩

/-! ## Loads -/

theorem widenIndirect_x64_sign {c : Config} (hx : c.xlen = .x64) (hword : c.indWord = .four)
    (hext : c.indLoadExt = .sign) (n : Nat) : widenIndirect c n = (BitVec.ofNat 32 n).signExtend 64 := by
  rw [widenIndirect, hx, hword, hext]

theorem widenIndirect_x64_eight {c : Config} (hx : c.xlen = .x64) (hword : c.indWord = .eight) (n : Nat) :
    widenIndirect c n = BitVec.ofNat 64 n := by
  rw [widenIndirect, hx, hword]

/-- The word `ldind` forms, bit by bit: the bits read, and above them copies of bit 31 or 0 (R191). -/
theorem widenIndirect_getLsbD (c : Config) (n : Nat) {i : Nat} (hi : i < 64) :
    (wrap c.xlen (widenIndirect c n)).getLsbD i =
      if i < 8 * wordSpan c then n.testBit i
      else (decide (c.xlen = .x64 ∧ c.indLoadExt = .sign) && n.testBit 31) := by
  rw [wrap_getLsbD]
  cases hx : c.xlen with
  | x32 =>
    rw [widenIndirect_x32 hx, BitVec.getLsbD_ofNat]
    by_cases hlow : i < 32 <;> simp [wordSpan, hx, Xlen.bits, hi, hlow]
  | x64 =>
    cases hword : c.indWord with
    | eight =>
      rw [widenIndirect_x64_eight hx hword, BitVec.getLsbD_ofNat]
      simp [wordSpan, hx, hword, Xlen.bits, hi]
    | four =>
      cases hext : c.indLoadExt with
      | zero =>
        rw [widenIndirect_x64_zero hx hword hext, BitVec.getLsbD_setWidth, BitVec.getLsbD_ofNat]
        simp [wordSpan, hx, hword, Xlen.bits, hi]
      | sign =>
        rw [widenIndirect_x64_sign hx hword hext, BitVec.getLsbD_signExtend, BitVec.msb_eq_getLsbD_last,
          BitVec.getLsbD_ofNat, BitVec.getLsbD_ofNat]
        by_cases hlow : i < 32 <;> simp [wordSpan, hx, hword, Xlen.bits, hi, hlow]

/-- The low bytes of the word `ldind` forms are the bytes of memory at the access (R53, R191). -/
theorem widenIndirect_memRead_byte (s : State) (addr : Word) {j : Nat} (hj : j < wordSpan s.config) :
    (wrap s.config.xlen (widenIndirect s.config (s.memRead addr (wordSpan s.config)))).extractLsb' (8 * j) 8
      = Memory.byte s.mem (byteAddress s.config.xlen addr j) := by
  have hspan := (wordSpan_bounds s.config).2
  refine BitVec.eq_of_getLsbD_eq fun k hk => ?_
  have hi : 8 * j + k < 64 := by omega
  rw [BitVec.getLsbD_extractLsb', decide_eq_true hk, Bool.true_and, widenIndirect_getLsbD _ _ hi,
    if_pos (by omega), ← BitVec.testBit_toNat, ← memRead_byte s addr hj, show 256 = 2 ^ 8 from rfl,
    Nat.testBit_mod_two_pow, decide_eq_true hk, Bool.true_and, Nat.testBit_div_two_pow, Nat.add_comm]

/-- A byte whose bits are all the same. -/
theorem byte_eq_of_getLsbD_const {v : Byte} {p : Bool} (h : ∀ k < 8, v.getLsbD k = p) :
    v = if p then 0xFF else 0 := by
  refine BitVec.eq_of_getLsbD_eq fun k hk => ?_
  rw [h k hk]
  cases p with
  | true =>
    change true = (BitVec.allOnes 8).getLsbD k
    rw [BitVec.getLsbD_allOnes, decide_eq_true hk]
  | false => exact BitVec.getLsbD_zero.symm

/-- The bytes of `A` above the word read are the fill (R191). -/
theorem widenIndirect_fill (c : Config) (n : Nat) {j : Nat} (hspan : wordSpan c ≤ j) (hj : j < 8) :
    (wrap c.xlen (widenIndirect c n)).extractLsb' (8 * j) 8
      = if c.xlen = .x64 ∧ c.indLoadExt = .sign ∧ (wrap c.xlen (widenIndirect c n)).getLsbD 31 = true
        then 0xFF else 0 := by
  have hfour := (wordSpan_bounds c).1
  have hfill : ∀ k < 8, ((wrap c.xlen (widenIndirect c n)).extractLsb' (8 * j) 8).getLsbD k
      = (decide (c.xlen = .x64 ∧ c.indLoadExt = .sign) && n.testBit 31) := by
    intro k hk
    have hi : 8 * j + k < 64 := by omega
    rw [BitVec.getLsbD_extractLsb', decide_eq_true hk, Bool.true_and, widenIndirect_getLsbD c n hi,
      if_neg (by omega)]
  have hbit : (wrap c.xlen (widenIndirect c n)).getLsbD 31 = n.testBit 31 :=
    (widenIndirect_getLsbD c n (by decide)).trans (if_pos (by omega))
  rw [byte_eq_of_getLsbD_const hfill, hbit]
  simp [and_assoc]

/-- `ldindbu` in a state in which its operand is readable (R192). -/
theorem exec_ldindbu_of_read {s : State} {base : Word} (imm : Byte) (hbase : s.read .ar = .ok base) :
    exec (.ldindbu imm) s = .next ((s.writeA (BitVec.ofNat 64
      (s.memRead (effectiveAddress s.config.xlen base (operandOf s.config (.ldindbu imm)).value) 1))).setPc
        (s.pc + 2)) :=
  withRead_ok hbase

theorem memRead_one (s : State) (addr : Word) :
    s.memRead addr 1 = (Memory.byte s.mem (byteAddress s.config.xlen addr 0)).toNat := by
  simp [State.memRead]

/-- Settles O23: the bits of the word formed, gathered into the bytes read and the bytes above them. -/
theorem ldindLoadsWord : Obligations.LdindLoadsWord := by
  refine fun imm => ⟨decodesTo_of_encode rfl, fun s => ⟨fun base hbase => ?_,
    fun hunwritten => withRead_unwritten hunwritten⟩⟩
  rw [exec_ldind_of_read imm hbase, indirectBytes_eq_wordSpan]
  obtain ⟨t, hexec, ha, hrest⟩ := completes_writeA_advance (s := s) (· = wrap s.config.xlen _) rfl
  refine ⟨t, hexec, fun j hj => ?_, fun j hspan hj => ?_, hrest⟩
  · have haddr := byteAddress_word s.config base imm (i := .ldind imm) (by simp) j
    rw [ha, widenIndirect_memRead_byte s _ hj, modulus, ← haddr, Int.toNat_natCast]
  · rw [ha]
    exact widenIndirect_fill s.config _ hspan hj

/-- Settles O24: a read of one byte is that byte, which fits either width. -/
theorem ldindbuLoadsZeroExtendedByte : Obligations.LdindbuLoadsZeroExtendedByte := by
  refine fun imm => ⟨decodesTo_of_encode rfl, fun s => ⟨fun base hbase => ?_,
    fun hunwritten => withRead_unwritten hunwritten⟩⟩
  have haddr := byteAddress_byte s.config base imm (i := .ldindbu imm) (by simp)
  rw [exec_ldindbu_of_read imm hbase, memRead_one, modulus, ← haddr, Int.toNat_natCast]
  refine completes_writeA_advance (fun v => v.toNat = (Memory.byte s.mem _).toNat) ?_
  rw [BitVec.ofNat_toNat]
  exact (congrArg BitVec.toNat (wrap_of_fits (fits_zext8 _ _))).trans (zext8_toNat _)

/-! ## Stores -/

/-- A write to memory and a move of `pc` change nothing else (R27, R54). -/
theorem allButMem_memWrite_setPc (s : State) (addr : Word) (n : Nat) (v target : Word) :
    AllButMem s ((s.memWrite addr n v).setPc target) :=
  ⟨⟨rfl, rfl, rfl, rfl, rfl⟩, ⟨rfl, rfl⟩, ⟨rfl, rfl⟩, fun _ => ⟨rfl, rfl, Iff.rfl⟩, rfl, rfl⟩

/-- `stindb` in a state in which its two operands are readable (R194). -/
theorem exec_stindb_of_read {s : State} {a base : Word} (imm : Byte) (ha : s.read .a = .ok a)
    (hbase : s.read .ar = .ok base) :
    exec (.stindb imm) s = .next
      ((s.memWrite (effectiveAddress s.config.xlen base (operandOf s.config (.stindb imm)).value) 1 a).setPc
        (s.pc + 2)) :=
  (withRead_ok ha).trans (withRead_ok hbase)

theorem storeBytes_one_byte (x : Xlen) (m : Memory) (addr v : Word) (b : Nat) :
    Memory.byte (storeBytes x m addr v 1) b
      = if b = byteAddress x addr 0 then v.extractLsb' 0 8 else Memory.byte m b := by
  rw [storeBytes, storeBytes, Memory.byte_setByte]

/-- Settles O25: the bytes of the access are set and no other, at the addresses of the rule. -/
theorem stindStoresWord : Obligations.StindStoresWord := by
  refine fun imm => ⟨decodesTo_of_encode rfl, fun s => ⟨fun a base ha hbase => ?_,
    fun hunwritten => withRead_unwritten hunwritten,
    fun a ha hunwritten => (withRead_ok ha).trans (withRead_unwritten hunwritten)⟩⟩
  have hspan := (wordSpan_bounds s.config).2
  rw [exec_stind_of_read imm ha hbase, indirectBytes_eq_wordSpan, completes_next_iff]
  exact ⟨fun j hj => ⟨byteAddress_word s.config base imm (by simp) j, storeBytes_byte _ _ _ _ hspan hj⟩,
    fun addr haddr => storeBytes_other _ _ _ _ _ addr haddr, wrap_pc_add_two s, allButMem_memWrite_setPc s _ _ _ _⟩

/-- Settles O26: a write of one byte sets that byte and no other, at the address of the rule. -/
theorem stindbStoresByte : Obligations.StindbStoresByte := by
  refine fun imm => ⟨decodesTo_of_encode rfl, fun s => ⟨fun a base ha hbase => ?_,
    fun hunwritten => withRead_unwritten hunwritten,
    fun a ha hunwritten => (withRead_ok ha).trans (withRead_unwritten hunwritten)⟩⟩
  rw [exec_stindb_of_read imm ha hbase, completes_next_iff]
  exact ⟨byteAddress_byte s.config base imm (by simp), storeBytes_one_byte _ _ _ _, wrap_pc_add_two s,
    allButMem_memWrite_setPc s _ _ _ _⟩

end Sys2Proof.Proofs

/-! # System calls, the ports and undecodable bytes

`scall` is one equation per subfunction, and each clause of its rule is read off its equation. An undecodable byte is
met in the whole cycle, where the opcode byte is the second of the two bytes fetched. -/

namespace Sys2Proof.Proofs

open Sys2Proof Sys2Proof.Machine Sys2Proof.Claims

/-! ## `scall` by its subfunction -/

section Scall

variable {s : State} {a : Word} {imm : Byte}

theorem exec_scall_zero (s : State) : exec (.scall 0) s = .next (s.halt .systemCall) := rfl

theorem exec_scall_one (s : State) :
    exec (.scall 1) s = .next ((s.writeX counterRegister (BitVec.ofNat 64 s.nExec)).setPc (s.pc + 2)) := rfl

theorem exec_scall_two (s : State) :
    exec (.scall 2) s = s.withRead .a fun a => (s.emit (a.extractLsb' 0 8)).advance := rfl

theorem exec_scall_two_of_read (ha : s.read .a = .ok a) :
    exec (.scall 2) s = .next ((s.emit (a.extractLsb' 0 8)).setPc (s.pc + 2)) :=
  (exec_scall_two s).trans (withRead_ok ha)

/-- The subfunctions from 3 on are those without a name (R210). -/
theorem ne_named_subfunction (h : 3 ≤ imm.toNat) : imm ≠ 0 ∧ imm ≠ 1 ∧ imm ≠ 2 := by
  refine ⟨?_, ?_, ?_⟩ <;> rintro rfl <;> exact absurd h (by decide)

/-- An unnamed subfunction reads and writes nothing: the policy alone decides what it does (R210). -/
theorem exec_scall_other (h : 3 ≤ imm.toNat) :
    (s.config.scallOther = .fault → exec (.scall imm) s = s.raise (.unknownSyscall imm)) ∧
    (s.config.scallOther = .nop → exec (.scall imm) s = s.advance) := by
  obtain ⟨h0, h1, h2⟩ := ne_named_subfunction h
  constructor <;> intro hpolicy <;> rw [exec, execScall, if_neg h0, if_neg h1, if_neg h2, hpolicy]

/-! ## The counter and the character -/

theorem wrap_ofNat_toNat_int (x : Xlen) (n : Nat) : ((wrap x (BitVec.ofNat 64 n)).toNat : Int) = n % 2 ^ x.bits := by
  rw [← BitVec.ofInt_natCast, wrap_ofInt_toNat]

/-- The counter register receives `N_exec` modulo `2^XLEN` (R211). -/
theorem holds_counter (s : State) :
    Holds (s.writeX counterRegister (BitVec.ofNat 64 s.nExec)) counterRegister ((s.nExec : Int) % modulus s) := by
  rw [← writeX_wrap, modulus, ← wrap_ofNat_toNat_int]
  exact holds_writeX s counterRegister (wrap_fits _ _)

theorem completes_scall_one (s : State) : Completes (exec (.scall 1) s) fun t =>
    Holds t 4 ((s.nExec : Int) % modulus s) ∧ Advanced s t ∧ AllButX 4 s t := by
  rw [exec_scall_one, completes_next_iff]
  exact ⟨holds_counter s, wrap_pc_add_two s, allButX_writeX s counterRegister _⟩

theorem low_byte_eq_ofNat (a : Word) : a.extractLsb' 0 8 = BitVec.ofNat 8 a.toNat := by
  rw [BitVec.extractLsb', Nat.shiftRight_zero]

/-- The character is the low byte of `A`, at the end of `OUT` (R212). -/
theorem completes_scall_two (ha : s.read .a = .ok a) : Completes (exec (.scall 2) s) fun t =>
    t.out = s.out ++ [BitVec.ofNat 8 a.toNat] ∧ Advanced s t ∧ AllButPc { s with out := t.out } t := by
  rw [exec_scall_two_of_read ha, low_byte_eq_ofNat, completes_next_iff]
  exact ⟨rfl, wrap_pc_add_two s, allButPc_setPc (s.emit _) _⟩

end Scall

/-- Settles O32: one clause per subfunction, the unnamed ones by the policy. -/
theorem scallDispatchesOnImmediate : Obligations.ScallDispatchesOnImmediate := by
  refine ⟨fun imm => decodesTo_of_encode rfl, fun s => ⟨exec_scall_zero s, completes_scall_one s,
    fun _ => completes_scall_two, fun hunwritten => (exec_scall_two s).trans (withRead_unwritten hunwritten),
    fun imm himm => (exec_scall_other himm).1, fun imm himm hpolicy => ?_⟩⟩
  rw [(exec_scall_other himm).2 hpolicy]
  exact completes_advance_allButPc s

/-! ## The ports -/

theorem exec_outPort (s : State) : exec .outPort s = s.raise (.unimplemented .outPort) := rfl

theorem exec_inPort (s : State) : exec .inPort s = s.raise (.unimplemented .inPort) := rfl

/-- Settles O33: the immediate byte is ignored by the decoder, and the meaning is the error alone. -/
theorem inAndOutAreFatal : Obligations.InAndOutAreFatal := by
  refine ⟨fun imm => ⟨?_, ?_⟩, fun s => ⟨exec_outPort s, exec_inPort s⟩⟩
  · exact decodesTo_of_ignoresImm8 rfl (decodesTo_of_encode (w := 0x3900) rfl) (opcodeOf_append _ _)
  · exact decodesTo_of_ignoresImm8 rfl (decodesTo_of_encode (w := 0x0500) rfl) (opcodeOf_append _ _)

/-! ## Undecodable opcode bytes -/

/-- The opcode byte of the fetched word is the byte at `pc + 1` (R55, R70, R231). -/
theorem opcodeOf_fetch (s : State) :
    opcodeOf s.fetch = Memory.byte s.mem (byteAddress s.config.xlen s.pc 1) := by
  have hbyte := memRead_byte s s.pc (n := instrBytes) (j := 1) (by decide)
  apply BitVec.eq_of_toNat_eq
  rw [opcodeOf, State.fetch, BitVec.extractLsb'_toNat, BitVec.toNat_ofNat, Nat.shiftRight_eq_div_pow, ← hbyte]
  omega

/-- A cycle that fetches an undecodable word counts it and ends with the error of its opcode byte (R215, R236). -/
theorem step_of_decodeWord_error {s : State} {e : DecodeReject} (hrun : s.status = .running)
    (hwindow : s.inFetchWindow s.pc = true) (hdecode : decodeWord s.config s.fetch = .error e) :
    step s = s.beginCycle.raise (.decodeError (opcodeOf s.fetch)) := by
  rw [step, hrun, if_pos hwindow, hdecode]
  rfl

/-- Settles O34: the byte at `pc + 1` alone decides whether the fetched word decodes. -/
theorem unknownOpcodeIsDecodeError : Obligations.UnknownOpcodeIsDecodeError := by
  intro s hrun hwindow hunknown
  rw [← opcodeOf_fetch] at hunknown ⊢
  exact step_of_decodeWord_error hrun hwindow (decodeWord_error.2 ⟨hunknown, rfl⟩)

end Sys2Proof.Proofs

/-! # The run loop

What a cycle answers in each of the cases of R236, as one equation per case. The statements about a cycle are read off
these equations and the inversions of `exec`. -/

namespace Sys2Proof.Proofs

open Sys2Proof Sys2Proof.Machine Sys2Proof.Claims

section Cycle

variable {i : Instr} {s t : State} {e : Error} {r : RunResult}

/-! ## The cycle by its cases -/

theorem step_of_halted (hhalted : s.status = .halted r) : step s = .fault (.halted r) := by
  rw [step, hhalted]

theorem step_of_not_inFetchWindow (hrun : s.status = .running) (houtside : s.inFetchWindow s.pc = false) :
    step s = .next (s.recordFetch.halt .outOfBounds) := by
  rw [step, hrun, houtside]
  rfl

theorem step_of_decodeWord_ok (hrun : s.status = .running) (hwindow : s.inFetchWindow s.pc = true)
    (hdecode : decodeWord s.config s.fetch = .ok i) : step s = exec i s.beginCycle := by
  rw [step, hrun, if_pos hwindow, hdecode]

/-- A cycle that answers a next state left the window, or counted its fetch and then ran an instruction or met an
undecodable byte (R233, R234, R236). -/
theorem step_next_cases (hstep : step s = .next t) :
    (s.inFetchWindow s.pc = false ∧ t = s.recordFetch.halt .outOfBounds) ∨
    (s.inFetchWindow s.pc = true ∧ ((∃ i, s.status = .running ∧ exec i s.beginCycle = .next t) ∨
      ∃ e, t = s.beginCycle.halt (.error e))) := by
  rcases step_cases s with ⟨r, -, hfault⟩ | ⟨-, hout, hleft⟩ | ⟨i, hrun, hin, -, hexec⟩ |
      ⟨-, -, hin, -, hunknown⟩
  · exact nomatch hfault.symm.trans hstep
  · exact .inl ⟨hout, Host.Outcome.next.inj (hstep.symm.trans hleft)⟩
  · exact .inr ⟨hin, .inl ⟨i, hrun, hexec.symm.trans hstep⟩⟩
  · exact .inr ⟨hin, .inr ⟨_, Host.Outcome.next.inj (hstep.symm.trans hunknown)⟩⟩

/-- A run ends at its first fault, whatever its length. -/
theorem run_succ_of_fault {M : Host.Core} {n : Nat} {s : M.State} {r : M.Fault} (hstep : M.step s = .fault r) :
    M.run (n + 1) s = .fault r := by
  rw [Host.Core.run, hstep]

/-! ## Fatal errors -/

/-- An instruction that goes on leaves the status running, so one whose status is an error did nothing but halt
(R102, R253). -/
theorem eq_halt_of_exec_error (hrun : s.status = .running) (hexec : exec i s = .next t)
    (herror : t.status = .halted (.error e)) : t = s.halt (.error e) := by
  have hcases := completes_next_iff.1 (hexec ▸ exec_completes_cases i s)
  rcases hcases with hfinish | ⟨l, -, -, rfl⟩
  · cases hfinish with
    | continued hsame => rw [hsame, hrun] at herror; cases herror
    | systemCall | returned => cases herror
    | failed => cases herror; rfl
  · cases herror; rfl

theorem eq_beginCycle_halt_of_step_error (hstep : step s = .next t) (herror : t.status = .halted (.error e)) :
    t = s.beginCycle.halt (.error e) := by
  rcases step_next_cases hstep with ⟨-, rfl⟩ | ⟨-, ⟨i, hrun, hexec⟩ | ⟨e', rfl⟩⟩
  · cases herror
  · exact eq_halt_of_exec_error hrun hexec herror
  · cases herror; rfl

/-! ## The counter -/

/-- A meaning changes no counter: only the beginning of a cycle does (R234). -/
theorem nExec_keptByWrites (n : Nat) : KeptByWrites (fun s => s.nExec = n) where
  writeA _ hs := hs
  writeAr _ hs := hs
  writeX _ _ hs := hs
  setPc _ hs := hs
  memWrite _ _ _ hs := hs
  emit _ hs := hs
  halt _ hs := hs

theorem exec_nExec (hexec : exec i s = .next t) : t.nExec = s.nExec :=
  completes_next_iff.1 (hexec ▸ (nExec_keptByWrites s.nExec).completes_exec i rfl)

theorem step_nExec (hstep : step s = .next t) :
    t.nExec = if s.inFetchWindow s.pc = true then s.nExec + 1 else s.nExec := by
  rcases step_next_cases hstep with ⟨hout, rfl⟩ | ⟨hin, ⟨i, -, hexec⟩ | ⟨e, rfl⟩⟩
  · simp [hout]
  · rw [if_pos hin, exec_nExec hexec, State.beginCycle_nExec]
  · simp [hin]

/-! ## The bytes of a fetch -/

/-- The low byte of the fetched word is the byte at `pc` (R55, R231). -/
theorem low_byte_fetch (s : State) :
    s.fetch.extractLsb' 0 8 = Memory.byte s.mem (byteAddress s.config.xlen s.pc 0) := by
  have hbyte := memRead_byte s s.pc (n := instrBytes) (j := 0) (by decide)
  apply BitVec.eq_of_toNat_eq
  rw [State.fetch, BitVec.extractLsb'_toNat, BitVec.toNat_ofNat, Nat.shiftRight_zero, ← hbyte]
  omega

/-- A fetch reads the two bytes from `pc` on, the low one first (R55, R231). -/
theorem bytesOfWord_fetch (s : State) :
    bytesOfWord s.fetch = [Memory.byte s.mem (byteAddress s.config.xlen s.pc 0),
      Memory.byte s.mem (byteAddress s.config.xlen s.pc 1)] := by
  rw [← low_byte_fetch, ← opcodeOf_fetch]
  rfl

theorem decode_bytesOfWord_iff {c : Config} {w : InstrWord} :
    decode c (bytesOfWord w) = .ok (i, []) ↔ decodeWord c w = .ok i := by
  refine ⟨fun h => ?_, decode_bytesOfWord⟩
  rw [bytesOfWord, decode, wordOfBytes_bytesOfWord] at h
  rcases hword : decodeWord c w with e | j
  · simp [hword] at h
  · simpa [hword] using h

/-! ## The window -/

/-- R30's window in numbers under both bounds, from outside. -/
theorem inFetchWindow_eq_false {a : Word}
    (h : (s.config.windowUpper = .inclusive ∧ (a.toNat < s.entry.toNat ∨ s.entry.toNat + s.textSize < a.toNat)) ∨
      (s.config.windowUpper = .exclusive ∧ (a.toNat < s.entry.toNat ∨ s.entry.toNat + s.textSize ≤ a.toNat))) :
    s.inFetchWindow a = false := by
  rw [← Bool.not_eq_true]
  rcases h with ⟨hupper, houtside⟩ | ⟨hupper, houtside⟩
  · rw [inFetchWindow_inclusive a hupper]
    omega
  · rw [inFetchWindow_exclusive a hupper]
    omega

end Cycle

/-- Settles O36: an error leaves the state that the instruction was given, and in a cycle that state is the one in which
the fetch is recorded and counted. -/
theorem fatalErrorsArePrecise : Obligations.FatalErrorsArePrecise :=
  ⟨fun _ _ _ _ => eq_halt_of_exec_error, fun _ _ _ => eq_beginCycle_halt_of_step_error⟩

/-- Settles O43: the fetch is counted before the instruction runs, so `scall 1` reads a count with itself in it. -/
theorem counterCountsDecodedFetches : Obligations.CounterCountsDecodedFetches := by
  refine ⟨fun s t => step_nExec, fun s hrun hwindow hdecode => ?_⟩
  obtain ⟨t, hexec, hcount, -, -⟩ := completes_scall_one s.beginCycle
  exact ⟨t, (step_of_decodeWord_ok hrun hwindow hdecode).trans hexec, hcount⟩

/-- Settles O39: the two bytes are those of the fetched word. -/
theorem stepRunsDecodedInstruction : Obligations.StepRunsDecodedInstruction := by
  intro s i hrun hwindow hdecode
  rw [← bytesOfWord_fetch, decode_bytesOfWord_iff] at hdecode
  exact step_of_decodeWord_ok hrun hwindow hdecode

/-- Settles O40: such a `pc` fails the window check, before anything is counted. -/
theorem leavingTheWindowEndsTheRun : Obligations.LeavingTheWindowEndsTheRun := by
  intro s hrun houtside
  exact step_of_not_inFetchWindow hrun (inFetchWindow_eq_false houtside)

/-- Settles O41: the step is a fault, and so is a run that begins with it. -/
theorem haltedStateHasNoStep : Obligations.HaltedStateHasNoStep :=
  fun _ _ hhalted => ⟨step_of_halted hhalted, fun _ => run_succ_of_fault (step_of_halted hhalted)⟩

end Sys2Proof.Proofs

/-! # The launch of an ELF image

The placing of regions writes their bytes one after the other, and no address belongs to two placed bytes. So a byte
once placed stays, and what is left of the launch writes registers, marks and `pc` only (R280, R283). -/

namespace Sys2Proof.Proofs

open Sys2Proof Sys2Proof.Machine Sys2Proof.Claims

/-! ## Placed bytes -/

section Placing

variable {x : Xlen} {a : Nat}

theorem mem_addresses_iff {r : ElfRegion} :
    a ∈ r.addresses x ↔ ∃ j < r.bytes.length, a = (r.address.toNat + j) % 2 ^ x.bits := by
  simp [ElfRegion.addresses, byteAddress_eq, eq_comm]

theorem byteAddress_add_one (addr : Word) (j : Nat) : byteAddress x (addr + 1) j = byteAddress x addr (j + 1) :=
  (byteAddress_add addr x 1 j).trans (by rw [Nat.add_comm])

/-- The later bytes of a region are a region one address further on. -/
theorem addresses_cons (addr : Word) (b : Byte) (l : List Byte) :
    ElfRegion.addresses x ⟨addr, b :: l⟩ = byteAddress x addr 0 :: ElfRegion.addresses x ⟨addr + 1, l⟩ := by
  simp only [ElfRegion.addresses, List.length_cons, List.range_succ_eq_map, List.map_cons, List.map_map,
    Function.comp_def, Nat.succ_eq_add_one, ← byteAddress_add_one]

theorem placeBytes_other (m : Memory) {addr : Word} {l : List Byte} (ha : a ∉ ElfRegion.addresses x ⟨addr, l⟩) :
    Memory.byte (placeBytes x m addr l) a = Memory.byte m a := by
  induction l generalizing m addr with
  | nil => rfl
  | cons b l ih =>
    rw [addresses_cons, List.mem_cons, not_or] at ha
    obtain ⟨hfirst, hrest⟩ := ha
    rw [placeBytes, ih _ hrest, Memory.byte_setByte, if_neg hfirst]

theorem placeBytes_byte (m : Memory) {addr : Word} {l : List Byte}
    (hnodup : (ElfRegion.addresses x ⟨addr, l⟩).Nodup) {j : Nat} (hj : j < l.length) :
    Memory.byte (placeBytes x m addr l) (byteAddress x addr j) = l[j] := by
  induction l generalizing m addr j with
  | nil => exact absurd hj (Nat.not_lt_zero j)
  | cons b l ih =>
    rw [addresses_cons, List.nodup_cons] at hnodup
    obtain ⟨hfirst, hrest⟩ := hnodup
    cases j with
    | zero => rw [placeBytes, placeBytes_other _ hfirst, Memory.byte_setByte, if_pos rfl]; rfl
    | succ j =>
      rw [placeBytes, ← byteAddress_add_one]
      exact ih _ hrest (Nat.lt_of_succ_lt_succ hj)

end Placing

/-! ## Placed regions -/

section Regions

variable {x : Xlen} {l : List ElfRegion}

theorem placeRegions_other (m : Memory) {a : Nat} (ha : a ∉ l.flatMap (ElfRegion.addresses x)) :
    Memory.byte (placeRegions x m l) a = Memory.byte m a := by
  induction l generalizing m with
  | nil => rfl
  | cons r l ih =>
    rw [List.flatMap_cons, List.mem_append, not_or] at ha
    obtain ⟨hfirst, hrest⟩ := ha
    rw [placeRegions, ih _ hrest, placeBytes_other _ hfirst]

/-- Of regions that do not overlap, each keeps its bytes under the later ones. -/
theorem placeRegions_byte (m : Memory) (hnodup : (l.flatMap (ElfRegion.addresses x)).Nodup)
    {r : ElfRegion} (hr : r ∈ l) {j : Nat} (hj : j < r.bytes.length) :
    Memory.byte (placeRegions x m l) (byteAddress x r.address j) = r.bytes[j] := by
  induction l generalizing m with
  | nil => exact absurd hr List.not_mem_nil
  | cons first l ih =>
    rw [List.flatMap_cons, List.nodup_append] at hnodup
    obtain ⟨hfirst, hrest, hapart⟩ := hnodup
    rcases List.mem_cons.1 hr with rfl | hr
    · have haddr : byteAddress x r.address j ∈ r.addresses x := mem_addresses_iff.2 ⟨j, hj, byteAddress_eq _ _ _⟩
      rw [placeRegions, placeRegions_other _ fun hlater => hapart _ haddr _ hlater rfl, placeBytes_byte m hfirst hj]
    · exact ih _ hrest hr

theorem mem_placed_iff {img : ElfImage} {r : ElfRegion} :
    r ∈ img.placed x ↔ r ∈ img.regions ∧ r.address.toNat % 2 ^ x.bits ≠ 0 := by
  rw [ElfImage.placed, List.mem_filter, bne_iff_ne, BitVec.toNat_ne, wrap_toNat]
  rfl

theorem mem_placed_addresses_iff {img : ElfImage} {a : Nat} :
    a ∈ (img.placed x).flatMap (ElfRegion.addresses x) ↔ ∃ r ∈ img.regions,
      r.address.toNat % 2 ^ x.bits ≠ 0 ∧ ∃ j < r.bytes.length, a = (r.address.toNat + j) % 2 ^ x.bits := by
  simp only [List.mem_flatMap, mem_placed_iff, mem_addresses_iff, and_assoc]

end Regions

/-! ## The end of a launch -/

section Finish

/-- The host's mapping is a sequence of register writes: what each of them keeps, it keeps. -/
theorem applyMapping_keeps {α : Type} (f : State → α) (hf : ∀ s i v, f (State.writeX s i v) = f s) (s : State)
    (mapping : List (RegIdx × Int)) : f (s.applyMapping mapping) = f s := by
  induction mapping generalizing s with
  | nil => rfl
  | cons e mapping ih => rw [State.applyMapping, ih, hf]

variable (s : State) (mapping : List (RegIdx × Int))

@[simp] theorem applyMapping_config : (s.applyMapping mapping).config = s.config :=
  applyMapping_keeps State.config State.writeX_config s mapping

@[simp] theorem applyMapping_entry : (s.applyMapping mapping).entry = s.entry :=
  applyMapping_keeps State.entry State.writeX_entry s mapping

@[simp] theorem applyMapping_textSize : (s.applyMapping mapping).textSize = s.textSize :=
  applyMapping_keeps State.textSize State.writeX_textSize s mapping

@[simp] theorem applyMapping_mem : (s.applyMapping mapping).mem = s.mem :=
  applyMapping_keeps State.mem State.writeX_mem s mapping

/-- A launch without arguments leaves the image alone and starts at its entry point (R280, R281). -/
theorem finishLaunch_none :
    (s.finishLaunch none mapping).entry = s.entry ∧ (s.finishLaunch none mapping).textSize = s.textSize ∧
    (s.finishLaunch none mapping).pc = wrap s.config.xlen s.entry ∧
    (s.finishLaunch none mapping).status = .running ∧ (s.finishLaunch none mapping).mem = s.mem := by
  simp [State.finishLaunch, State.startRun, State.setStackPointer]

end Finish

/-! ## The answers of a launch -/

section Answers

variable {s : State} {img : ElfImage}

/-- What the loader hands on: the placed regions, the entry point and the size of `.text` (R283). -/
def loadedElf (s : State) (img : ElfImage) : State :=
  { s with
    mem := placeRegions s.config.xlen s.mem (img.placed s.config.xlen)
    entry := wrap s.config.xlen img.entry
    textSize := img.textSize }

theorem loadElf_overlapping (hoverlap : img.disjoint s.config.xlen = false) :
    s.loadElf (some img) = .refused .overlappingRegions := by
  simp only [State.loadElf, hoverlap, Bool.not_false, if_true]

theorem loadElf_disjoint (hdisjoint : img.disjoint s.config.xlen = true) :
    s.loadElf (some img) = if img.entry.getLsbD 0 then .refused .oddEntryPoint else .next (loadedElf s img) := by
  simp only [State.loadElf, hdisjoint, Bool.not_true, Bool.false_eq_true, if_false]
  rfl

theorem loadElf_odd (hdisjoint : img.disjoint s.config.xlen = true) (hodd : img.entry.toNat % 2 = 1) :
    s.loadElf (some img) = .refused .oddEntryPoint := by
  have hbit : ¬ img.entry.getLsbD 0 = false := by rw [← toNat_mod_two_eq_zero_iff, hodd]; decide
  rw [loadElf_disjoint hdisjoint, if_pos (Bool.eq_true_of_not_eq_false hbit)]

theorem loadElf_even (hdisjoint : img.disjoint s.config.xlen = true) (heven : img.entry.toNat % 2 = 0) :
    s.loadElf (some img) = .next (loadedElf s img) := by
  rw [loadElf_disjoint hdisjoint, (toNat_mod_two_eq_zero_iff _).1 heven, if_neg Bool.false_ne_true]

variable (c : Config) (image : Option ElfImage) (args : Option (List Int)) (mapping : List (RegIdx × Int))

/-- A launch goes on from what the loader hands on, and ends with the loader's refusal (R280). -/
theorem launchElf_of_next (h : (State.construct c).loadElf image = .next s) :
    launchElf c image args mapping = .next (s.finishLaunch args mapping) := by
  rw [launchElf, h]

theorem launchElf_of_refused {r : Refusal} (h : (State.construct c).loadElf image = .refused r) :
    launchElf c image args mapping = .refused r := by
  rw [launchElf, h]

end Answers

/-- Settles O56: the loader's answers in order, and the placed regions under what the rest of the launch keeps. -/
theorem elfLaunchPlacesRegions : Obligations.ElfLaunchPlacesRegions := by
  intro c img args mapping
  refine ⟨rfl, fun hoverlap => launchElf_of_refused _ _ _ _ (loadElf_overlapping hoverlap),
    fun hdisjoint hodd => launchElf_of_refused _ _ _ _ (loadElf_odd hdisjoint hodd), fun hdisjoint heven => ?_⟩
  rw [launchElf_of_next c _ none mapping (loadElf_even hdisjoint heven), completes_next_iff]
  obtain ⟨hentry, hsize, hpc, hstatus, hmem⟩ := finishLaunch_none (loadedElf (State.construct c) img) mapping
  rw [hentry, hsize, hpc, hstatus, hmem]
  refine ⟨wrap_toNat _ _, rfl, wrap_wrap _ _, rfl, fun r hr haddr j hj => ?_, fun addr hother => ?_⟩
  · rw [← byteAddress_eq]
    exact placeRegions_byte [] (of_decide_eq_true hdisjoint) (mem_placed_iff.2 ⟨hr, haddr⟩) hj
  · refine placeRegions_other [] fun hin => ?_
    obtain ⟨r, hr, haddr, j, hj, heq⟩ := mem_placed_addresses_iff.1 hin
    exact hother r hr haddr j hj heq

end Sys2Proof.Proofs

/-! # The rest of a launch: a flat image, the argument vector, the host's registers

A flat image and an argument vector are each a list of bytes at consecutive addresses, no more of them than there are
addresses, so that no byte overwrites another. What follows them in a launch is register writes and the start (R280). -/

namespace Sys2Proof.Proofs

open Sys2Proof Sys2Proof.Machine Sys2Proof.Claims

/-! ## Consecutive bytes -/

section Consecutive

variable {x : Xlen} {addr : Word} {l : List Byte}

/-- As many consecutive addresses as memory has, or fewer, are different addresses (R51). -/
theorem addresses_nodup (hfit : l.length ≤ 2 ^ x.bits) : (ElfRegion.addresses x ⟨addr, l⟩).Nodup := by
  refine List.Nodup.map_on (fun i hi j hj heq => ?_) List.nodup_range
  rw [byteAddress_eq, byteAddress_eq] at heq
  exact (Nat.ModEq.add_left_cancel' addr.toNat heq).eq_of_lt_of_lt
    ((List.mem_range.1 hi).trans_le hfit) ((List.mem_range.1 hj).trans_le hfit)

/-- From address 0 up, byte `a` of the list stands at address `a`, and nothing is written past the list (R282). -/
theorem placeBytes_zero (hfit : l.length ≤ 2 ^ x.bits) (a : Nat) :
    Memory.byte (placeBytes x [] 0 l) a = l.getD a 0 := by
  have haddr : ∀ j < l.length, byteAddress x 0 j = j := fun j hj => by
    rw [byteAddress_eq, show (0 : Word).toNat = 0 from rfl, Nat.zero_add, Nat.mod_eq_of_lt (hj.trans_le hfit)]
  by_cases ha : a < l.length
  · rw [List.getD_eq_getElem _ _ ha, ← placeBytes_byte [] (addresses_nodup hfit) ha, haddr a ha]
  · rw [List.getD_eq_default _ _ (Nat.le_of_not_lt ha)]
    refine placeBytes_other [] fun hin => ha ?_
    obtain ⟨j, hj, heq⟩ := mem_addresses_iff.1 hin
    rw [← byteAddress_eq, haddr j hj] at heq
    exact heq ▸ hj

theorem placeBytes_append (m : Memory) (k : List Byte) :
    placeBytes x m addr (l ++ k) = placeBytes x (placeBytes x m addr l) (addr + BitVec.ofNat 64 l.length) k := by
  induction l generalizing m addr with
  | nil => simp [placeBytes]
  | cons b l ih =>
    have hnext : addr + 1 + BitVec.ofNat 64 l.length = addr + BitVec.ofNat 64 (b :: l).length := by
      rw [List.length_cons, Nat.add_comm, BitVec.ofNat_add, ← BitVec.add_assoc]
      rfl
    rw [List.cons_append, placeBytes, placeBytes, ih, hnext]

end Consecutive

/-! ## The launch of a flat image -/

section Flat

variable {s : State} {bytes : List Byte}

/-- What the loader of a flat image hands on (R282). -/
def loadedFlat (s : State) (bytes : List Byte) : State :=
  { s with mem := placeBytes s.config.xlen s.mem 0 bytes, entry := 0, textSize := bytes.length }

theorem loadFlat_odd (hodd : bytes.length % 2 = 1) : s.loadFlat (some bytes) = .fault .inputFileError := by
  rw [State.loadFlat, if_pos hodd]

theorem loadFlat_even (heven : bytes.length % 2 = 0) : s.loadFlat (some bytes) = .next (loadedFlat s bytes) := by
  rw [State.loadFlat, if_neg (by omega)]
  rfl

variable (c : Config) (mapping : List (RegIdx × Int))

/-- An image of odd length gives no run (R251, R282). -/
theorem launchFlat_odd (hodd : bytes.length % 2 = 1) : launchFlat c (some bytes) mapping = .fault .inputFileError := by
  rw [launchFlat, loadFlat_odd hodd]

/-- A launch goes on from the loaded image (R280). -/
theorem launchFlat_even (heven : bytes.length % 2 = 0) :
    launchFlat c (some bytes) mapping = .next ((loadedFlat (State.construct c) bytes).finishLaunch none mapping) := by
  rw [launchFlat, loadFlat_even heven]

end Flat

theorem startRun_initialised (s : State) (l : Loc) : s.startRun.initialised l = s.initialised l := by
  cases l <;> rfl

theorem loadedFlat_initialised (c : Config) (bytes : List Byte) (l : Loc) :
    (loadedFlat (State.construct c) bytes).initialised l = false :=
  construct_initialised c l

/-- Settles O55: the loaded image under the stack pointer's write and the start, which leave memory alone. -/
theorem flatLaunchLoadsAtZero : Obligations.FlatLaunchLoadsAtZero := by
  refine ⟨fun c bytes heven hfit => ?_, fun _ _ => rfl, fun c bytes mapping hodd => launchFlat_odd c mapping hodd⟩
  rw [launchFlat_even c [] heven, completes_next_iff]
  refine ⟨rfl, rfl, rfl, wrap_zero _, rfl, rfl, rfl, rfl, rfl, fun l => ?_, ?_, placeBytes_zero hfit⟩
  · rw [State.finishLaunch, State.applyMapping, startRun_initialised]
    exact setStackPointer_initialised_iff (loadedFlat_initialised c bytes) l
  · exact setStackPointer_stored (loadedFlat (State.construct c) bytes)

/-! ## The bytes of the argument vector -/

section Arguments

/-- The low `n` bytes of a word, the lowest first (R54). -/
def lowBytes (v : Word) (n : Nat) : List Byte := (List.range n).map fun j => v.extractLsb' (8 * j) 8

@[simp] theorem lowBytes_length (v : Word) (n : Nat) : (lowBytes v n).length = n := by
  simp [lowBytes]

/-- A write of a word places its low bytes (R54, R55). -/
theorem storeBytes_eq_placeBytes (x : Xlen) (m : Memory) (addr v : Word) (n : Nat) :
    storeBytes x m addr v n = placeBytes x m addr (lowBytes v n) := by
  induction n with
  | zero => rfl
  | succ n ih =>
    have hlast : lowBytes v (n + 1) = lowBytes v n ++ [v.extractLsb' (8 * n) 8] := by
      simp [lowBytes, List.range_succ]
    rw [hlast, placeBytes_append, lowBytes_length, ← ih, storeBytes, placeBytes, placeBytes, byteAddress_add,
      Nat.add_zero]

/-- The bytes of an argument vector: each integer's low 32 bits, little-endian (R284). -/
def argumentBytes (args : List Int) : List Byte := args.flatMap fun n => lowBytes (BitVec.ofInt 64 n) 4

theorem argumentBytes_cons (n : Int) (args : List Int) :
    argumentBytes (n :: args) = lowBytes (BitVec.ofInt 64 n) 4 ++ argumentBytes args := rfl

@[simp] theorem argumentBytes_length (args : List Int) : (argumentBytes args).length = 4 * args.length := by
  induction args with
  | nil => rfl
  | cons n args ih =>
    rw [argumentBytes_cons, List.length_append, lowBytes_length, ih, List.length_cons]
    omega

theorem argumentBytes_getElem? {args : List Int} {i j : Nat} (hi : i < args.length) (hj : j < 4) :
    (argumentBytes args)[4 * i + j]? = some ((BitVec.ofInt 64 args[i]).extractLsb' (8 * j) 8) := by
  induction args generalizing i with
  | nil => exact absurd hi (Nat.not_lt_zero i)
  | cons n args ih =>
    rw [argumentBytes_cons]
    cases i with
    | zero =>
      rw [Nat.mul_zero, Nat.zero_add, List.getElem?_append_left (by rwa [lowBytes_length])]
      simp [lowBytes, hj]
    | succ i =>
      rw [List.getElem?_append_right (by rw [lowBytes_length]; omega), lowBytes_length,
        show 4 * (i + 1) + j - 4 = 4 * i + j by omega]
      exact ih (Nat.lt_of_succ_lt_succ hi)

/-- Byte `j` of an integer's low 32 bits, in numbers. -/
theorem ofInt_byte_toNat (n : Int) {j : Nat} (hj : j < 4) :
    (((BitVec.ofInt 64 n).extractLsb' (8 * j) 8).toNat : Int) = n / 2 ^ (8 * j) % 2 ^ 8 := by
  rw [BitVec.extractLsb'_toNat, Nat.shiftRight_eq_div_pow, BitVec.toNat_ofInt]
  interval_cases j <;> omega

/-- The argument words are the bytes of the vector, placed, and nothing else changes (R284). -/
theorem writeArguments_eq (s : State) (addr : Word) (args : List Int) :
    s.writeArguments addr args = { s with mem := placeBytes s.config.xlen s.mem addr (argumentBytes args) } := by
  induction args generalizing s addr with
  | nil => rfl
  | cons n args ih =>
    rw [State.writeArguments, ih, State.memWrite_config, State.memWrite_mem, storeBytes_eq_placeBytes,
      argumentBytes_cons, placeBytes_append, lowBytes_length]
    rfl

end Arguments

/-! ## Registers -/

section Registers

variable {s t u : State} {r : RegIdx} {n : Int}

/-- A register as before holds what it held. -/
theorem holds_of_regSame (hsame : RegSame s t r) (hheld : Holds s r n) : Holds t r n := by
  obtain ⟨hget, hmark, hwritten⟩ := hsame
  obtain ⟨hvalue, hmarked, hin⟩ := hheld
  exact ⟨hget ▸ hvalue, hmark.trans hmarked, hwritten.2 hin⟩

theorem regSame_trans (h : RegSame s t r) (h' : RegSame t u r) : RegSame s u r := by
  obtain ⟨hget, hmark, hwritten⟩ := h
  obtain ⟨hget', hmark', hwritten'⟩ := h'
  exact ⟨hget'.trans hget, hmark'.trans hmark, hwritten'.trans hwritten⟩

/-- The start leaves every register alone (R281). -/
theorem regSame_startRun (s : State) (r : RegIdx) : RegSame s s.startRun r := ⟨rfl, rfl, Iff.rfl⟩

/-- A written register holds the word modulo `2^XLEN` (R104). -/
theorem holds_writeX_wrap (s : State) (r : RegIdx) (v : Word) :
    Holds (s.writeX r v) r (wrap s.config.xlen v).toNat := by
  rw [← writeX_wrap]
  exact holds_writeX s r (wrap_fits _ v)

/-- The two registers of the argument vector, after its words (R284). -/
theorem setArguments_holds (s : State) (args : List Int) :
    Holds (s.setArguments args) 4 (args.length % 2 ^ s.config.xlen.bits) ∧
    Holds (s.setArguments args) 5 (s.config.argvBase.toNat % 2 ^ s.config.xlen.bits) := by
  rw [State.setArguments, writeArguments_eq, ← wrap_ofNat_toNat_int, ← wrap_toNat_int]
  exact ⟨holds_of_regSame (regSame_writeX _ (by decide)) (holds_writeX_wrap _ _ _), holds_writeX_wrap _ _ _⟩

end Registers

/-- Settles O57: the vector's bytes are placed at different addresses, and the two register writes follow. -/
theorem argumentVectorInMemoryAndRegisters : Obligations.ArgumentVectorInMemoryAndRegisters := by
  intro s args hfit
  have hmem : (s.finishLaunch (some args) []).mem
      = placeBytes s.config.xlen s.mem s.config.argvBase (argumentBytes args) := by
    rw [State.finishLaunch, State.setArguments, writeArguments_eq]
    rfl
  have hcount : (args.length : Int) % 2 ^ s.config.xlen.bits = args.length := by
    have hlt : args.length < 2 ^ s.config.xlen.bits := by
      have := Nat.two_pow_pos s.config.xlen.bits
      omega
    exact Int.emod_eq_of_lt (Int.natCast_nonneg _) (by exact_mod_cast hlt)
  obtain ⟨hfour, hfive⟩ := setArguments_holds s.setStackPointer args
  rw [hmem]
  refine ⟨fun i hi j hj => ?_, fun addr hother => ?_, ?_, holds_of_regSame (regSame_startRun _ 5) hfive⟩
  · obtain ⟨hin, hbyte⟩ := List.getElem?_eq_some_iff.1 (argumentBytes_getElem? hi hj)
    have hnodup := addresses_nodup (addr := s.config.argvBase) (by rwa [argumentBytes_length args])
    rw [Nat.add_assoc, ← byteAddress_eq, placeBytes_byte _ hnodup hin, hbyte, ofInt_byte_toNat _ hj]
  · refine placeBytes_other _ fun hin => ?_
    obtain ⟨k, hk, heq⟩ := mem_addresses_iff.1 hin
    exact hother k (by rwa [← argumentBytes_length]) heq
  · rw [← hcount]
    exact holds_of_regSame (regSame_startRun _ 4) hfour

/-! ## The host's mapping -/

section Mapping

variable {s : State} {mapping : List (RegIdx × Int)}

/-- A register the mapping does not name is left alone (R286). -/
theorem applyMapping_regSame {i : RegIdx} (hi : i ∉ mapping.map (·.1)) : RegSame s (s.applyMapping mapping) i := by
  induction mapping generalizing s with
  | nil => exact ⟨rfl, rfl, Iff.rfl⟩
  | cons e mapping ih =>
    rw [List.map_cons, List.mem_cons, not_or] at hi
    obtain ⟨hfirst, hrest⟩ := hi
    exact regSame_trans (regSame_writeX _ hfirst) (ih hrest)

/-- An entry's register holds its value under the later entries, which name other registers (R286). -/
theorem applyMapping_holds (hnodup : (mapping.map (·.1)).Nodup) {p : RegIdx × Int} (hp : p ∈ mapping) :
    Holds (s.applyMapping mapping) p.1 (p.2 % modulus s) := by
  induction mapping generalizing s with
  | nil => exact absurd hp List.not_mem_nil
  | cons e mapping ih =>
    rw [List.map_cons, List.nodup_cons] at hnodup
    obtain ⟨hfirst, hrest⟩ := hnodup
    rcases List.mem_cons.1 hp with rfl | hp
    · refine holds_of_regSame (applyMapping_regSame (mapping := mapping) hfirst) ?_
      rw [modulus, ← wrap_ofInt_toNat, ← wrapInt]
      exact holds_writeX s p.1 (wrap_fits _ _)
    · exact ih (s := s.writeX e.1 _) hrest hp

/-- A word with the residue of an `XLEN`-bit signed value reads as that value (R9). -/
theorem sval_of_emod {x : Xlen} {v : Word} {n : Int} (hv : (v.toNat : Int) = n % 2 ^ x.bits)
    (hlow : -2 ^ (x.bits - 1) ≤ n) (hhigh : n < 2 ^ (x.bits - 1)) : sval x v = n := by
  cases x with
  | x32 | x64 =>
    simp only [sval, Xlen.bits] at *
    split_ifs <;> omega

theorem holds_stored {t : State} {r : RegIdx} {n : Int} (h : Holds t r (n % modulus t)) :
    ((t.stored (.x r)).toNat : Int) = n % 2 ^ t.config.xlen.bits := by
  obtain ⟨hvalue, -, -⟩ := h
  rw [State.stored, wrap_toNat_int, hvalue, modulus, Int.emod_emod]

end Mapping

/-! ## The steps of a launch after loading -/

section Finish

/-- The launch up to the host's mapping: the stack pointer, and the argument vector where there is one (R280). -/
def beforeMapping (s : State) : Option (List Int) → State
  | none => s.setStackPointer
  | some args => s.setStackPointer.setArguments args

variable (s : State) (args : Option (List Int)) (mapping : List (RegIdx × Int))

theorem finishLaunch_eq : s.finishLaunch args mapping = ((beforeMapping s args).applyMapping mapping).startRun := by
  cases args <;> rfl

/-- What comes before the mapping sets registers and memory only. -/
theorem beforeMapping_eq : ∃ x initX written mem,
    beforeMapping s args = { s with x := x, initX := initX, written := written, mem := mem } := by
  cases args with
  | none => exact ⟨_, _, _, _, rfl⟩
  | some args =>
    rw [beforeMapping, State.setArguments, writeArguments_eq]
    exact ⟨_, _, _, _, rfl⟩

/-- The mapping sets registers only. -/
theorem applyMapping_eq : ∃ x initX written,
    s.applyMapping mapping = { s with x := x, initX := initX, written := written } := by
  induction mapping generalizing s with
  | nil => exact ⟨_, _, _, rfl⟩
  | cons e mapping ih => exact ih _

/-- Everything that a launch leaves of the loaded state or sets after the mapping (R280, R281). -/
theorem finishLaunch_frame :
    ASame s (s.finishLaunch args mapping) ∧ ArSame s (s.finishLaunch args mapping) ∧
    CycleSame s (s.finishLaunch args mapping) ∧ (s.finishLaunch args mapping).out = s.out ∧
    (s.finishLaunch args mapping).status = .running ∧
    (s.finishLaunch args mapping).pc = wrap s.config.xlen s.entry := by
  obtain ⟨_, _, _, hmapped⟩ := applyMapping_eq (beforeMapping s args) mapping
  obtain ⟨_, _, _, _, hbefore⟩ := beforeMapping_eq s args
  rw [finishLaunch_eq, hmapped, hbefore]
  exact ⟨⟨rfl, rfl⟩, ⟨rfl, rfl⟩, ⟨rfl, rfl, rfl, rfl, rfl⟩, rfl, rfl, rfl⟩

/-- The mapping leaves memory alone. -/
theorem finishLaunch_mem : (s.finishLaunch args mapping).mem = (s.finishLaunch args []).mem := by
  rw [finishLaunch_eq, finishLaunch_eq]
  exact applyMapping_mem (beforeMapping s args) mapping

theorem finishLaunch_regSame {i : RegIdx} (hi : i ∉ mapping.map (·.1)) :
    RegSame (s.finishLaunch args []) (s.finishLaunch args mapping) i := by
  rw [finishLaunch_eq, finishLaunch_eq]
  exact applyMapping_regSame (s := beforeMapping s args) hi

theorem finishLaunch_holds (hnodup : (mapping.map (·.1)).Nodup) {p : RegIdx × Int} (hp : p ∈ mapping) :
    Holds (s.finishLaunch args mapping) p.1 (p.2 % modulus s) := by
  obtain ⟨_, _, _, _, hbefore⟩ := beforeMapping_eq s args
  have hmodulus : modulus (beforeMapping s args) = modulus s := by rw [hbefore]; rfl
  rw [finishLaunch_eq, ← hmodulus]
  exact holds_of_regSame (regSame_startRun _ _) (applyMapping_holds hnodup hp)

end Finish

/-- Settles O58: each entry is the last write to its register, and the rest of a launch is the same without the
mapping. -/
theorem initialMappingWins : Obligations.InitialMappingWins := by
  intro s args mapping hnodup
  obtain ⟨ha, har, hcycle, hout, hstatus, hpc⟩ := finishLaunch_frame s args mapping
  obtain ⟨-, -, -, -, hstatus', hpc'⟩ := finishLaunch_frame s args []
  refine ⟨fun p => finishLaunch_holds s args mapping hnodup, fun p hp hlow hhigh => ?_,
    fun i => finishLaunch_regSame s args mapping, ha, har, hcycle, hout, hstatus.trans hstatus'.symm,
    hpc.trans hpc'.symm, fun addr => by rw [finishLaunch_mem]⟩
  obtain ⟨hconfig, -⟩ := hcycle
  refine sval_of_emod ?_ hlow hhigh
  rw [← hconfig]
  refine holds_stored ?_
  rw [modulus, hconfig]
  exact finishLaunch_holds s args mapping hnodup hp

end Sys2Proof.Proofs
